-- ==== Sys2Proof/Word.lean ====
section
/-! DEFINITION. The word types of the block (00_scope.md R12, R14): every quantity is unsigned. -/

namespace Sys2Proof

/-- One byte: the unit of access of both address spaces (20_memory.md R61, R64). -/
abbrev Byte := BitVec 8

/-- A token record, 8 bits (30_encoding.md R100). -/
abbrev TokenRecord := BitVec 8

/-- wValue, wIndex, wLength and the LEN field of a command are 16 bits wide (00_scope.md R12). -/
abbrev Word16 := BitVec 16

/-- Command and result words are 32 bits wide (30_encoding.md R96). -/
abbrev Word32 := BitVec 32

/-- A SETUP packet viewed as one 64-bit value, byte i in bits [8i+7:8i] (30_encoding.md R91). -/
abbrev SetupWord := BitVec 64

end Sys2Proof
end

