-- ==== Sys2Proof/Syntax.lean ====
section
/-! DEFINITION. The instruction set: one constructor of `Instr` for every row of the opcode table
(SETUP requests, commands, SIE steps, token records, application bytes), the wire forms the five
formats travel in, and the step an agent takes. -/

namespace Sys2Proof

/-- The five endpoint descriptor entries, one per endpoint direction (10_state.md R25). -/
inductive Entry where
  | ep0Out
  | ep0In
  | ep1In
  | ep2Out
  | ep2In
  deriving DecidableEq, Repr

/-- The entries an OUT packet of the host can go to (44_endpoint_buffers.md R209). -/
inductive OutEntry where
  | ep0
  | ep2
  deriving DecidableEq, Repr

/-- The entries the host can read an IN packet from (44_endpoint_buffers.md R210). -/
inductive InEntry where
  | ep0
  | ep1
  | ep2
  deriving DecidableEq, Repr

/-- One constructor per row of spec/opcode_table.json. SETUP rows carry the fields their key leaves
free (30_encoding.md R91-R93); the four catch-all rows also carry direction, recipient and request code. -/
inductive Instr where
  -- SETUP: standard requests (42_standard_requests.md)
  | getStatus (recip : BitVec 5) (wValue wIndex wLength : Word16)
  | setAddress (wValue wIndex wLength : Word16)
  | getDescriptor (wValue wIndex wLength : Word16)
  | getConfiguration (wValue wIndex wLength : Word16)
  | setConfiguration (wValue wIndex wLength : Word16)
  | getInterface (wValue wIndex wLength : Word16)
  | setInterface (wValue wIndex wLength : Word16)
  | stdUnsupported (dir : BitVec 1) (recip : BitVec 5) (bRequest : Byte) (wValue wIndex wLength : Word16)
  -- SETUP: class, vendor and reserved requests (43_cdc_class_requests.md, 41_control_transfer.md R160)
  | setLineCoding (wValue wIndex wLength : Word16)
  | getLineCoding (wValue wIndex wLength : Word16)
  | setControlLineState (wValue wIndex wLength : Word16)
  | classOther (dir : BitVec 1) (recip : BitVec 5) (bRequest : Byte) (wValue wIndex wLength : Word16)
  | vendor (dir : BitVec 1) (recip : BitVec 5) (bRequest : Byte) (wValue wIndex wLength : Word16)
  | reservedType (dir : BitVec 1) (recip : BitVec 5) (bRequest : Byte) (wValue wIndex wLength : Word16)
  -- CMD: the command port (30_encoding.md R97)
  | poll
  | attach
  | armRx (e : Entry)
  | armTx (e : Entry) (data : List Byte)
  | readAvailable (maxLen : Word16)
  | writeBytes (data : List Byte)
  | serviceTx
  | appCmd
  | cmdReserved (op : BitVec 4) (rest : BitVec 28) (data : List Byte)
  -- SIE: environment steps (30_encoding.md R101)
  | sieReset
  | sieSetup (bytes : List Byte)
  | sieOut (e : OutEntry) (bytes : List Byte)
  | sieIn (e : InEntry)
  | sieError
  | power
  | detach
  -- TOKEN: records dispatched by POLL (40_device_state.md R128)
  | tokenEp0Setup
  | tokenEp0Out
  | tokenEp0In
  | tokenEp1In
  | tokenEp2Out
  | tokenEp2In
  -- APPBYTE: the application collaborator's bytes (46_application.md R231)
  | appLedOn
  | appLedOff
  | appLedStatus
  | appUnrecognised (b : Byte)
  deriving DecidableEq, Repr

/-- What travels in each format (30_encoding.md R90): a SETUP packet, a command word with its data, a
token record, an SIE step's kind code with its operands, an application byte. The endpoint number of
an SIE step is the one its token names; this record of an SIE step is the model's own (log 9). -/
inductive Wire where
  | setup (packet : SetupWord)
  | command (word : Word32) (data : List Byte)
  | token (record : TokenRecord)
  | sie (kind : BitVec 3) (endp : BitVec 4) (bytes : List Byte)
  | appByte (b : Byte)
  deriving DecidableEq, Repr

/-- One step of one agent (00_scope.md R10): CAPTURE, a command of POLL or CALLER, or an
environment step of HOST/SIE. -/
inductive AgentStep where
  | capture
  | command (word : Word32) (data : List Byte)
  | sie (kind : BitVec 3) (endp : BitVec 4) (bytes : List Byte)
  deriving DecidableEq, Repr

end Sys2Proof
end

