-- ==== Sys2Proof/WellFormed.lean ====
section
/-! DEFINITION. Which terms of `Instr` stand for an encoding the spec gives: a catch-all row only where
no earlier row matches (30_encoding.md R93), a data sequence a 16-bit LEN can count (R96), a reserved
operation only where R98 reserves it, an unrecognised byte only where R105 names no command. -/

namespace Sys2Proof

/-- The keys of rows 1 to 7 of 30_encoding.md R93, by direction, recipient and request code. -/
def standardRowKey (dir : BitVec 1) (recip : BitVec 5) (bRequest : Byte) : Bool :=
  (dir == 1 && bRequest == 0x00)
  || (dir == 0 && recip == 0 && bRequest == 0x05)
  || (dir == 1 && recip == 0 && bRequest == 0x06)
  || (dir == 1 && recip == 0 && bRequest == 0x08)
  || (dir == 0 && recip == 0 && bRequest == 0x09)
  || (dir == 1 && recip == 1 && bRequest == 0x0A)
  || (dir == 0 && recip == 1 && bRequest == 0x0B)

/-- The keys of rows 9 to 11 of 30_encoding.md R93. -/
def cdcRowKey (dir : BitVec 1) (recip : BitVec 5) (bRequest : Byte) : Bool :=
  (dir == 0 && recip == 1 && bRequest == 0x20)
  || (dir == 1 && recip == 1 && bRequest == 0x21)
  || (dir == 0 && recip == 1 && bRequest == 0x22)

/-- OP values 0x0 and 0x9 to 0xF spell no operation (30_encoding.md R98). -/
def reservedOp (op : BitVec 4) : Bool := op == 0 || 9 ≤ op.toNat

/-- The three command bytes of the application (30_encoding.md R105). -/
def appCommandByte (b : Byte) : Bool := b == 0x4F || b == 0x46 || b == 0x53

/-- A term the decoder can produce. -/
def Instr.wellFormed : Instr → Bool
  | .getStatus _ _ _ _ => true
  | .setAddress _ _ _ => true
  | .getDescriptor _ _ _ => true
  | .getConfiguration _ _ _ => true
  | .setConfiguration _ _ _ => true
  | .getInterface _ _ _ => true
  | .setInterface _ _ _ => true
  | .stdUnsupported dir recip bRequest _ _ _ => !standardRowKey dir recip bRequest
  | .setLineCoding _ _ _ => true
  | .getLineCoding _ _ _ => true
  | .setControlLineState _ _ _ => true
  | .classOther dir recip bRequest _ _ _ => !cdcRowKey dir recip bRequest
  | .vendor _ _ _ _ _ _ => true
  | .reservedType _ _ _ _ _ _ => true
  | .poll => true
  | .attach => true
  | .armRx _ => true
  | .armTx _ data => decide (data.length < 65536)
  | .readAvailable _ => true
  | .writeBytes data => decide (data.length < 65536)
  | .serviceTx => true
  | .appCmd => true
  | .cmdReserved op _ _ => reservedOp op
  | .sieReset => true
  | .sieSetup _ => true
  | .sieOut _ _ => true
  | .sieIn _ => true
  | .sieError => true
  | .power => true
  | .detach => true
  | .tokenEp0Setup => true
  | .tokenEp0Out => true
  | .tokenEp0In => true
  | .tokenEp1In => true
  | .tokenEp2Out => true
  | .tokenEp2In => true
  | .appLedOn => true
  | .appLedOff => true
  | .appLedStatus => true
  | .appUnrecognised b => !appCommandByte b

end Sys2Proof
end

