-- ==== Sys2Proof/Decode.lean ====
section
/-! DEFINITION. From what travels to instructions and back (30_encoding.md). The SETUP key takes the
first matching row of R93; a command is checked in the order of 60_exceptions.md R248 item 4; token
records, SIE kinds and application bytes follow R100, R101 and R105. The encoder is written from the
same tables. -/

namespace Sys2Proof

/-- Why a wire form names no instruction: the refusals BAD_COMMAND and BAD_ENTRY of the command port
(60_exceptions.md R251), a record that is the model fault BAD_TOKEN (R250), and an environment step
with operands outside its domain, which is no step at all (R251). -/
inductive DecodeError where
  | badCommand
  | badEntry
  | badToken
  | notAStep
  deriving DecidableEq, Repr

/-- The fourteen rows of the request-key table (30_encoding.md R93). -/
inductive RequestKind where
  | getStatus
  | setAddress
  | getDescriptor
  | getConfiguration
  | setConfiguration
  | getInterface
  | setInterface
  | stdUnsupported
  | setLineCoding
  | getLineCoding
  | setControlLineState
  | classOther
  | vendor
  | reservedType
  deriving DecidableEq, Repr

/-- The six token records the SIE produces (30_encoding.md R100). -/
inductive TokenKind where
  | ep0Setup
  | ep0Out
  | ep0In
  | ep1In
  | ep2Out
  | ep2In
  deriving DecidableEq, Repr

/-- The rows of the application's command table (46_application.md R231). -/
inductive AppByteKind where
  | ledOn
  | ledOff
  | ledStatus
  | unrecognised
  deriving DecidableEq, Repr

/-- One row of the request-key table. -/
structure KeyRow where
  kind : RequestKind
  matchKey : BitVec 16
  mask : BitVec 16
  deriving DecidableEq, Repr

/-! ## SETUP packets -/

/-- bmRequestType, S[7:0] (30_encoding.md R91). -/
def bmRequestType (S : SetupWord) : Byte := S.extractLsb' 0 8

/-- bRequest, S[15:8] (30_encoding.md R91). -/
def bRequest (S : SetupWord) : Byte := S.extractLsb' 8 8

/-- wValue, S[31:16] (30_encoding.md R91). -/
def wValue (S : SetupWord) : Word16 := S.extractLsb' 16 16

/-- wIndex, S[47:32] (30_encoding.md R91). -/
def wIndex (S : SetupWord) : Word16 := S.extractLsb' 32 16

/-- wLength, S[63:48] (30_encoding.md R91). -/
def wLength (S : SetupWord) : Word16 := S.extractLsb' 48 16

/-- RECIP, bmRequestType[4:0] (30_encoding.md R92). -/
def recipient (S : SetupWord) : BitVec 5 := S.extractLsb' 0 5

/-- DIR, bmRequestType[7] (30_encoding.md R92). -/
def direction (S : SetupWord) : BitVec 1 := S.extractLsb' 7 1

/-- The request key K = S[15:0] (30_encoding.md R93). -/
def requestKey (S : SetupWord) : BitVec 16 := S.extractLsb' 0 16

/-- The request-key table in its order (30_encoding.md R93). -/
def requestTable : List KeyRow :=
  [ ⟨.getStatus, 0x0080, 0xFFE0⟩,
    ⟨.setAddress, 0x0500, 0xFFFF⟩,
    ⟨.getDescriptor, 0x0680, 0xFFFF⟩,
    ⟨.getConfiguration, 0x0880, 0xFFFF⟩,
    ⟨.setConfiguration, 0x0900, 0xFFFF⟩,
    ⟨.getInterface, 0x0A81, 0xFFFF⟩,
    ⟨.setInterface, 0x0B01, 0xFFFF⟩,
    ⟨.stdUnsupported, 0x0000, 0x0060⟩,
    ⟨.setLineCoding, 0x2021, 0xFFFF⟩,
    ⟨.getLineCoding, 0x21A1, 0xFFFF⟩,
    ⟨.setControlLineState, 0x2221, 0xFFFF⟩,
    ⟨.classOther, 0x0020, 0x0060⟩,
    ⟨.vendor, 0x0040, 0x0060⟩,
    ⟨.reservedType, 0x0060, 0x0060⟩ ]

/-- The first row of a table whose masked key matches. -/
def firstRow : List KeyRow → BitVec 16 → Option RequestKind
  | [], _ => none
  | r :: rows, K => if K &&& r.mask = r.matchKey then some r.kind else firstRow rows K

/-- The row of a request key; the last four catch-all rows leave no key without one (30_encoding.md R93). -/
def requestKind (K : BitVec 16) : RequestKind := (firstRow requestTable K).getD .reservedType

/-- The request a SETUP packet carries (30_encoding.md R93). -/
def decodeRequest (S : SetupWord) : Instr :=
  match requestKind (requestKey S) with
  | .getStatus => .getStatus (recipient S) (wValue S) (wIndex S) (wLength S)
  | .setAddress => .setAddress (wValue S) (wIndex S) (wLength S)
  | .getDescriptor => .getDescriptor (wValue S) (wIndex S) (wLength S)
  | .getConfiguration => .getConfiguration (wValue S) (wIndex S) (wLength S)
  | .setConfiguration => .setConfiguration (wValue S) (wIndex S) (wLength S)
  | .getInterface => .getInterface (wValue S) (wIndex S) (wLength S)
  | .setInterface => .setInterface (wValue S) (wIndex S) (wLength S)
  | .stdUnsupported => .stdUnsupported (direction S) (recipient S) (bRequest S) (wValue S) (wIndex S) (wLength S)
  | .setLineCoding => .setLineCoding (wValue S) (wIndex S) (wLength S)
  | .getLineCoding => .getLineCoding (wValue S) (wIndex S) (wLength S)
  | .setControlLineState => .setControlLineState (wValue S) (wIndex S) (wLength S)
  | .classOther => .classOther (direction S) (recipient S) (bRequest S) (wValue S) (wIndex S) (wLength S)
  | .vendor => .vendor (direction S) (recipient S) (bRequest S) (wValue S) (wIndex S) (wLength S)
  | .reservedType => .reservedType (direction S) (recipient S) (bRequest S) (wValue S) (wIndex S) (wLength S)

/-- bmRequestType from its fields: DIR, TYPE (0 Standard, 1 Class, 2 Vendor, 3 Reserved), RECIP (30_encoding.md R92). -/
def requestType (dir : BitVec 1) (type : BitVec 2) (recip : BitVec 5) : Byte := dir ++ type ++ recip

/-- A SETUP packet from its fields: {wLength, wIndex, wValue, bRequest, bmRequestType} (30_encoding.md R91). -/
def setupWord (bm : Byte) (req : Byte) (value index length : Word16) : SetupWord :=
  length ++ index ++ value ++ req ++ bm

/-- The eight bytes of a SETUP packet, byte 0 first (30_encoding.md R91). -/
def setupBytes (S : SetupWord) : List Byte :=
  [S.extractLsb' 0 8, S.extractLsb' 8 8, S.extractLsb' 16 8, S.extractLsb' 24 8,
   S.extractLsb' 32 8, S.extractLsb' 40 8, S.extractLsb' 48 8, S.extractLsb' 56 8]

/-- A byte sequence viewed as one number, byte i in bits [8i+7:8i] (20_memory.md R66). -/
def littleEndian : List Byte → Nat
  | [] => 0
  | b :: bs => b.toNat + 256 * littleEndian bs

/-! ## The command port -/

/-- The entry an E field names: an index 0..4; 5 to 15 are reserved (30_encoding.md R99, 10_state.md R25). -/
def entryOfIndex (e : BitVec 4) : Option Entry :=
  match e.toNat with
  | 0 => some .ep0Out
  | 1 => some .ep0In
  | 2 => some .ep1In
  | 3 => some .ep2Out
  | 4 => some .ep2In
  | _ => none

/-- The index of an entry (10_state.md R25). -/
def Entry.index : Entry → BitVec 4
  | .ep0Out => 0
  | .ep0In => 1
  | .ep1In => 2
  | .ep2Out => 3
  | .ep2In => 4

/-- OP, C[3:0] (30_encoding.md R96). -/
def commandOp (C : Word32) : BitVec 4 := C.extractLsb' 0 4

/-- E, C[7:4] (30_encoding.md R96). -/
def commandEntry (C : Word32) : BitVec 4 := C.extractLsb' 4 4

/-- LEN, C[23:8] (30_encoding.md R96). -/
def commandLen (C : Word32) : Word16 := C.extractLsb' 8 16

/-- C[31:24], which must be 0 (30_encoding.md R96). -/
def commandTop (C : Word32) : Byte := C.extractLsb' 24 8

/-- Check (v) of 60_exceptions.md R248 for an operation that reads no LEN and no DATA. -/
def plainCommand (C : Word32) (data : List Byte) (i : Instr) : Except DecodeError Instr :=
  if commandLen C = 0 ∧ data = [] then .ok i else .error .badCommand

/-- Check (v) of 60_exceptions.md R248 for an operation whose DATA has exactly LEN bytes. -/
def dataCommand (C : Word32) (data : List Byte) (i : Instr) : Except DecodeError Instr :=
  if data.length = (commandLen C).toNat then .ok i else .error .badCommand

/-- Check (iv) of 60_exceptions.md R248: E is 0 for an operation that does not read it. -/
def noEntryCommand (C : Word32) (k : Except DecodeError Instr) : Except DecodeError Instr :=
  if commandEntry C = 0 then k else .error .badCommand

/-- Check (iii) of 60_exceptions.md R248: E names an entry for ARM_RX and ARM_TX. -/
def entryCommand (C : Word32) (k : Entry → Except DecodeError Instr) : Except DecodeError Instr :=
  match entryOfIndex (commandEntry C) with
  | some e => k e
  | none => .error .badEntry

/-- A command word and its data, checked in the order of 60_exceptions.md R248 item 4. A reserved OP is
the instruction CMD_RESERVED whatever the other bits hold (check (i)); R205's entry restriction
(check (vi)) belongs to the meanings of ARM_RX and ARM_TX. -/
def decodeCommand (C : Word32) (data : List Byte) : Except DecodeError Instr :=
  if reservedOp (commandOp C) then .ok (.cmdReserved (commandOp C) (C.extractLsb' 4 28) data)
  else if commandTop C ≠ 0 then .error .badCommand
  else match (commandOp C).toNat with
    | 1 => noEntryCommand C (plainCommand C data .poll)
    | 2 => noEntryCommand C (plainCommand C data .attach)
    | 3 => entryCommand C fun e => plainCommand C data (.armRx e)
    | 4 => entryCommand C fun e => dataCommand C data (.armTx e data)
    | 5 => noEntryCommand C (if data = [] then .ok (.readAvailable (commandLen C)) else .error .badCommand)
    | 6 => noEntryCommand C (dataCommand C data (.writeBytes data))
    | 7 => noEntryCommand C (plainCommand C data .serviceTx)
    | _ => noEntryCommand C (plainCommand C data .appCmd)

/-- A command word from its fields (30_encoding.md R96). -/
def commandWord (op e : BitVec 4) (len : Word16) : Word32 := (0#8) ++ len ++ e ++ op

/-! ## Token records, SIE steps, application bytes -/

/-- The record's event; any other record is the model fault BAD_TOKEN (30_encoding.md R100). -/
def tokenKind (t : TokenRecord) : Option TokenKind :=
  match t.toNat with
  | 0x40 => some .ep0Setup
  | 0x00 => some .ep0Out
  | 0x30 => some .ep0In
  | 0x31 => some .ep1In
  | 0x02 => some .ep2Out
  | 0x32 => some .ep2In
  | _ => none

/-- A token record from its fields {0, PID, DIR, ENDP} (30_encoding.md R100). -/
def tokenRecord (pid : BitVec 2) (dir : BitVec 1) (endp : BitVec 4) : TokenRecord := (0#1) ++ pid ++ dir ++ endp

/-- The record the SIE writes for each event: PID 0 OUT, 1 IN, 2 SETUP; DIR 0 OUT, 1 IN (30_encoding.md R100). -/
def TokenKind.record : TokenKind → TokenRecord
  | .ep0Setup => tokenRecord 2 0 0
  | .ep0Out => tokenRecord 0 0 0
  | .ep0In => tokenRecord 1 1 0
  | .ep1In => tokenRecord 1 1 1
  | .ep2Out => tokenRecord 0 0 2
  | .ep2In => tokenRecord 1 1 2

/-- The token row of an event. -/
def TokenKind.instr : TokenKind → Instr
  | .ep0Setup => .tokenEp0Setup
  | .ep0Out => .tokenEp0Out
  | .ep0In => .tokenEp0In
  | .ep1In => .tokenEp1In
  | .ep2Out => .tokenEp2Out
  | .ep2In => .tokenEp2In

/-- The OUT entry of an endpoint number. -/
def outEntryOf (endp : BitVec 4) : Option OutEntry :=
  match endp.toNat with
  | 0 => some .ep0
  | 2 => some .ep2
  | _ => none

/-- The IN entry of an endpoint number. -/
def inEntryOf (endp : BitVec 4) : Option InEntry :=
  match endp.toNat with
  | 0 => some .ep0
  | 1 => some .ep1
  | 2 => some .ep2
  | _ => none

/-- The endpoint number of an OUT entry (10_state.md R25). -/
def OutEntry.endpointNumber : OutEntry → BitVec 4
  | .ep0 => 0
  | .ep2 => 2

/-- The endpoint number of an IN entry (10_state.md R25). -/
def InEntry.endpointNumber : InEntry → BitVec 4
  | .ep0 => 0
  | .ep1 => 1
  | .ep2 => 2

/-- An environment step with no operands. -/
def bareStep (endp : BitVec 4) (bytes : List Byte) (i : Instr) : Except DecodeError Instr :=
  if endp = 0 ∧ bytes = [] then .ok i else .error .notAStep

/-- An environment step from its kind code and operands (30_encoding.md R101). Kind 7, an operand a kind
does not have, and an endpoint the kind cannot name are no step (60_exceptions.md R251; log 8). -/
def decodeSie (kind : BitVec 3) (endp : BitVec 4) (bytes : List Byte) : Except DecodeError Instr :=
  match kind.toNat with
  | 0 => bareStep endp bytes .sieReset
  | 1 => if endp = 0 then .ok (.sieSetup bytes) else .error .notAStep
  | 2 => match outEntryOf endp with
    | some e => .ok (.sieOut e bytes)
    | none => .error .notAStep
  | 3 => match inEntryOf endp with
    | some e => if bytes = [] then .ok (.sieIn e) else .error .notAStep
    | none => .error .notAStep
  | 4 => bareStep endp bytes .sieError
  | 5 => bareStep endp bytes .power
  | 6 => bareStep endp bytes .detach
  | _ => .error .notAStep

/-- The row of the application's command table a byte falls in (46_application.md R231). -/
def appByteKind (b : Byte) : AppByteKind :=
  match b.toNat with
  | 0x4F => .ledOn
  | 0x46 => .ledOff
  | 0x53 => .ledStatus
  | _ => .unrecognised

/-- The application row of a byte. -/
def decodeAppByte (b : Byte) : Instr :=
  match appByteKind b with
  | .ledOn => .appLedOn
  | .ledOff => .appLedOff
  | .ledStatus => .appLedStatus
  | .unrecognised => .appUnrecognised b

/-! ## All formats -/

/-- The instruction a wire form stands for, or the reason it stands for none. -/
def decode : Wire → Except DecodeError Instr
  | .setup S => .ok (decodeRequest S)
  | .command C data => decodeCommand C data
  | .token t => match tokenKind t with
    | some k => .ok k.instr
    | none => .error .badToken
  | .sie kind endp bytes => decodeSie kind endp bytes
  | .appByte b => .ok (decodeAppByte b)

/-- The wire form of a well-formed instruction, from the tables of 30_encoding.md. -/
def encode : Instr → Wire
  | .getStatus recip v x l => .setup (setupWord (requestType 1 0 recip) 0x00 v x l)
  | .setAddress v x l => .setup (setupWord (requestType 0 0 0) 0x05 v x l)
  | .getDescriptor v x l => .setup (setupWord (requestType 1 0 0) 0x06 v x l)
  | .getConfiguration v x l => .setup (setupWord (requestType 1 0 0) 0x08 v x l)
  | .setConfiguration v x l => .setup (setupWord (requestType 0 0 0) 0x09 v x l)
  | .getInterface v x l => .setup (setupWord (requestType 1 0 1) 0x0A v x l)
  | .setInterface v x l => .setup (setupWord (requestType 0 0 1) 0x0B v x l)
  | .stdUnsupported dir recip req v x l => .setup (setupWord (requestType dir 0 recip) req v x l)
  | .setLineCoding v x l => .setup (setupWord (requestType 0 1 1) 0x20 v x l)
  | .getLineCoding v x l => .setup (setupWord (requestType 1 1 1) 0x21 v x l)
  | .setControlLineState v x l => .setup (setupWord (requestType 0 1 1) 0x22 v x l)
  | .classOther dir recip req v x l => .setup (setupWord (requestType dir 1 recip) req v x l)
  | .vendor dir recip req v x l => .setup (setupWord (requestType dir 2 recip) req v x l)
  | .reservedType dir recip req v x l => .setup (setupWord (requestType dir 3 recip) req v x l)
  | .poll => .command (commandWord 1 0 0) []
  | .attach => .command (commandWord 2 0 0) []
  | .armRx e => .command (commandWord 3 e.index 0) []
  | .armTx e data => .command (commandWord 4 e.index (BitVec.ofNat 16 data.length)) data
  | .readAvailable n => .command (commandWord 5 0 n) []
  | .writeBytes data => .command (commandWord 6 0 (BitVec.ofNat 16 data.length)) data
  | .serviceTx => .command (commandWord 7 0 0) []
  | .appCmd => .command (commandWord 8 0 0) []
  | .cmdReserved op rest data => .command (rest ++ op) data
  | .sieReset => .sie 0 0 []
  | .sieSetup bytes => .sie 1 0 bytes
  | .sieOut e bytes => .sie 2 e.endpointNumber bytes
  | .sieIn e => .sie 3 e.endpointNumber []
  | .sieError => .sie 4 0 []
  | .power => .sie 5 0 []
  | .detach => .sie 6 0 []
  | .tokenEp0Setup => .token TokenKind.ep0Setup.record
  | .tokenEp0Out => .token TokenKind.ep0Out.record
  | .tokenEp0In => .token TokenKind.ep0In.record
  | .tokenEp1In => .token TokenKind.ep1In.record
  | .tokenEp2Out => .token TokenKind.ep2Out.record
  | .tokenEp2In => .token TokenKind.ep2In.record
  | .appLedOn => .appByte 0x4F
  | .appLedOff => .appByte 0x46
  | .appLedStatus => .appByte 0x53
  | .appUnrecognised b => .appByte b

/-! ## Table words -/

/-- DATA for a table word: as many zero bytes as its LEN counts where the operation takes DATA. -/
def zeroData (C : Word32) : List Byte :=
  if commandOp C = 4 ∨ commandOp C = 6 then List.replicate (commandLen C).toNat 0 else []

/-- The wire form of an opcode-table word. The table numbers each format's bits from 0 and does not say
which port a word is on, so the width says it: 32 bits are a command, more than 8 bits otherwise a SETUP
packet. An 8-bit word is an SIE kind code if it is below 7, else one of the token records, else an
application command byte, else the first byte of a SETUP packet if its TYPE says Class or Reserved, else an
application byte (log 10). -/
def tableWire (nbits w : Nat) : Wire :=
  if nbits = 32 then .command (BitVec.ofNat 32 w) (zeroData (BitVec.ofNat 32 w))
  else if 8 < nbits then .setup (BitVec.ofNat 64 w)
  else if w < 7 then .sie (BitVec.ofNat 3 w) 0 []
  else if (tokenKind (BitVec.ofNat 8 w)).isSome then .token (BitVec.ofNat 8 w)
  else if appCommandByte (BitVec.ofNat 8 w) then .appByte (BitVec.ofNat 8 w)
  else if w = 0x20 ∨ w = 0x60 then .setup (BitVec.ofNat 64 w)
  else .appByte (BitVec.ofNat 8 w)

/-- The instruction the decoder reads from an opcode-table word. -/
def decodeTableWord (nbits w : Nat) : Option Instr :=
  match decode (tableWire nbits w) with
  | .ok i => some i
  | .error _ => none

end Sys2Proof
end

