-- ==== Sys2Proof/Config.lean ====
section
/-! DEFINITION. The parameters a model takes (00_scope.md R11, R15), their default values, and the
free values: the schedule of the agents and the descriptor bytes the spec leaves open. -/

namespace Sys2Proof

/-- One value per endpoint descriptor entry (10_state.md R25). -/
structure PerEntry (α : Type) where
  ep0Out : α
  ep0In : α
  ep1In : α
  ep2Out : α
  ep2In : α
  deriving DecidableEq, Repr

/-- What the application request hook answers (41_control_transfer.md R159). -/
inductive HookResult where
  | unhandled
  | noData
  | dataIn (bytes : List Byte)
  deriving DecidableEq, Repr

/-- The descriptor table DESC (00_scope.md R15): the contents of the descriptor ROM. -/
structure DescTable where
  dev : List Byte
  cfg : List Byte
  str0 : List Byte
  str1 : List Byte
  str2 : List Byte
  deriving DecidableEq, Repr

/-- A CDC line coding (10_state.md R35). -/
structure LineCoding where
  rate : BitVec 32
  format : Byte
  parity : Byte
  dataBits : Byte
  deriving DecidableEq, Repr

/-- The implementation parameters of 00_scope.md R11. APP_HOOK is a total function of the packet:
`appHook` lists the packets it handles, and every packet not listed is unhandled (log 2). -/
structure Params where
  ep0Mps : Nat
  ep1Mps : Nat
  ep2Mps : Nat
  bufCap : PerEntry Nat
  cfgValue : BitVec 8
  commIf : BitVec 8
  dataIf : BitVec 8
  sieFifoDepth : Nat
  tokqDepth : Nat
  lineCodingReset : LineCoding
  appHook : List (SetupWord × HookResult)
  appReadMax : Nat
  desc : DescTable
  deriving DecidableEq, Repr

namespace Config

/-- NUM_IF, fixed by the source (00_scope.md R11). -/
def numIf : Nat := 2

/-- NUM_STRINGS, fixed by the source (00_scope.md R11, conflict C2). -/
def numStrings : Nat := 3

/-- DEV_DESC_LEN, fixed by the source (00_scope.md R11). -/
def devDescLen : Nat := 18

/-- CFG_TOTAL_LEN, fixed by the source (00_scope.md R11, conflict C1). -/
def cfgTotalLen : Nat := 67

/-- FREE VALUE. The step some agent takes in slot n when nothing is waiting in the agenda, or none: the
order of the agents, the host's and CALLER's behaviour are any value (20_memory.md R73, U19, U20, U22; log 1). -/
opaque freeStep : Nat → Option AgentStep

/-- FREE VALUE. Byte i of descriptor d (0 device, 1 configuration, 2-4 strings 0-2) where the spec
leaves it open (00_scope.md R15, D63; log 3). -/
opaque descByte : Nat → Nat → Byte

/-- n free bytes of descriptor d from offset `off`. -/
def freeBytes (d off : Nat) : Nat → List Byte
  | 0 => []
  | n + 1 => descByte d off :: freeBytes d (off + 1) n

/-- The descriptor table at power-on: the bytes 70_reset_and_hazards.md R276 fixes, in the usual
CDC-ACM order with functional descriptors of 5, 5, 4 and 5 bytes (conflict C1), and free bytes
everywhere else. PRESUMED layout and string lengths (log 3). -/
def desc : DescTable where
  dev := [18#8, 0x01#8] ++ freeBytes 0 2 5 ++ [8#8] ++ freeBytes 0 8 10
  cfg :=
    [9#8, 0x02#8, 67#8, 0#8, 2#8, 1#8] ++ freeBytes 1 6 3
    ++ [9#8, 0x04#8, 0#8] ++ freeBytes 1 12 6
    ++ [5#8, 0x24#8] ++ freeBytes 1 20 3
    ++ [5#8, 0x24#8] ++ freeBytes 1 25 3
    ++ [4#8, 0x24#8] ++ freeBytes 1 30 2
    ++ [5#8, 0x24#8] ++ freeBytes 1 34 3
    ++ [7#8, 0x05#8, 0x81#8, 0x03#8, 8#8, 0#8] ++ freeBytes 1 43 1
    ++ [9#8, 0x04#8, 1#8] ++ freeBytes 1 47 6
    ++ [7#8, 0x05#8, 0x02#8, 0x02#8, 64#8, 0#8] ++ freeBytes 1 59 1
    ++ [7#8, 0x05#8, 0x82#8, 0x02#8, 64#8, 0#8] ++ freeBytes 1 66 1
  str0 := [4#8, 0x03#8] ++ freeBytes 2 2 2
  str1 := [16#8, 0x03#8] ++ freeBytes 3 2 14
  str2 := [20#8, 0x03#8] ++ freeBytes 4 2 18

/-- The default parameter set of 00_scope.md R11. -/
def params : Params where
  ep0Mps := 8
  ep1Mps := 8
  ep2Mps := 64
  bufCap := { ep0Out := 8, ep0In := 8, ep1In := 8, ep2Out := 64, ep2In := 64 }
  cfgValue := 1
  commIf := 0
  dataIf := 1
  sieFifoDepth := 4
  tokqDepth := 8
  lineCodingReset := { rate := 9600, format := 0, parity := 0, dataBits := 8 }
  appHook := []
  appReadMax := 64
  desc := desc

end Config
end Sys2Proof
end

