-- ==== Sys2Proof/Machine/State.lean ====
section
/-! DEFINITION. Everything the spec gives the machine, as plain data (10_state.md), the reasons a run
stops, and the state after power-on reset (70_reset_and_hazards.md R270). -/

namespace Sys2Proof.Machine

/-- The six device states; `State.devState` holds their codes (10_state.md R21). -/
inductive DevState where
  | detached
  | attached
  | powered
  | default
  | address
  | configured
  deriving DecidableEq, Repr

/-- The stages of a control transfer; `Ctx.stage` holds their codes (10_state.md R33). -/
inductive Stage where
  | idle
  | dataIn
  | dataOut
  | statusIn
  | statusOut
  deriving DecidableEq, Repr

/-- The two values of an ownership flag: HW (1), the SIE; FW (0), the block (00_scope.md R14). -/
inductive Owner where
  | fw
  | hw
  deriving DecidableEq, Repr

/-- BD[e].STAT by its fields; bits 7:3 and 31:19 read 0 (10_state.md R26; log 18). -/
structure BdStat where
  own : Owner
  en : Bool
  stall : Bool
  cnt : BitVec 11
  deriving DecidableEq, Repr

/-- CTX.ACTION: the four kinds with their arguments (10_state.md R34). -/
inductive Action where
  | noAction
  | setAddress (a : BitVec 7)
  | setConfig (c : BitVec 8)
  | setLineCoding
  deriving DecidableEq, Repr

/-- The control context CTX (10_state.md R32). STAGE is held as its 3-bit code (log 14). -/
structure Ctx where
  stage : BitVec 3
  setup : SetupWord
  dir : Bool
  remain : BitVec 16
  resp : List Byte
  off : BitVec 16
  zlpPend : Bool
  action : Action
  outBuf : BitVec 56
  outCnt : BitVec 3
  deriving DecidableEq, Repr

/-- The Idle context: every field at its Idle value (10_state.md R32). -/
def Ctx.idle : Ctx where
  stage := 0
  setup := 0
  dir := false
  remain := 0
  resp := []
  off := 0
  zlpPend := false
  action := .noAction
  outBuf := 0
  outCnt := 0

/-- The stall causes in the order of their codes 0 to 7 (60_exceptions.md R241). -/
inductive StallCause where
  | none
  | malformed
  | unsupported
  | badState
  | outOfRange
  | hookUnhandled
  | reservedType
  | shortData
  deriving DecidableEq, Repr

/-- The model faults (60_exceptions.md R250). A meaning that meets one leaves a state whose FAULTED mark
holds its name and changes nothing else; `step` answers it from then on, since no later step is enabled (log 4). -/
inductive Fault where
  /-- BAD_STATE_CODE: a rule read DEV_STATE 6 or 7, or CTX.STAGE 5, 6 or 7. Safe: the spec names it. -/
  | badStateCode
  /-- BAD_TOKEN: POLL met a token record the SIE never produces. Safe: the spec names it. -/
  | badToken
  /-- STALE_TOKEN: POLL met a record outside the operational states, or for an EP0 entry the SIE owns. Safe: the spec names it. -/
  | staleToken
  /-- UNWRITTEN_READ: a rule read a buffer byte nothing has written. Safe: the spec names it. -/
  | unwrittenRead
  /-- OUT_OF_BOUNDS: an access beyond a buffer area, a descriptor, RESP or OUTBUF. Safe: the spec names it (log 17). -/
  | outOfBounds
  deriving DecidableEq, Repr

/-- The names REFUSED can hold for a command (60_exceptions.md R251; log 5). -/
inductive CommandRefusal where
  | reservedOp
  | badCommand
  | badEntry
  | ep0Reserved
  | wrongDirection
  deriving DecidableEq, Repr

/-- Why a run cannot go on with a step that is no model fault. -/
inductive Refusal where
  /-- Raised by exec for an instruction that has no meaning yet. Safe: the run stops. -/
  | notModelled (mnemonic : String)
  /-- BAD_PARAMETERS: raised by step on a parameter set that 00_scope.md R13 does not admit. Safe: the spec gives such a set no run. -/
  | badParameters
  /-- Raised by step on an agenda entry that is no environment step, and by SIE_SETUP with more than EP0_MPS bytes, which
  60_exceptions.md R251 says is none (log 8). Safe: the run stops. -/
  | notAStep
  deriving DecidableEq, Repr

/-- What a command hands back: the result word and the result bytes (30_encoding.md R96). -/
structure CommandResult where
  word : Word32
  bytes : List Byte
  deriving DecidableEq, Repr

/-- The SIE's answers to a token (44_endpoint_buffers.md R211). -/
inductive Handshake where
  | ack
  | nak
  | stall
  | ignore
  deriving DecidableEq, Repr

/-- Buffer RAM as a list of written bytes, addresses strictly rising; an address not listed has not been
written and reads as no value (20_memory.md R63; log 13). -/
abbrev Memory := List Host.Cell

/-- The block with its collaborator, the ports of its environment, and the pending agent steps. -/
structure State where
  /-- The parameters of the run, fixed at launch (00_scope.md R11; log 2). DESC is among them. -/
  params : Params
  /-- SR0 DEV_STATE, held as its 3-bit code (10_state.md R21; log 14). -/
  devState : BitVec 3
  /-- SR1 DEV_ADDR (10_state.md R22). -/
  devAddr : BitVec 7
  /-- SR2 ACTIVE_CFG (10_state.md R23). -/
  activeCfg : BitVec 8
  /-- SR3-SR7, the STAT words of BD[0]..BD[4] (10_state.md R26). -/
  bd : PerEntry BdStat
  /-- SR8 CTX (10_state.md R32). -/
  ctx : Ctx
  /-- SR9 LINE_CODING (10_state.md R35). -/
  lineCoding : LineCoding
  /-- SR10 TXQ: TX_PENDING (10_state.md R36). -/
  txPending : Bool
  /-- SR10 TXQ: TX_LEN (10_state.md R36). -/
  txLen : BitVec 7
  /-- SR11 EVT: PEND_RESET (10_state.md R38). -/
  pendReset : Bool
  /-- SR11 EVT: PEND_ERROR (10_state.md R38). -/
  pendError : Bool
  /-- SR11 EVT: TOKQ, head first (10_state.md R38). -/
  tokq : List TokenRecord
  /-- SR12 SIEIF: SIE_IF_RESET (10_state.md R40). -/
  sieIfReset : Bool
  /-- SR12 SIEIF: SIE_IF_ERROR (10_state.md R40). -/
  sieIfError : Bool
  /-- SR12 SIEIF: SIE_FIFO, head first (10_state.md R40). -/
  sieFifo : List TokenRecord
  /-- SR12 SIEIF: SETUP_LOCK (10_state.md R40). -/
  setupLock : Bool
  /-- SR13 STALL_CAUSE (10_state.md R41). -/
  stallCause : StallCause
  /-- BUF, the buffer RAM (20_memory.md R60). -/
  buf : Memory
  /-- LED of the application collaborator (46_application.md R230). -/
  led : Bool
  /-- The FAULTED mark (10_state.md R42). -/
  faulted : Option Fault
  /-- The REFUSED mark (10_state.md R42). -/
  refused : Option CommandRefusal
  /-- The command port's result: that of the last command, none if it was refused (30_encoding.md R96; log 12). -/
  result : Option CommandResult
  /-- The packets the SIE_IN steps have output, first one first (44_endpoint_buffers.md R210; log 12). -/
  hostSees : List (List Byte)
  /-- The SIE's answer to the last token the host sent (44_endpoint_buffers.md R211; log 12). -/
  answer : Option Handshake
  /-- MODEL'S OWN: the agent steps waiting to be taken, next one first (log 1). -/
  agenda : List AgentStep
  /-- MODEL'S OWN: how many free slots have passed (log 1). -/
  slot : Nat
  deriving DecidableEq, Repr

/-- STAT = 0: OWN FW, EN 0, STALL 0, CNT 0 (10_state.md R27). -/
def BdStat.zero : BdStat where
  own := .fw
  en := false
  stall := false
  cnt := 0

/-- Power-on reset under a parameter set (70_reset_and_hazards.md R270). -/
def State.powerOn (p : Params) : State where
  params := p
  devState := 0
  devAddr := 0
  activeCfg := 0
  bd := { ep0Out := BdStat.zero, ep0In := BdStat.zero, ep1In := BdStat.zero, ep2Out := BdStat.zero, ep2In := BdStat.zero }
  ctx := Ctx.idle
  lineCoding := p.lineCodingReset
  txPending := false
  txLen := 0
  pendReset := false
  pendError := false
  tokq := []
  sieIfReset := false
  sieIfError := false
  sieFifo := []
  setupLock := false
  stallCause := .none
  buf := []
  led := false
  faulted := none
  refused := none
  result := none
  hostSees := []
  answer := none
  agenda := []
  slot := 0

/-- The machine right after power-on reset with the default parameters (70_reset_and_hazards.md R270, 00_scope.md R11). -/
def State.reset : State := State.powerOn Config.params

end Sys2Proof.Machine
end

