-- ==== Sys2Proof/Machine/Parameters.lean ====
section
/-! DEFINITION. What follows from the parameters: entry constants (10_state.md R25, R26), the BUF map
(20_memory.md R62), the descriptor ROM's reads (R64), the request hook, and which parameter sets are
admitted (00_scope.md R13, 70_reset_and_hazards.md R276). -/

namespace Sys2Proof

/-- The value an entry holds. -/
def PerEntry.get {α : Type} (x : PerEntry α) : Entry → α
  | .ep0Out => x.ep0Out
  | .ep0In => x.ep0In
  | .ep1In => x.ep1In
  | .ep2Out => x.ep2Out
  | .ep2In => x.ep2In

/-- One entry's value replaced. -/
def PerEntry.set {α : Type} (x : PerEntry α) (e : Entry) (v : α) : PerEntry α :=
  match e with
  | .ep0Out => { x with ep0Out := v }
  | .ep0In => { x with ep0In := v }
  | .ep1In => { x with ep1In := v }
  | .ep2Out => { x with ep2Out := v }
  | .ep2In => { x with ep2In := v }

end Sys2Proof

namespace Sys2Proof.Machine

/-- MPS of an entry (10_state.md R25). -/
def mps (p : Params) : Entry → Nat
  | .ep0Out => p.ep0Mps
  | .ep0In => p.ep0Mps
  | .ep1In => p.ep1Mps
  | .ep2Out => p.ep2Mps
  | .ep2In => p.ep2Mps

/-- BUF_CAP of an entry (00_scope.md R11). -/
def bufCap (p : Params) (e : Entry) : Nat := p.bufCap.get e

/-- ADR(e): the buffers lie contiguously in entry order from address 0 (20_memory.md R62). -/
def adr (p : Params) : Entry → Nat
  | .ep0Out => 0
  | .ep0In => p.bufCap.ep0Out
  | .ep1In => p.bufCap.ep0Out + p.bufCap.ep0In
  | .ep2Out => p.bufCap.ep0Out + p.bufCap.ep0In + p.bufCap.ep1In
  | .ep2In => p.bufCap.ep0Out + p.bufCap.ep0In + p.bufCap.ep1In + p.bufCap.ep2Out

/-- TX_BUF_ADR = ADR(4) + BUF_CAP(4) (20_memory.md R62). -/
def txBufAdr (p : Params) : Nat := adr p .ep2In + p.bufCap.ep2In

/-- BUF_SIZE = TX_BUF_ADR + EP2_MPS (20_memory.md R62). -/
def bufSize (p : Params) : Nat := txBufAdr p + p.ep2Mps

/-- EPNUM of an entry (10_state.md R25). -/
def epnum : Entry → BitVec 4
  | .ep0Out => 0
  | .ep0In => 0
  | .ep1In => 1
  | .ep2Out => 2
  | .ep2In => 2

/-- DIR of an entry: 0 OUT, 1 IN (10_state.md R25, R26). -/
def entryDir : Entry → BitVec 1
  | .ep0Out => 0
  | .ep0In => 1
  | .ep1In => 1
  | .ep2Out => 0
  | .ep2In => 1

/-- TYPE of an entry: 0 control, 2 bulk, 3 interrupt (10_state.md R25, R26). -/
def entryType : Entry → BitVec 2
  | .ep0Out => 0
  | .ep0In => 0
  | .ep1In => 3
  | .ep2Out => 2
  | .ep2In => 2

/-- BD[e].CFG: EPNUM 3:0, DIR 4, TYPE 6:5, bit 7 zero, MPS 18:8, the rest zero (10_state.md R26). -/
def bdCfg (p : Params) (e : Entry) : Word32 :=
  (0#13) ++ BitVec.ofNat 11 (mps p e) ++ (0#1) ++ entryType e ++ entryDir e ++ epnum e

/-- BD[e].ADR (10_state.md R26). -/
def bdAdr (p : Params) (e : Entry) : Word16 := BitVec.ofNat 16 (adr p e)

/-- The descriptor selectors (20_memory.md R64). -/
inductive DescSelector where
  | dev
  | cfg
  | str0
  | str1
  | str2
  deriving DecidableEq, Repr

/-- The bytes of a descriptor (20_memory.md R64). -/
def descBytes (d : DescTable) : DescSelector → List Byte
  | .dev => d.dev
  | .cfg => d.cfg
  | .str0 => d.str0
  | .str1 => d.str1
  | .str2 => d.str2

/-- MemRead(DESC, d, off, n); a read beyond the descriptor is OUT_OF_BOUNDS (20_memory.md R64, R65). -/
def descRead (p : Params) (d : DescSelector) (off n : Nat) : Except Fault (List Byte) :=
  if off + n ≤ (descBytes p.desc d).length then .ok (((descBytes p.desc d).drop off).take n)
  else .error .outOfBounds

/-- APP_HOOK: a packet the table does not list is unhandled (41_control_transfer.md R159; log 2). -/
def appHook (p : Params) (S : SetupWord) : HookResult :=
  match p.appHook.find? (fun r => r.1 == S) with
  | some r => r.2
  | none => .unhandled

/-! ## Admission -/

/-- The legal full-speed maximum packet sizes (00_scope.md R13 (a), (b)). -/
def legalMps (n : Nat) : Bool := n == 8 || n == 16 || n == 32 || n == 64

/-- Byte i of a descriptor; 0 past its end, which no check reaches. -/
def descAt (d : List Byte) (i : Nat) : Byte := d.getD i 0

/-- The configuration walk: from offset 0 take the length byte L, require L ≥ 2 and L bytes left, go on
L bytes further, and end exactly at the end (70_reset_and_hazards.md R276 item 2). -/
def descWalk : Nat → List Byte → Option (List (List Byte))
  | _, [] => some []
  | 0, _ :: _ => none
  | fuel + 1, l :: bs =>
    if l.toNat < 2 || (l :: bs).length < l.toNat then none
    else match descWalk fuel ((l :: bs).drop l.toNat) with
      | some ds => some ((l :: bs).take l.toNat :: ds)
      | none => none

/-- Item 1 of 70_reset_and_hazards.md R276. -/
def deviceDescOk (p : Params) : Bool :=
  p.desc.dev.length == Config.devDescLen && descAt p.desc.dev 0 == 18 && descAt p.desc.dev 1 == 0x01
  && (descAt p.desc.dev 7).toNat == p.ep0Mps

/-- Item 3 of 70_reset_and_hazards.md R276. -/
def configDescOk (p : Params) : List (List Byte) → Bool
  | [] => false
  | d :: ds =>
    d.length == 9 && descAt d 1 == 0x02
    && (descAt d 2).toNat + 256 * (descAt d 3).toNat == Config.cfgTotalLen
    && (descAt d 4).toNat == Config.numIf && descAt d 5 == p.cfgValue
    && ds.all (fun d' => descAt d' 1 != 0x02)

/-- Item 4 of 70_reset_and_hazards.md R276. -/
def interfaceDescsOk (p : Params) (ds : List (List Byte)) : Bool :=
  let ifs := ds.filter (fun d => descAt d 1 == 0x04)
  ifs.length == Config.numIf && ifs.all (fun d => d.length == 9 && (descAt d 2 == p.commIf || descAt d 2 == p.dataIf))
  && ifs.any (fun d => descAt d 2 == p.commIf) && ifs.any (fun d => descAt d 2 == p.dataIf)

/-- bmAttributes[1:0] and wMaxPacketSize of an endpoint descriptor (70_reset_and_hazards.md R276 item 5). -/
def endpointDescIs (d : List Byte) (address : Byte) (attr : BitVec 2) (size : Nat) : Bool :=
  descAt d 2 == address && (descAt d 3).extractLsb' 0 2 == attr
  && (descAt d 4).toNat + 256 * (descAt d 5).toNat == size

/-- Item 5 of 70_reset_and_hazards.md R276. -/
def endpointDescsOk (p : Params) (ds : List (List Byte)) : Bool :=
  let eps := ds.filter (fun d => descAt d 1 == 0x05)
  eps.length == 3 && eps.all (fun d => d.length == 7)
  && eps.any (fun d => endpointDescIs d 0x81 3 p.ep1Mps)
  && eps.any (fun d => endpointDescIs d 0x02 2 p.ep2Mps)
  && eps.any (fun d => endpointDescIs d 0x82 2 p.ep2Mps)

/-- Item 6 of 70_reset_and_hazards.md R276. -/
def otherDescsOk (ds : List (List Byte)) : Bool :=
  ds.all (fun d => descAt d 1 == 0x02 || descAt d 1 == 0x04 || descAt d 1 == 0x05 || descAt d 1 == 0x24)

/-- Item 7 of 70_reset_and_hazards.md R276 for one string. -/
def stringDescOk (d : List Byte) : Bool :=
  decide (2 ≤ d.length) && (descAt d 0).toNat == d.length && descAt d 1 == 0x03 && d.length % 2 == 0

/-- The startup validation of DESC (70_reset_and_hazards.md R276). -/
def descOk (p : Params) : Bool :=
  deviceDescOk p && p.desc.cfg.length == Config.cfgTotalLen
  && (match descWalk Config.cfgTotalLen p.desc.cfg with
      | some ds => configDescOk p ds && interfaceDescsOk p ds && endpointDescsOk p ds && otherDescsOk ds
      | none => false)
  && stringDescOk p.desc.str0 && stringDescOk p.desc.str1 && stringDescOk p.desc.str2
  && decide (4 ≤ p.desc.str0.length)

/-- Which parameter sets are admitted, items (a) to (g) of 00_scope.md R13. -/
def admitted (p : Params) : Bool :=
  legalMps p.ep0Mps && legalMps p.ep1Mps && legalMps p.ep2Mps
  && p.bufCap == { ep0Out := p.ep0Mps, ep0In := p.ep0Mps, ep1In := p.ep1Mps, ep2Out := p.ep2Mps, ep2In := p.ep2Mps }
  && p.cfgValue != 0
  && p.commIf != p.dataIf && decide (p.commIf.toNat < Config.numIf) && decide (p.dataIf.toNat < Config.numIf)
  && descOk p
  && decide (1 ≤ p.tokqDepth) && decide (1 ≤ p.sieFifoDepth)

/-- Launching a model with a parameter set: power-on reset if the set is admitted, otherwise no run
(00_scope.md R13, 70_reset_and_hazards.md R275 items 1 and 2). -/
def launch (p : Params) : Host.Outcome State Fault Refusal :=
  if admitted p then .next (State.powerOn p) else .refused .badParameters

end Sys2Proof.Machine
end

