-- ==== Sys2Proof/Machine/Operands.lean ====
section
/-! DEFINITION. The operand forms: state codes, entries as operands, the memory areas, the fields of
GET_DESCRIPTOR and of recipients, the line-coding bytes, OUTBUF's bytes, STAT and result words. -/

namespace Sys2Proof.Machine

/-! ## State codes -/

/-- The code of a device state (10_state.md R21). -/
def DevState.code : DevState → BitVec 3
  | .detached => 0
  | .attached => 1
  | .powered => 2
  | .default => 3
  | .address => 4
  | .configured => 5

/-- The device state of a code; 6 and 7 are never held (10_state.md R21). -/
def DevState.ofCode (c : BitVec 3) : Option DevState :=
  match c.toNat with
  | 0 => some .detached
  | 1 => some .attached
  | 2 => some .powered
  | 3 => some .default
  | 4 => some .address
  | 5 => some .configured
  | _ => none

/-- Default, Address and Configured, the states a control transfer runs in (40_device_state.md R128, R134). -/
def DevState.operational : DevState → Bool
  | .detached => false
  | .attached => false
  | .powered => false
  | .default => true
  | .address => true
  | .configured => true

/-- The states in which the SIE can see a bus reset or a transport error (44_endpoint_buffers.md R212, R213). -/
def DevState.onPoweredBus : DevState → Bool
  | .detached => false
  | .attached => false
  | .powered => true
  | .default => true
  | .address => true
  | .configured => true

/-- The code of a stage (10_state.md R33). -/
def Stage.code : Stage → BitVec 3
  | .idle => 0
  | .dataIn => 1
  | .dataOut => 2
  | .statusIn => 3
  | .statusOut => 4

/-- The stage of a code; 5, 6 and 7 are never held (10_state.md R33). -/
def Stage.ofCode (c : BitVec 3) : Option Stage :=
  match c.toNat with
  | 0 => some .idle
  | 1 => some .dataIn
  | 2 => some .dataOut
  | 3 => some .statusIn
  | 4 => some .statusOut
  | _ => none

/-- The code of a stall cause (60_exceptions.md R241). -/
def StallCause.code : StallCause → BitVec 3
  | .none => 0
  | .malformed => 1
  | .unsupported => 2
  | .badState => 3
  | .outOfRange => 4
  | .hookUnhandled => 5
  | .reservedType => 6
  | .shortData => 7

/-- CTX.ACTION as its kind code and argument, 2 + 8 bits (10_state.md R34). -/
def Action.word : Action → BitVec 10
  | .noAction => 0
  | .setAddress a => (1#2) ++ a.setWidth 8
  | .setConfig c => (2#2) ++ c
  | .setLineCoding => (3#2) ++ (0#8)

/-! ## Entries -/

/-- The entry of an OUT step. -/
def outEntry : OutEntry → Entry
  | .ep0 => .ep0Out
  | .ep2 => .ep2Out

/-- The entry of an IN step. -/
def inEntry : InEntry → Entry
  | .ep0 => .ep0In
  | .ep1 => .ep1In
  | .ep2 => .ep2In

/-- The record an OUT completion pushes: {ENDP EPNUM(e), DIR 0, PID OUT} (44_endpoint_buffers.md R209). -/
def outRecord (e : OutEntry) : TokenRecord := tokenRecord 0 0 (epnum (outEntry e))

/-- The record an IN completion pushes: {ENDP EPNUM(e), DIR 1, PID IN} (44_endpoint_buffers.md R210). -/
def inRecord (e : InEntry) : TokenRecord := tokenRecord 1 1 (epnum (inEntry e))

/-- The record a SETUP pushes: {ENDP 0, DIR 0, PID SETUP} (44_endpoint_buffers.md R208). -/
def setupRecord : TokenRecord := tokenRecord 2 0 0

/-- epmap: the entry an endpoint address names (30_encoding.md R103). -/
def epmap (a : Byte) : Option Entry :=
  match a.toNat with
  | 0x00 => some .ep0Out
  | 0x80 => some .ep0In
  | 0x81 => some .ep1In
  | 0x02 => some .ep2Out
  | 0x82 => some .ep2In
  | _ => none

/-- Entries 2, 3 and 4, the data endpoints (42_standard_requests.md R171). -/
def dataEntry : Entry → Bool
  | .ep0Out => false
  | .ep0In => false
  | .ep1In => true
  | .ep2Out => true
  | .ep2In => true

/-! ## Buffer areas -/

/-- The areas of BUF: the five endpoint buffers and TX_BUF (20_memory.md R62). -/
inductive Area where
  | buffer (e : Entry)
  | txBuf
  deriving DecidableEq, Repr

/-- The first address of an area (20_memory.md R62). -/
def areaBase (p : Params) : Area → Nat
  | .buffer e => adr p e
  | .txBuf => txBufAdr p

/-- The size of an area (20_memory.md R62). -/
def areaSize (p : Params) : Area → Nat
  | .buffer e => bufCap p e
  | .txBuf => p.ep2Mps

/-! ## Request operands -/

/-- DTYPE = wValue[15:8] (30_encoding.md R102). -/
def descType (value : Word16) : Byte := value.extractLsb' 8 8

/-- DINDEX = wValue[7:0] (30_encoding.md R102). -/
def descIndex (value : Word16) : Byte := value.extractLsb' 0 8

/-- wIndex[7:0]: the interface number or the endpoint address (30_encoding.md R103). -/
def indexLow (index : Word16) : Byte := index.extractLsb' 0 8

/-- The selector of STR<DINDEX> for DINDEX < NUM_STRINGS (42_standard_requests.md R173). -/
def stringSelector (i : Byte) : Option DescSelector :=
  if i.toNat < Config.numStrings then
    match i.toNat with
    | 0 => some .str0
    | 1 => some .str1
    | _ => some .str2
  else none

/-! ## Line coding -/

/-- LC_BYTES: RATE little-endian, then FORMAT, PARITY, DATABITS (30_encoding.md R104). -/
def lcBytes (l : LineCoding) : List Byte :=
  [l.rate.extractLsb' 0 8, l.rate.extractLsb' 8 8, l.rate.extractLsb' 16 8, l.rate.extractLsb' 24 8,
   l.format, l.parity, l.dataBits]

/-- The line coding in the seven bytes of OUTBUF (43_cdc_class_requests.md R192). -/
def lineCodingOf (outBuf : BitVec 56) : LineCoding where
  rate := outBuf.extractLsb' 0 32
  format := outBuf.extractLsb' 32 8
  parity := outBuf.extractLsb' 40 8
  dataBits := outBuf.extractLsb' 48 8

/-- Byte i of OUTBUF, byte 0 in bits 7:0 (10_state.md R32). -/
def outBufByte (outBuf : BitVec 56) (i : Nat) : Byte := outBuf.extractLsb' (8 * i) 8

/-- OUTBUF with byte i replaced. -/
def outBufPut (outBuf : BitVec 56) (i : Nat) (b : Byte) : BitVec 56 :=
  (outBuf &&& ~~~((255#56) <<< (8 * i))) ||| (b.setWidth 56 <<< (8 * i))

/-- OUTBUF[i..] <- bytes (41_control_transfer.md R153). -/
def outBufStore (outBuf : BitVec 56) (i : Nat) : List Byte → BitVec 56
  | [] => outBuf
  | b :: bs => outBufStore (outBufPut outBuf i b) (i + 1) bs

/-! ## Words -/

/-- The ownership bit: 1 = HW, 0 = FW (00_scope.md R14). -/
def Owner.bit : Owner → BitVec 1
  | .fw => 0
  | .hw => 1

/-- BD[e].STAT as its 32-bit word: OWN 0, EN 1, STALL 2, CNT 18:8 (10_state.md R26). -/
def BdStat.word (b : BdStat) : Word32 :=
  (0#13) ++ b.cnt ++ (0#5) ++ BitVec.ofBool b.stall ++ BitVec.ofBool b.en ++ b.own.bit

/-- The result word: COUNT in bits 15:0, BUSY in bit 16, zeros elsewhere (30_encoding.md R96). -/
def resultWord (count : Nat) (busy : Bool) : Word32 :=
  (0#15) ++ BitVec.ofBool busy ++ BitVec.ofNat 16 count

/-- CDC LINE_CODING as one 56-bit value, LC_BYTES byte 0 in bits 7:0 (10_state.md R35, 30_encoding.md R104). -/
def LineCoding.word (l : LineCoding) : BitVec 56 := l.dataBits ++ l.parity ++ l.format ++ l.rate

end Sys2Proof.Machine
end

