-- ==== Sys2Proof/Machine/Flags.lean ====
section
/-! DEFINITION. Every one-bit condition the rules compute from the state (10_state.md R43, R44): the
derived flags, the enabling conditions of the SIE and CAPTURE, and the SIE's answers. -/

namespace Sys2Proof.Machine

/-- RESET_BUSY = SIE_IF_RESET or PEND_RESET (10_state.md R44). -/
def State.resetBusy (s : State) : Bool := s.sieIfReset || s.pendReset

/-- A transport error has been seen and not yet processed (60_exceptions.md R245, R252). -/
def State.errorBusy (s : State) : Bool := s.sieIfError || s.pendError

/-- The SIE's token-status FIFO is full (44_endpoint_buffers.md R214 item 2). -/
def State.fifoFull (s : State) : Bool := decide (s.params.sieFifoDepth ≤ s.sieFifo.length)

/-- full(TOKQ) (60_exceptions.md R246). -/
def State.tokqFull (s : State) : Bool := decide (s.params.tokqDepth ≤ s.tokq.length)

/-- RX_PENDING: BD[3].CNT while EP2OUT is FW-owned in Configured, else 0 (10_state.md R37). -/
def State.rxPending (s : State) : Nat :=
  if s.bd.ep2Out.own = .fw ∧ DevState.ofCode s.devState = some .configured then s.bd.ep2Out.cnt.toNat else 0

/-- ZLP_PEND of a control read: shorter than wLength and a multiple of EP0_MPS (41_control_transfer.md R146). -/
def zlpPending (p : Params) (respLen wLen : Nat) : Bool :=
  decide (respLen < wLen) && respLen % p.ep0Mps == 0

/-- Enabling condition of SIE_SETUP (44_endpoint_buffers.md R208). -/
def State.setupEnabled (s : State) (bytes : List Byte) : Bool :=
  !s.resetBusy && s.bd.ep0Out.en && s.bd.ep0Out.own == .hw && !s.setupLock && !s.fifoFull
  && decide (bytes.length ≤ s.params.ep0Mps)

/-- SIE_SETUP's operand domain, 0 to EP0_MPS bytes: with more it is no step at all (30_encoding.md R101,
60_exceptions.md R251). -/
def State.setupOffered (s : State) (bytes : List Byte) : Bool := decide (bytes.length ≤ s.params.ep0Mps)

/-- The hold of EP0 transactions by SETUP_LOCK (44_endpoint_buffers.md R214 item 3). -/
def State.lockHolds (s : State) (e : Entry) : Bool :=
  match e with
  | .ep0Out => s.setupLock
  | .ep0In => s.setupLock
  | .ep1In => false
  | .ep2Out => false
  | .ep2In => false

/-- The part of the enabling conditions of SIE_OUT and SIE_IN on entry e that reads no packet
(44_endpoint_buffers.md R209, R210). -/
def State.dataEnabled (s : State) (e : Entry) : Bool :=
  !s.resetBusy && (s.bd.get e).en && (s.bd.get e).own == .hw && !(s.bd.get e).stall && !s.fifoFull
  && !s.lockHolds e

/-- Enabling condition of SIE_OUT (44_endpoint_buffers.md R209). -/
def State.outEnabled (s : State) (e : OutEntry) (bytes : List Byte) : Bool :=
  s.dataEnabled (outEntry e) && decide (bytes.length ≤ bufCap s.params (outEntry e))

/-- Enabling condition of SIE_IN (44_endpoint_buffers.md R210). -/
def State.inEnabled (s : State) (e : InEntry) : Bool := s.dataEnabled (inEntry e)

/-- The SIE's answer to a SETUP token, the first row that holds (44_endpoint_buffers.md R211). -/
def State.setupAnswer (s : State) (d : DevState) : Handshake :=
  if s.resetBusy || !d.operational then .ignore
  else if !s.bd.ep0Out.en then .ignore
  else if s.bd.ep0Out.own == .fw || s.setupLock || s.fifoFull then .ignore
  else .ack

/-- The SIE's answer to an OUT or IN token on entry e, the first row that holds (44_endpoint_buffers.md R211). -/
def State.dataAnswer (s : State) (d : DevState) (e : Entry) : Handshake :=
  if s.resetBusy || !d.operational then .ignore
  else if !(s.bd.get e).en then .ignore
  else if (s.bd.get e).stall then .stall
  else if (s.bd.get e).own == .fw || s.fifoFull || s.lockHolds e then .nak
  else .ack

/-- A CAPTURE step is enabled when one of its three branches is (60_exceptions.md R244-R247). -/
def State.captureEnabled (s : State) : Bool :=
  s.sieIfReset || s.sieIfError || (!s.sieFifo.isEmpty && !s.tokqFull)

/-- Steps are enabled at all: no fault is marked (60_exceptions.md R250) and the parameters are admitted
(00_scope.md R13). -/
def State.canStep (s : State) : Bool := s.faulted.isNone && admitted s.params

/-- POLL has an event to process (40_device_state.md R126). -/
def State.pollHasWork (s : State) : Bool := s.pendReset || s.pendError || !s.tokq.isEmpty

/-- A quiescent state: neither CAPTURE nor POLL has work (70_reset_and_hazards.md R287). -/
def State.quiescent (s : State) : Bool :=
  !s.sieIfReset && !s.sieIfError && s.sieFifo.isEmpty && s.tokq.isEmpty && !s.pendReset && !s.pendError

end Sys2Proof.Machine
end

