-- ==== Sys2Proof/Machine/Ops.lean ====
section
/-! DEFINITION. The named operations every meaning is built from: buffer RAM, reads of the state codes,
taking a model fault and a refusal (60_exceptions.md R250, R251), the command port's result, and the
Endpoint Buffer Manager (44_endpoint_buffers.md R200-R207). -/

namespace Sys2Proof.Machine

/-! ## Buffer RAM -/

/-- The canonical form of a memory: addresses strictly rising. -/
abbrev Memory.wf (m : Memory) : Prop := m.Pairwise (fun a b => a.1 < b.1)

/-- The byte at an address; no value if nothing has written it (20_memory.md R63). -/
def Memory.read : Memory → Nat → Option Byte
  | [], _ => none
  | (a, b) :: m, x => if a = x then some b else Memory.read m x

/-- One byte written. -/
def Memory.write : Memory → Nat → Byte → Memory
  | [], x, v => [(x, v)]
  | (a, b) :: m, x, v =>
    if x < a then (x, v) :: (a, b) :: m
    else if x = a then (x, v) :: m
    else (a, b) :: Memory.write m x v

/-- The n bytes from an address on, in address order; no value if one of them has none. -/
def Memory.readBytes (m : Memory) : Nat → Nat → Option (List Byte)
  | _, 0 => some []
  | x, n + 1 =>
    match m.read x, Memory.readBytes m (x + 1) n with
    | some b, some bs => some (b :: bs)
    | _, _ => none

/-- Bytes written from an address on, in address order (20_memory.md R67). -/
def Memory.writeBytes : Memory → Nat → List Byte → Memory
  | m, _, [] => m
  | m, x, b :: bs => Memory.writeBytes (m.write x b) (x + 1) bs

/-- MemRead(BUF, base of the area, n): OUT_OF_BOUNDS past the area (20_memory.md R65), UNWRITTEN_READ on
a byte nothing has written (R63). -/
def memRead (s : State) (area : Area) (n : Nat) : Except Fault (List Byte) :=
  if areaSize s.params area < n then .error .outOfBounds
  else match s.buf.readBytes (areaBase s.params area) n with
    | some bs => .ok bs
    | none => .error .unwrittenRead

/-- MemWrite(BUF, base of the area, len(bytes), bytes). -/
def memWrite (s : State) (area : Area) (bytes : List Byte) : State :=
  { s with buf := s.buf.writeBytes (areaBase s.params area) bytes }

/-! ## State codes -/

/-- Reading DEV_STATE: codes 6 and 7 are BAD_STATE_CODE (60_exceptions.md R250). -/
def readDevState (s : State) : Except Fault DevState :=
  match DevState.ofCode s.devState with
  | some d => .ok d
  | none => .error .badStateCode

/-- Reading CTX.STAGE: codes 5, 6 and 7 are BAD_STATE_CODE (60_exceptions.md R250). -/
def readStage (s : State) : Except Fault Stage :=
  match Stage.ofCode s.ctx.stage with
  | some g => .ok g
  | none => .error .badStateCode

/-! ## Faults, refusals and results -/

/-- fault(name): FAULTED takes the name if it is clear; nothing else changes (60_exceptions.md R250; log 4). -/
def takeFault (f : Fault) (s : State) : State :=
  { s with faulted := match s.faulted with | some g => some g | none => some f }

/-- The outcome of a step on s: its effect, or the fault it met with no other effect (60_exceptions.md R250). -/
def commit (s : State) (r : Except Fault State) : Host.Outcome State Fault Refusal :=
  match r with
  | .ok t => .next t
  | .error f => .next (takeFault f s)

/-- refuse(name): REFUSED takes the name if it is clear, no result is returned, and no block state
changes (60_exceptions.md R251; log 5). -/
def refuseCommand (r : CommandRefusal) (s : State) : State :=
  { s with
    refused := match s.refused with | some q => some q | none => some r
    result := none }

/-- A command's result handed to its caller (30_encoding.md R96). -/
def setResult (count : Nat) (busy : Bool) (bytes : List Byte) (s : State) : State :=
  { s with result := some { word := resultWord count busy, bytes := bytes } }

/-! ## Endpoint Buffer Manager -/

/-- BD[e].STAT written. -/
def setBd (e : Entry) (b : BdStat) (s : State) : State := { s with bd := s.bd.set e b }

/-- ARM_RX(e): nothing on an entry the SIE owns or that is disabled; otherwise CNT takes the capacity and
OWN goes to the SIE (44_endpoint_buffers.md R201). -/
def armRx (e : Entry) (s : State) : State :=
  if (s.bd.get e).own = .hw ∨ (s.bd.get e).en = false then s
  else setBd e { s.bd.get e with cnt := BitVec.ofNat 11 (bufCap s.params e), own := .hw } s

/-- ARM_TX finds the entry ready: the block owns it and it is enabled (44_endpoint_buffers.md R202). -/
def txReady (e : Entry) (s : State) : Bool := (s.bd.get e).own == .fw && (s.bd.get e).en

/-- The COUNT of ARM_TX(e, data, len): min(len, BUF_CAP(e)) if it arms, else 0 (44_endpoint_buffers.md R202). -/
def armTxCount (e : Entry) (data : List Byte) (s : State) : Nat :=
  if txReady e s then min data.length (bufCap s.params e) else 0

/-- The BUSY of ARM_TX: the SIE owns the entry (44_endpoint_buffers.md R202). -/
def armTxBusy (e : Entry) (s : State) : Bool := (s.bd.get e).own == .hw

/-- ARM_TX(e, data, len): on a ready entry, the first min(len, BUF_CAP(e)) bytes go into its buffer, CNT
takes their number and OWN goes to the SIE; otherwise nothing (44_endpoint_buffers.md R202, R203). -/
def armTx (e : Entry) (data : List Byte) (s : State) : State :=
  if txReady e s then
    setBd e { s.bd.get e with cnt := BitVec.ofNat 11 (armTxCount e data s), own := .hw }
      (memWrite s (.buffer e) (data.take (bufCap s.params e)))
  else s

/-- RECLAIM(e): OWN to the block, CNT 0 (44_endpoint_buffers.md R206). -/
def reclaim (e : Entry) (s : State) : State := setBd e { s.bd.get e with own := .fw, cnt := 0 } s

/-- DISABLE(e): STAT all zero (44_endpoint_buffers.md R207). -/
def disable (e : Entry) (s : State) : State := setBd e { own := .fw, en := false, stall := false, cnt := 0 } s

/-- ENABLE(e): enabled, owned by the block (44_endpoint_buffers.md R207). -/
def enable (e : Entry) (s : State) : State := setBd e { own := .fw, en := true, stall := false, cnt := 0 } s

/-- BD[0].STALL and BD[1].STALL written (41_control_transfer.md R141, R147). -/
def setEp0Stall (v : Bool) (s : State) : State :=
  { s with bd := { s.bd with ep0Out := { s.bd.ep0Out with stall := v }, ep0In := { s.bd.ep0In with stall := v } } }

/-- CTX written. -/
def setCtx (c : Ctx) (s : State) : State := { s with ctx := c }

/-! ## The bulk-transfer sequencer's operations -/

/-- TX_PENDING and TX_LEN cleared. -/
def clearTx (s : State) : State := { s with txPending := false, txLen := 0 }

/-- READ_AVAILABLE(max_len): the state after it and the bytes copied to dest, whose number is its COUNT
(45_bulk_sequencer.md R220, R221). -/
def readAvailable (maxLen : Nat) (s : State) : Except Fault (State × List Byte) := do
  let d ← readDevState s
  if d ≠ .configured ∨ s.bd.ep2Out.own = .hw then
    .ok (s, [])
  else
    let dest ← memRead s (.buffer .ep2Out) (min maxLen s.bd.ep2Out.cnt.toNat)
    .ok (armRx .ep2Out s, dest)

/-- WRITE_BYTES(data, len): the state after it and its COUNT (45_bulk_sequencer.md R220, R222). -/
def writeBytes (data : List Byte) (s : State) : Except Fault (State × Nat) := do
  let d ← readDevState s
  if d ≠ .configured ∨ s.txPending = true ∨ data = [] then
    .ok (s, 0)
  else
    let n := min data.length s.params.ep2Mps
    .ok ({ memWrite s .txBuf (data.take n) with txLen := BitVec.ofNat 7 n, txPending := true }, n)

/-- SERVICE_TX: the staged packet is armed on EP2IN if the previous one has gone (45_bulk_sequencer.md R220, R223). -/
def serviceTx (s : State) : Except Fault State := do
  let d ← readDevState s
  if d = .configured ∧ s.txPending = true ∧ s.bd.ep2In.own = .fw then
    let data ← memRead s .txBuf s.txLen.toNat
    .ok { armTx .ep2In data s with txPending := false }
  else
    .ok s

end Sys2Proof.Machine
end

