-- ==== Sys2Proof/Machine/Application.lean ====
section
/-! DEFINITION. The application command layer, the block's collaborator (46_application.md): its command
table and the meanings of the APPBYTE rows. -/

namespace Sys2Proof.Machine

/-- A command's mutation done, its one-byte response staged with WRITE_BYTES (46_application.md R232). -/
def respond (led : Bool) (response : Byte) (s : State) : Except Fault State := do
  let (t, _) ← writeBytes [response] { s with led := led }
  .ok t

/-- 'O': LED on, response 'N' (46_application.md R231). -/
def appLedOn (s : State) : Except Fault State := respond true 0x4E s

/-- 'F': LED off, response 'F' (46_application.md R231). -/
def appLedOff (s : State) : Except Fault State := respond false 0x46 s

/-- 'S': response '1' or '0' by LED (46_application.md R231). -/
def appLedStatus (s : State) : Except Fault State := respond s.led (if s.led then 0x31 else 0x30) s

/-- Any other byte: no mutation, no response (46_application.md R231, R234, R235). -/
def appUnrecognised (s : State) : Except Fault State := .ok s

/-- The row of the command table a byte falls in (46_application.md R231). -/
def appByte (b : Byte) (s : State) : Except Fault State :=
  match appByteKind b with
  | .ledOn => appLedOn s
  | .ledOff => appLedOff s
  | .ledStatus => appLedStatus s
  | .unrecognised => appUnrecognised s

/-- APP_CMD: held while a reply is staged; otherwise one packet is read and its first byte is one command
(46_application.md R232). -/
def appStep (s : State) : Except Fault State := do
  if s.txPending then
    .ok s
  else
    let (t, d) ← readAvailable s.params.appReadMax s
    match d with
    | [] => .ok t
    | b :: _ => appByte b t

/-! ## Meanings -/

/-- APP_LED_ON (46_application.md R231). -/
def execAppLedOn (s : State) : Host.Outcome State Fault Refusal := commit s (appLedOn s)

/-- APP_LED_OFF (46_application.md R231). -/
def execAppLedOff (s : State) : Host.Outcome State Fault Refusal := commit s (appLedOff s)

/-- APP_LED_STATUS (46_application.md R231). -/
def execAppLedStatus (s : State) : Host.Outcome State Fault Refusal := commit s (appLedStatus s)

/-- APP_UNRECOGNISED (46_application.md R231, R234). -/
def execAppUnrecognised (s : State) : Host.Outcome State Fault Refusal := commit s (appUnrecognised s)

end Sys2Proof.Machine
end

