-- ==== Sys2Proof/Machine/DeviceState.lean ====
section
/-! DEFINITION. The Device State Machine's effects (40_device_state.md): ATTACH, POWER, DETACH, bus reset
processing, and what SET_ADDRESS and SET_CONFIGURATION do when their status stage completes. -/

namespace Sys2Proof.Machine

/-- ATTACH: Detached to Attached, nothing elsewhere (40_device_state.md R121). -/
def attachDevice (s : State) : Except Fault State := do
  let d ← readDevState s
  .ok (if d = .detached then { s with devState := DevState.code .attached } else s)

/-- POWER: Attached to Powered, nothing elsewhere (40_device_state.md R122). -/
def powerDevice (s : State) : Except Fault State := do
  let d ← readDevState s
  .ok (if d = .attached then { s with devState := DevState.code .powered } else s)

/-- DETACH: every field named in R123 to its value there; LINE_CODING, BUF and LED stay (40_device_state.md R123). -/
def detachDevice (s : State) : State :=
  { s with
    devState := DevState.code .detached
    devAddr := 0
    activeCfg := 0
    bd := { ep0Out := BdStat.zero, ep0In := BdStat.zero, ep1In := BdStat.zero, ep2Out := BdStat.zero, ep2In := BdStat.zero }
    ctx := Ctx.idle
    stallCause := .none
    txPending := false
    txLen := 0
    pendReset := false
    pendError := false
    tokq := []
    sieIfReset := false
    sieIfError := false
    sieFifo := []
    setupLock := false }

/-- Bus reset processing, on_bus_reset() (40_device_state.md R125). -/
def busReset (s : State) : State :=
  { s with
    devState := DevState.code .default
    devAddr := 0
    activeCfg := 0
    ctx := Ctx.idle
    stallCause := .none
    bd :=
      { ep0Out := { own := .hw, en := true, stall := false, cnt := BitVec.ofNat 11 s.params.ep0Mps }
        ep0In := { own := .fw, en := true, stall := false, cnt := 0 }
        ep1In := BdStat.zero
        ep2Out := BdStat.zero
        ep2In := BdStat.zero }
    txPending := false
    txLen := 0
    tokq := []
    pendError := false
    setupLock := false
    pendReset := false }

/-- Address apply: DEV_ADDR takes the address, DEV_STATE is Default for 0 and Address otherwise (40_device_state.md R129). -/
def addressApply (a : BitVec 7) (s : State) : State :=
  { s with
    devAddr := a
    devState := if a = 0 then DevState.code .default else DevState.code .address }

/-- Deconfigure: Address, no configuration, entries 2 to 4 disabled, nothing staged (40_device_state.md R130). -/
def deconfigure (s : State) : State :=
  clearTx (disable .ep2In (disable .ep2Out (disable .ep1In
    { s with activeCfg := 0, devState := DevState.code .address })))

/-- Configure: Configured with CFG_VALUE, entries 2 to 4 fresh and enabled, EP2OUT armed, nothing staged
(40_device_state.md R131). -/
def configure (s : State) : State :=
  clearTx (armRx .ep2Out
    (enable .ep2In (disable .ep2In
      (enable .ep2Out (disable .ep2Out
        (enable .ep1In (disable .ep1In
          { s with activeCfg := s.params.cfgValue, devState := DevState.code .configured })))))))

end Sys2Proof.Machine
end

