-- ==== Sys2Proof/Machine/ControlTransfer.lean ====
section
/-! DEFINITION. The Control Transfer Handler (41_control_transfer.md): the results of a request and how
each is applied, the protocol stall, the SETUP stage around a request, and the data and status stages. -/

namespace Sys2Proof.Machine

/-- The four results of a request rule (41_control_transfer.md R144). -/
inductive RequestResult where
  | stall (cause : StallCause)
  | noData (action : Action)
  | dataIn (bytes : List Byte)
  | dataOut (n : BitVec 16) (action : Action)
  deriving DecidableEq, Repr

/-- Protocol stall: both EP0 entries stalled, EP0IN reclaimed, CTX Idle, the cause recorded, EP0OUT armed
(41_control_transfer.md R147). -/
def protocolStall (cause : StallCause) (s : State) : State :=
  armRx .ep0Out { setCtx Ctx.idle (reclaim .ep0In (setEp0Stall true s)) with stallCause := cause }

/-- NODATA(action): the action waits for the status stage, whose zero-length packet is armed on EP0IN
(41_control_transfer.md R145). -/
def applyNoData (action : Action) (s : State) : State :=
  armTx .ep0In [] (setCtx { s.ctx with action := action, stage := Stage.code .statusIn } s)

/-- The bytes CTX.RESP[OFF .. OFF+k-1]; past the end of RESP is OUT_OF_BOUNDS (41_control_transfer.md R149; log 17). -/
def respSlice (c : Ctx) (k : Nat) : Except Fault (List Byte) :=
  if c.off.toNat + k ≤ c.resp.length then .ok ((c.resp.drop c.off.toNat).take k) else .error .outOfBounds

/-- arm_next_in() and whether it answered ARMED (41_control_transfer.md R149). -/
def armNextIn (s : State) : Except Fault (State × Bool) := do
  if 0 < s.ctx.remain.toNat then
    let k := min s.params.ep0Mps s.ctx.remain.toNat
    let data ← respSlice s.ctx k
    let t := armTx .ep0In data s
    .ok (setCtx { t.ctx with off := t.ctx.off + BitVec.ofNat 16 k, remain := t.ctx.remain - BitVec.ofNat 16 k } t, true)
  else if s.ctx.zlpPend then
    let t := armTx .ep0In [] s
    .ok (setCtx { t.ctx with zlpPend := false } t, true)
  else
    .ok (s, false)

/-- DATAIN(bytes): cut to wLength and sent packet by packet from the first one on; with wLength 0 there is
no data stage (41_control_transfer.md R146). -/
def applyDataIn (bytes : List Byte) (s : State) : Except Fault State := do
  let wLen := (wLength s.ctx.setup).toNat
  if wLen = 0 then
    .ok (applyNoData .noAction s)
  else
    let resp := bytes.take wLen
    let c := { s.ctx with
      resp := resp
      off := 0
      remain := BitVec.ofNat 16 resp.length
      zlpPend := zlpPending s.params resp.length wLen
      stage := Stage.code .dataIn }
    let (t, _) ← armNextIn (setCtx c s)
    .ok t

/-- DATAOUT(n, action): n bytes are to come from the host (41_control_transfer.md R148). -/
def applyDataOut (n : BitVec 16) (action : Action) (s : State) : State :=
  setCtx { s.ctx with stage := Stage.code .dataOut, remain := n, outCnt := 0, action := action } s

/-- apply_result(r) (41_control_transfer.md R144). -/
def applyResult (r : RequestResult) (s : State) : Except Fault State :=
  match r with
  | .stall cause => .ok (protocolStall cause s)
  | .noData action => .ok (applyNoData action s)
  | .dataIn bytes => applyDataIn bytes s
  | .dataOut n action => .ok (applyDataOut n action s)

/-! ## The SETUP stage -/

/-- The abort of whatever transfer was in progress: CTX Idle, EP0IN reclaimed, both EP0 stalls and the
stall cause cleared (41_control_transfer.md R141). -/
def abortTransfer (s : State) : State :=
  { setEp0Stall false (reclaim .ep0In (setCtx Ctx.idle s)) with stallCause := .none }

/-- The end of SETUP processing: EP0OUT armed, SETUP_LOCK released (41_control_transfer.md R141). -/
def endSetup (s : State) : State := { armRx .ep0Out s with setupLock := false }

/-- CTX.SETUP <- S and CTX.DIR <- S[7] (41_control_transfer.md R141). -/
def latchSetup (S : SetupWord) (s : State) : State :=
  setCtx { s.ctx with setup := S, dir := direction S == 1 } s

/-- The SETUP stage for an 8-byte packet S whose request rule is `rule` (41_control_transfer.md R141, R143). -/
def setupStage (S : SetupWord) (rule : State → Except Fault RequestResult) (s : State) : Except Fault State := do
  let s1 := latchSetup S (abortTransfer s)
  let r ← rule s1
  let s2 ← applyResult r s1
  .ok (endSetup s2)

/-- The SETUP stage for a packet that is not 8 bytes: stall MALFORMED (41_control_transfer.md R141, R142). -/
def malformedSetup (s : State) : State := endSetup (protocolStall .malformed (abortTransfer s))

/-- forward(S): the answer of the application request hook as a result (41_control_transfer.md R159). -/
def forward (S : SetupWord) (s : State) : RequestResult :=
  match appHook s.params S with
  | .unhandled => .stall .hookUnhandled
  | .noData => if wLength S = 0 then .noData .noAction else .stall .hookUnhandled
  | .dataIn bytes => if direction S = 1 then .dataIn bytes else .stall .hookUnhandled

/-! ## Data and status stages -/

/-- Line-coding apply: the seven bytes of OUTBUF (43_cdc_class_requests.md R192). -/
def lineCodingApply (s : State) : State := { s with lineCoding := lineCodingOf s.ctx.outBuf }

/-- apply_action(a) (41_control_transfer.md R158). -/
def applyAction (a : Action) (s : State) : State :=
  match a with
  | .noAction => s
  | .setAddress a => addressApply a s
  | .setConfig c => if c = 0 then deconfigure s else configure s
  | .setLineCoding => lineCodingApply s

/-- EP0IN completion, by stage (41_control_transfer.md R150-R152). -/
def inCompletion (s : State) : Except Fault State := do
  match ← readStage s with
  | .dataIn =>
    let (t, armed) ← armNextIn s
    .ok (if armed then t else setCtx { t.ctx with stage := Stage.code .statusOut } t)
  | .statusIn => .ok (setCtx Ctx.idle (applyAction s.ctx.action s))
  | .idle => .ok s
  | .dataOut => .ok s
  | .statusOut => .ok s

/-- Bytes of the OUT data stage into OUTBUF at OUTCNT; past its seven bytes is OUT_OF_BOUNDS
(41_control_transfer.md R153; log 17). -/
def storeOutData (c : Ctx) (data : List Byte) : Except Fault Ctx :=
  if c.outCnt.toNat + data.length ≤ 7 then
    .ok { c with
      outBuf := outBufStore c.outBuf c.outCnt.toNat data
      outCnt := c.outCnt + BitVec.ofNat 3 data.length
      remain := c.remain - BitVec.ofNat 16 data.length }
  else .error .outOfBounds

/-- EP0OUT OUT completion in DataOut (41_control_transfer.md R153). -/
def outDataCompletion (s : State) : Except Fault State := do
  let n := s.bd.ep0Out.cnt.toNat
  let data ← memRead s (.buffer .ep0Out) (min n s.ctx.remain.toNat)
  let c ← storeOutData s.ctx data
  if c.remain.toNat = 0 then
    .ok (armRx .ep0Out (armTx .ep0In [] (setCtx { c with stage := Stage.code .statusIn } s)))
  else if n < s.params.ep0Mps then
    .ok (protocolStall .shortData (setCtx c s))
  else
    .ok (armRx .ep0Out (setCtx c s))

/-- EP0OUT OUT completion, by stage (41_control_transfer.md R153-R156). -/
def outCompletion (s : State) : Except Fault State := do
  match ← readStage s with
  | .dataOut => outDataCompletion s
  | .statusOut => .ok (armRx .ep0Out (setCtx Ctx.idle s))
  | .dataIn => .ok (armRx .ep0Out (setCtx Ctx.idle (reclaim .ep0In s)))
  | .idle => .ok (armRx .ep0Out s)
  | .statusIn => .ok (armRx .ep0Out s)

end Sys2Proof.Machine
end

