-- ==== Sys2Proof/Machine/CdcRequests.lean ====
section
/-! DEFINITION. The CDC class requests, the requests forwarded to the application hook
(43_cdc_class_requests.md) and the reserved type (41_control_transfer.md R160): rules and meanings. -/

namespace Sys2Proof.Machine

/-- wIndex[7:0] = COMM_IF: the request is a CDC request of this block (43_cdc_class_requests.md R190). -/
def forCommInterface (p : Params) (S : SetupWord) : Bool := indexLow (wIndex S) == p.commIf

/-- SET_LINE_CODING (43_cdc_class_requests.md R191). -/
def setLineCodingRule (S : SetupWord) (s : State) : Except Fault RequestResult :=
  .ok (if !forCommInterface s.params S then forward S s
    else if wLength S ≠ 7 then .stall .malformed
    else .dataOut 7 .setLineCoding)

/-- GET_LINE_CODING (43_cdc_class_requests.md R193). -/
def getLineCodingRule (S : SetupWord) (s : State) : Except Fault RequestResult :=
  .ok (if !forCommInterface s.params S then forward S s else .dataIn (lcBytes s.lineCoding))

/-- SET_CONTROL_LINE_STATE (43_cdc_class_requests.md R194). -/
def setControlLineStateRule (S : SetupWord) (s : State) : Except Fault RequestResult :=
  .ok (if !forCommInterface s.params S then forward S s
    else if wLength S ≠ 0 then .stall .malformed
    else .noData .noAction)

/-- CLASS_OTHER (43_cdc_class_requests.md R195). -/
def classOtherRule (S : SetupWord) (s : State) : Except Fault RequestResult := .ok (forward S s)

/-- VENDOR (43_cdc_class_requests.md R196). -/
def vendorRule (S : SetupWord) (s : State) : Except Fault RequestResult := .ok (forward S s)

/-- RESERVED_TYPE (41_control_transfer.md R160). -/
def reservedTypeRule : Except Fault RequestResult := .ok (.stall .reservedType)

/-! ## Meanings -/

/-- SET_LINE_CODING (43_cdc_class_requests.md R191). -/
def execSetLineCoding (v x l : Word16) (s : State) : Host.Outcome State Fault Refusal :=
  let S := setupWord (requestType 0 1 1) 0x20 v x l
  commit s (setupStage S (setLineCodingRule S) s)

/-- GET_LINE_CODING (43_cdc_class_requests.md R193). -/
def execGetLineCoding (v x l : Word16) (s : State) : Host.Outcome State Fault Refusal :=
  let S := setupWord (requestType 1 1 1) 0x21 v x l
  commit s (setupStage S (getLineCodingRule S) s)

/-- SET_CONTROL_LINE_STATE (43_cdc_class_requests.md R194). -/
def execSetControlLineState (v x l : Word16) (s : State) : Host.Outcome State Fault Refusal :=
  let S := setupWord (requestType 0 1 1) 0x22 v x l
  commit s (setupStage S (setControlLineStateRule S) s)

/-- CLASS_OTHER (43_cdc_class_requests.md R195). -/
def execClassOther (dir : BitVec 1) (recip : BitVec 5) (req : Byte) (v x l : Word16) (s : State) :
    Host.Outcome State Fault Refusal :=
  let S := setupWord (requestType dir 1 recip) req v x l
  commit s (setupStage S (classOtherRule S) s)

/-- VENDOR (43_cdc_class_requests.md R196). -/
def execVendor (dir : BitVec 1) (recip : BitVec 5) (req : Byte) (v x l : Word16) (s : State) :
    Host.Outcome State Fault Refusal :=
  let S := setupWord (requestType dir 2 recip) req v x l
  commit s (setupStage S (vendorRule S) s)

/-- RESERVED_TYPE (41_control_transfer.md R160). -/
def execReservedType (dir : BitVec 1) (recip : BitVec 5) (req : Byte) (v x l : Word16) (s : State) :
    Host.Outcome State Fault Refusal :=
  let S := setupWord (requestType dir 3 recip) req v x l
  commit s (setupStage S (fun _ => reservedTypeRule) s)

end Sys2Proof.Machine
end

