-- ==== Sys2Proof/Machine/StandardRequests.lean ====
section
/-! DEFINITION. The standard requests (42_standard_requests.md): one rule f(S) -> result each, checks in the
listed order (R170), and the meaning of each SETUP row: the SETUP stage for that packet. -/

namespace Sys2Proof.Machine

/-- wIndex[7:0] names one of the two interfaces (42_standard_requests.md R171, R176, R177). -/
def knownInterface (p : Params) (index : Word16) : Bool := indexLow index == p.commIf || indexLow index == p.dataIf

/-- GET_STATUS of an interface (42_standard_requests.md R171). -/
def interfaceStatus (p : Params) (d : DevState) (index : Word16) : RequestResult :=
  if d ≠ .configured then .stall .badState
  else if !knownInterface p index then .stall .outOfRange
  else .dataIn [0x00, 0x00]

/-- GET_STATUS of an endpoint (42_standard_requests.md R171). -/
def endpointStatus (s : State) (d : DevState) (index : Word16) : RequestResult :=
  match epmap (indexLow index) with
  | none => .stall .outOfRange
  | some e =>
    if dataEntry e ∧ d ≠ .configured then .stall .badState
    else .dataIn [(BitVec.ofBool (s.bd.get e).stall).setWidth 8, 0x00]

/-- GET_STATUS (42_standard_requests.md R171). -/
def getStatusRule (S : SetupWord) (s : State) : Except Fault RequestResult :=
  match (recipient S).toNat with
  | 0 => .ok (.dataIn [0x00, 0x00])
  | 1 => do .ok (interfaceStatus s.params (← readDevState s) (wIndex S))
  | 2 => do .ok (endpointStatus s (← readDevState s) (wIndex S))
  | _ => .ok (.stall .unsupported)

/-- SET_ADDRESS (42_standard_requests.md R172). -/
def setAddressRule (S : SetupWord) (s : State) : Except Fault RequestResult :=
  if wLength S ≠ 0 then .ok (.stall .malformed)
  else if 127 < (wValue S).toNat then .ok (.stall .outOfRange)
  else do
    let d ← readDevState s
    .ok (if d = .default ∨ d = .address then .noData (.setAddress ((wValue S).extractLsb' 0 7)) else .stall .badState)

/-- The descriptor a DTYPE and a DINDEX name, if it is served (42_standard_requests.md R173). -/
def servedDescriptor (value : Word16) : Option DescSelector :=
  match (descType value).toNat with
  | 0x01 => if descIndex value = 0 then some .dev else none
  | 0x02 => if descIndex value = 0 then some .cfg else none
  | 0x03 => stringSelector (descIndex value)
  | _ => none

/-- How many bytes GET_DESCRIPTOR reads of a descriptor: 18, 67, or the string's length (42_standard_requests.md R173). -/
def servedLength (p : Params) : DescSelector → Nat
  | .dev => Config.devDescLen
  | .cfg => Config.cfgTotalLen
  | .str0 => p.desc.str0.length
  | .str1 => p.desc.str1.length
  | .str2 => p.desc.str2.length

/-- GET_DESCRIPTOR (42_standard_requests.md R173). -/
def getDescriptorRule (S : SetupWord) (s : State) : Except Fault RequestResult :=
  match servedDescriptor (wValue S) with
  | some d => do .ok (.dataIn (← descRead s.params d 0 (servedLength s.params d)))
  | none => .ok (.stall .outOfRange)

/-- GET_CONFIGURATION (42_standard_requests.md R174). -/
def getConfigurationRule (s : State) : Except Fault RequestResult := .ok (.dataIn [s.activeCfg])

/-- SET_CONFIGURATION (42_standard_requests.md R175). -/
def setConfigurationRule (S : SetupWord) (s : State) : Except Fault RequestResult :=
  let c : BitVec 8 := (wValue S).extractLsb' 0 8
  if wLength S ≠ 0 then .ok (.stall .malformed)
  else if (wValue S).extractLsb' 8 8 ≠ 0 then .ok (.stall .outOfRange)
  else do
    let d ← readDevState s
    .ok (if d ≠ .address ∧ d ≠ .configured then .stall .badState
      else if c ≠ 0 ∧ c ≠ s.params.cfgValue then .stall .outOfRange
      else .noData (.setConfig c))

/-- GET_INTERFACE (42_standard_requests.md R176). -/
def getInterfaceRule (S : SetupWord) (s : State) : Except Fault RequestResult := do
  let d ← readDevState s
  .ok (if d ≠ .configured then .stall .badState
    else if !knownInterface s.params (wIndex S) then .stall .outOfRange
    else .dataIn [0x00])

/-- SET_INTERFACE (42_standard_requests.md R177). -/
def setInterfaceRule (S : SetupWord) (s : State) : Except Fault RequestResult :=
  if wLength S ≠ 0 then .ok (.stall .malformed)
  else do
    let d ← readDevState s
    .ok (if d ≠ .configured then .stall .badState
      else if !knownInterface s.params (wIndex S) then .stall .outOfRange
      else if wValue S ≠ 0 then .stall .outOfRange
      else .noData .noAction)

/-- Every other standard request (42_standard_requests.md R178). -/
def stdUnsupportedRule : Except Fault RequestResult := .ok (.stall .unsupported)

/-! ## Meanings -/

/-- GET_STATUS (42_standard_requests.md R171). -/
def execGetStatus (recip : BitVec 5) (v x l : Word16) (s : State) : Host.Outcome State Fault Refusal :=
  let S := setupWord (requestType 1 0 recip) 0x00 v x l
  commit s (setupStage S (getStatusRule S) s)

/-- SET_ADDRESS (42_standard_requests.md R172). -/
def execSetAddress (v x l : Word16) (s : State) : Host.Outcome State Fault Refusal :=
  let S := setupWord (requestType 0 0 0) 0x05 v x l
  commit s (setupStage S (setAddressRule S) s)

/-- GET_DESCRIPTOR (42_standard_requests.md R173). -/
def execGetDescriptor (v x l : Word16) (s : State) : Host.Outcome State Fault Refusal :=
  let S := setupWord (requestType 1 0 0) 0x06 v x l
  commit s (setupStage S (getDescriptorRule S) s)

/-- GET_CONFIGURATION (42_standard_requests.md R174). -/
def execGetConfiguration (v x l : Word16) (s : State) : Host.Outcome State Fault Refusal :=
  let S := setupWord (requestType 1 0 0) 0x08 v x l
  commit s (setupStage S getConfigurationRule s)

/-- SET_CONFIGURATION (42_standard_requests.md R175). -/
def execSetConfiguration (v x l : Word16) (s : State) : Host.Outcome State Fault Refusal :=
  let S := setupWord (requestType 0 0 0) 0x09 v x l
  commit s (setupStage S (setConfigurationRule S) s)

/-- GET_INTERFACE (42_standard_requests.md R176). -/
def execGetInterface (v x l : Word16) (s : State) : Host.Outcome State Fault Refusal :=
  let S := setupWord (requestType 1 0 1) 0x0A v x l
  commit s (setupStage S (getInterfaceRule S) s)

/-- SET_INTERFACE (42_standard_requests.md R177). -/
def execSetInterface (v x l : Word16) (s : State) : Host.Outcome State Fault Refusal :=
  let S := setupWord (requestType 0 0 1) 0x0B v x l
  commit s (setupStage S (setInterfaceRule S) s)

/-- STD_UNSUPPORTED (42_standard_requests.md R178). -/
def execStdUnsupported (dir : BitVec 1) (recip : BitVec 5) (req : Byte) (v x l : Word16) (s : State) :
    Host.Outcome State Fault Refusal :=
  let S := setupWord (requestType dir 0 recip) req v x l
  commit s (setupStage S (fun _ => stdUnsupportedRule) s)

end Sys2Proof.Machine
end

