-- ==== Sys2Proof/Machine/Tokens.lean ====
section
/-! DEFINITION. Token dispatch (40_device_state.md R128): what POLL does with each record, the dispatch of
a SETUP packet to its request rule (41_control_transfer.md R143), and the meanings of the TOKEN rows. -/

namespace Sys2Proof.Machine

/-- dispatch(S): the rule of the first matching row of 30_encoding.md R93 (41_control_transfer.md R143). -/
def requestRule (S : SetupWord) (s : State) : Except Fault RequestResult :=
  match requestKind (requestKey S) with
  | .getStatus => getStatusRule S s
  | .setAddress => setAddressRule S s
  | .getDescriptor => getDescriptorRule S s
  | .getConfiguration => getConfigurationRule s
  | .setConfiguration => setConfigurationRule S s
  | .getInterface => getInterfaceRule S s
  | .setInterface => setInterfaceRule S s
  | .stdUnsupported => stdUnsupportedRule
  | .setLineCoding => setLineCodingRule S s
  | .getLineCoding => getLineCodingRule S s
  | .setControlLineState => setControlLineStateRule S s
  | .classOther => classOtherRule S s
  | .vendor => vendorRule S s
  | .reservedType => reservedTypeRule

/-- STALE_TOKEN: a record reached POLL outside the operational states (40_device_state.md R128). -/
def checkOperational (s : State) : Except Fault Unit := do
  let d ← readDevState s
  if d.operational then .ok () else .error .staleToken

/-- STALE_TOKEN: a record for an EP0 entry the SIE owns (40_device_state.md R128). -/
def checkOwned (e : Entry) (s : State) : Except Fault Unit :=
  if (s.bd.get e).own = .hw then .error .staleToken else .ok ()

/-- EP0OUT, PID SETUP: the SETUP stage on the packet in the EP0OUT buffer (41_control_transfer.md R141, R142). -/
def tokenEp0Setup (s : State) : Except Fault State := do
  checkOperational s
  checkOwned .ep0Out s
  if s.bd.ep0Out.cnt ≠ 8 then
    .ok (malformedSetup s)
  else
    let bytes ← memRead s (.buffer .ep0Out) 8
    let S := BitVec.ofNat 64 (littleEndian bytes)
    setupStage S (requestRule S) s

/-- EP0OUT, PID OUT: an OUT completion of the CTH (40_device_state.md R128, 41_control_transfer.md R153-R156). -/
def tokenEp0Out (s : State) : Except Fault State := do
  checkOperational s
  checkOwned .ep0Out s
  outCompletion s

/-- EP0IN: an IN completion of the CTH (40_device_state.md R128, 41_control_transfer.md R150-R152). -/
def tokenEp0In (s : State) : Except Fault State := do
  checkOperational s
  checkOwned .ep0In s
  inCompletion s

/-- EP1IN: no state change (40_device_state.md R128). -/
def tokenEp1In (s : State) : Except Fault State := do
  checkOperational s
  .ok s

/-- EP2OUT: no state change (40_device_state.md R128). -/
def tokenEp2Out (s : State) : Except Fault State := do
  checkOperational s
  .ok s

/-- EP2IN: no state change (40_device_state.md R128). -/
def tokenEp2In (s : State) : Except Fault State := do
  checkOperational s
  .ok s

/-- dispatch_token(t) (40_device_state.md R128). -/
def dispatchToken (t : TokenRecord) (s : State) : Except Fault State :=
  match tokenKind t with
  | none => .error .badToken
  | some .ep0Setup => tokenEp0Setup s
  | some .ep0Out => tokenEp0Out s
  | some .ep0In => tokenEp0In s
  | some .ep1In => tokenEp1In s
  | some .ep2Out => tokenEp2Out s
  | some .ep2In => tokenEp2In s

/-! ## Meanings -/

/-- TOKEN_EP0_SETUP (41_control_transfer.md R141). -/
def execTokenEp0Setup (s : State) : Host.Outcome State Fault Refusal := commit s (tokenEp0Setup s)

/-- TOKEN_EP0_OUT (41_control_transfer.md R153-R156). -/
def execTokenEp0Out (s : State) : Host.Outcome State Fault Refusal := commit s (tokenEp0Out s)

/-- TOKEN_EP0_IN (41_control_transfer.md R150-R152). -/
def execTokenEp0In (s : State) : Host.Outcome State Fault Refusal := commit s (tokenEp0In s)

/-- TOKEN_EP1_IN (40_device_state.md R128). -/
def execTokenEp1In (s : State) : Host.Outcome State Fault Refusal := commit s (tokenEp1In s)

/-- TOKEN_EP2_OUT (40_device_state.md R128). -/
def execTokenEp2Out (s : State) : Host.Outcome State Fault Refusal := commit s (tokenEp2Out s)

/-- TOKEN_EP2_IN (40_device_state.md R128). -/
def execTokenEp2In (s : State) : Host.Outcome State Fault Refusal := commit s (tokenEp2In s)

end Sys2Proof.Machine
end

