-- ==== Sys2Proof/Machine/Commands.lean ====
section
/-! DEFINITION. The meanings of the CMD rows: POLL (40_device_state.md R126), ATTACH (R121), ARM_RX and
ARM_TX on the command port (44_endpoint_buffers.md R201, R202, R205), the bulk-transfer sequencer
(45_bulk_sequencer.md), APP_CMD (46_application.md R232) and the reserved operations (30_encoding.md R98). -/

namespace Sys2Proof.Machine

/-- One POLL step: a reset before an error before a token, one event (40_device_state.md R126, R127). -/
def pollStep (s : State) : Except Fault State :=
  if s.pendReset then .ok (busReset s)
  else if s.pendError then .ok { s with pendError := false }
  else match s.tokq with
    | t :: rest => dispatchToken t { s with tokq := rest }
    | [] => .ok s

/-- A command with no operands whose result word is 0 (30_encoding.md R97). -/
def plainResult (r : Except Fault State) : Except Fault State := do
  let t ← r
  .ok (setResult 0 false [] t)

/-- Which entries ARM_RX may name on the port (44_endpoint_buffers.md R205). -/
def portArmRx : Entry → Option CommandRefusal
  | .ep0Out => some .ep0Reserved
  | .ep0In => some .ep0Reserved
  | .ep1In => some .wrongDirection
  | .ep2Out => none
  | .ep2In => some .wrongDirection

/-- Which entries ARM_TX may name on the port (44_endpoint_buffers.md R205). -/
def portArmTx : Entry → Option CommandRefusal
  | .ep0Out => some .ep0Reserved
  | .ep0In => some .ep0Reserved
  | .ep1In => none
  | .ep2Out => some .wrongDirection
  | .ep2In => none

/-! ## Meanings -/

/-- POLL (40_device_state.md R126). -/
def execPoll (s : State) : Host.Outcome State Fault Refusal := commit s (plainResult (pollStep s))

/-- ATTACH (40_device_state.md R121). -/
def execAttach (s : State) : Host.Outcome State Fault Refusal := commit s (plainResult (attachDevice s))

/-- ARM_RX on the command port (44_endpoint_buffers.md R201, R205). -/
def execArmRx (e : Entry) (s : State) : Host.Outcome State Fault Refusal :=
  match portArmRx e with
  | some r => .next (refuseCommand r s)
  | none => .next (setResult 0 false [] (armRx e s))

/-- ARM_TX on the command port (44_endpoint_buffers.md R202, R205). -/
def execArmTx (e : Entry) (data : List Byte) (s : State) : Host.Outcome State Fault Refusal :=
  match portArmTx e with
  | some r => .next (refuseCommand r s)
  | none => .next (setResult (armTxCount e data s) (armTxBusy e s) [] (armTx e data s))

/-- READ_AVAILABLE (45_bulk_sequencer.md R221). -/
def execReadAvailable (maxLen : Word16) (s : State) : Host.Outcome State Fault Refusal :=
  commit s do
    let (t, dest) ← readAvailable maxLen.toNat s
    .ok (setResult dest.length false dest t)

/-- WRITE_BYTES (45_bulk_sequencer.md R222). -/
def execWriteBytes (data : List Byte) (s : State) : Host.Outcome State Fault Refusal :=
  commit s do
    let (t, n) ← writeBytes data s
    .ok (setResult n false [] t)

/-- SERVICE_TX (45_bulk_sequencer.md R223). -/
def execServiceTx (s : State) : Host.Outcome State Fault Refusal := commit s (plainResult (serviceTx s))

/-- APP_CMD (46_application.md R232). -/
def execAppCmd (s : State) : Host.Outcome State Fault Refusal := commit s (plainResult (appStep s))

/-- CMD_RESERVED: refused, RESERVED_OP (30_encoding.md R98, 60_exceptions.md R251). -/
def execCmdReserved (s : State) : Host.Outcome State Fault Refusal := .next (refuseCommand .reservedOp s)

end Sys2Proof.Machine
end

