-- ==== Sys2Proof/Machine/Sie.lean ====
section
/-! DEFINITION. The environment's steps (44_endpoint_buffers.md R208-R214): transactions of the SIE on the
endpoint entries, bus reset, transport error, POWER and DETACH. A step whose enabling condition fails
changes no state; for a token the SIE's answer is recorded (R211; log 6). -/

namespace Sys2Proof.Machine

/-- A completed transaction: OWN goes to the block and the record into SIE_FIFO; the host sees ACK
(44_endpoint_buffers.md R208-R211). -/
def complete (e : Entry) (cnt : BitVec 11) (record : TokenRecord) (s : State) : State :=
  { setBd e { s.bd.get e with own := .fw, cnt := cnt } s with
    sieFifo := s.sieFifo ++ [record]
    answer := some .ack }

/-- SIE_ERROR: the flag is set in the states on a powered bus (44_endpoint_buffers.md R213); a second error while
SIE_IF_ERROR or PEND_ERROR is set adds nothing (60_exceptions.md R245, R252). -/
def sieError (s : State) : Except Fault State := do
  let d ← readDevState s
  .ok (if d.onPoweredBus && !s.errorBusy then { s with sieIfError := true } else s)

/-- SIE_RESET: the flag is set, uncaptured completions are dropped and SETUP_LOCK is released, in the
states on a powered bus (44_endpoint_buffers.md R212); a second reset while SIE_IF_RESET or PEND_RESET is set, that is,
before the first is processed, adds nothing (R212's corner case, 60_exceptions.md R252). -/
def sieReset (s : State) : Except Fault State := do
  let d ← readDevState s
  .ok (if d.onPoweredBus && !s.resetBusy then { s with sieIfReset := true, sieFifo := [], setupLock := false } else s)

/-- SIE_SETUP with a packet in its domain: an enabled SETUP lands in the EP0OUT buffer and takes SETUP_LOCK
(44_endpoint_buffers.md R208); any other gets the answer of R211. -/
def sieSetup (bytes : List Byte) (s : State) : Except Fault State :=
  if s.setupEnabled bytes then
    let t := complete .ep0Out (BitVec.ofNat 11 bytes.length) setupRecord (memWrite s (.buffer .ep0Out) bytes)
    .ok { t with setupLock := true }
  else do
    let d ← readDevState s
    .ok { s with answer := some (s.setupAnswer d) }

/-- SIE_OUT: an enabled packet lands in the entry's buffer (44_endpoint_buffers.md R209); one that is too long
for it is a transport error (R209, R213; log 7); any other gets the answer of R211. -/
def sieOut (e : OutEntry) (bytes : List Byte) (s : State) : Except Fault State :=
  if bufCap s.params (outEntry e) < bytes.length then sieError s
  else if s.outEnabled e bytes then
    .ok (complete (outEntry e) (BitVec.ofNat 11 bytes.length) (outRecord e) (memWrite s (.buffer (outEntry e)) bytes))
  else do
    let d ← readDevState s
    .ok { s with answer := some (s.dataAnswer d (outEntry e)) }

/-- SIE_IN: from an enabled entry the host receives its CNT bytes, CNT stays (44_endpoint_buffers.md R210);
otherwise it gets the answer of R211. -/
def sieIn (e : InEntry) (s : State) : Except Fault State :=
  if s.inEnabled e then do
    let packet ← memRead s (.buffer (inEntry e)) (s.bd.get (inEntry e)).cnt.toNat
    .ok { complete (inEntry e) (s.bd.get (inEntry e)).cnt (inRecord e) s with hostSees := s.hostSees ++ [packet] }
  else do
    let d ← readDevState s
    .ok { s with answer := some (s.dataAnswer d (inEntry e)) }

/-! ## Meanings -/

/-- SIE_RESET (44_endpoint_buffers.md R212). -/
def execSieReset (s : State) : Host.Outcome State Fault Refusal := commit s (sieReset s)

/-- SIE_SETUP (44_endpoint_buffers.md R208); with more than EP0_MPS bytes it is no step, and a model does not offer it
(60_exceptions.md R251; log 8). -/
def execSieSetup (bytes : List Byte) (s : State) : Host.Outcome State Fault Refusal :=
  if s.setupOffered bytes then commit s (sieSetup bytes s) else .refused .notAStep

/-- SIE_OUT (44_endpoint_buffers.md R209). -/
def execSieOut (e : OutEntry) (bytes : List Byte) (s : State) : Host.Outcome State Fault Refusal :=
  commit s (sieOut e bytes s)

/-- SIE_IN (44_endpoint_buffers.md R210). -/
def execSieIn (e : InEntry) (s : State) : Host.Outcome State Fault Refusal := commit s (sieIn e s)

/-- SIE_ERROR (44_endpoint_buffers.md R213). -/
def execSieError (s : State) : Host.Outcome State Fault Refusal := commit s (sieError s)

/-- POWER (40_device_state.md R122). -/
def execPower (s : State) : Host.Outcome State Fault Refusal := commit s (powerDevice s)

/-- DETACH (40_device_state.md R123). -/
def execDetach (s : State) : Host.Outcome State Fault Refusal := .next (detachDevice s)

end Sys2Proof.Machine
end

