-- ==== Sys2Proof/Machine/Dispatch.lean ====
section
/-! DEFINITION. One arm per constructor of `Instr`. -/

namespace Sys2Proof.Machine

/-- What an instruction does in a state. -/
def exec (i : Instr) (s : State) : Host.Outcome State Fault Refusal :=
  match i with
  -- standard requests (42_standard_requests.md)
  | .getStatus recip v x l => Sys2Proof.Machine.execGetStatus recip v x l s
  | .setAddress v x l => Sys2Proof.Machine.execSetAddress v x l s
  | .getDescriptor v x l => Sys2Proof.Machine.execGetDescriptor v x l s
  | .getConfiguration v x l => Sys2Proof.Machine.execGetConfiguration v x l s
  | .setConfiguration v x l => Sys2Proof.Machine.execSetConfiguration v x l s
  | .getInterface v x l => Sys2Proof.Machine.execGetInterface v x l s
  | .setInterface v x l => Sys2Proof.Machine.execSetInterface v x l s
  | .stdUnsupported dir recip req v x l => Sys2Proof.Machine.execStdUnsupported dir recip req v x l s
  -- class, vendor and reserved requests (43_cdc_class_requests.md, 41_control_transfer.md)
  | .setLineCoding v x l => Sys2Proof.Machine.execSetLineCoding v x l s
  | .getLineCoding v x l => Sys2Proof.Machine.execGetLineCoding v x l s
  | .setControlLineState v x l => Sys2Proof.Machine.execSetControlLineState v x l s
  | .classOther dir recip req v x l => Sys2Proof.Machine.execClassOther dir recip req v x l s
  | .vendor dir recip req v x l => Sys2Proof.Machine.execVendor dir recip req v x l s
  | .reservedType dir recip req v x l => Sys2Proof.Machine.execReservedType dir recip req v x l s
  -- the command port (30_encoding.md R97)
  | .poll => Sys2Proof.Machine.execPoll s
  | .attach => Sys2Proof.Machine.execAttach s
  | .armRx e => Sys2Proof.Machine.execArmRx e s
  | .armTx e data => Sys2Proof.Machine.execArmTx e data s
  | .readAvailable maxLen => Sys2Proof.Machine.execReadAvailable maxLen s
  | .writeBytes data => Sys2Proof.Machine.execWriteBytes data s
  | .serviceTx => Sys2Proof.Machine.execServiceTx s
  | .appCmd => Sys2Proof.Machine.execAppCmd s
  | .cmdReserved _ _ _ => Sys2Proof.Machine.execCmdReserved s
  -- environment steps (30_encoding.md R101)
  | .sieReset => Sys2Proof.Machine.execSieReset s
  | .sieSetup bytes => Sys2Proof.Machine.execSieSetup bytes s
  | .sieOut e bytes => Sys2Proof.Machine.execSieOut e bytes s
  | .sieIn e => Sys2Proof.Machine.execSieIn e s
  | .sieError => Sys2Proof.Machine.execSieError s
  | .power => Sys2Proof.Machine.execPower s
  | .detach => Sys2Proof.Machine.execDetach s
  -- token records (40_device_state.md R128)
  | .tokenEp0Setup => Sys2Proof.Machine.execTokenEp0Setup s
  | .tokenEp0Out => Sys2Proof.Machine.execTokenEp0Out s
  | .tokenEp0In => Sys2Proof.Machine.execTokenEp0In s
  | .tokenEp1In => Sys2Proof.Machine.execTokenEp1In s
  | .tokenEp2Out => Sys2Proof.Machine.execTokenEp2Out s
  | .tokenEp2In => Sys2Proof.Machine.execTokenEp2In s
  -- application bytes (46_application.md R231)
  | .appLedOn => Sys2Proof.Machine.execAppLedOn s
  | .appLedOff => Sys2Proof.Machine.execAppLedOff s
  | .appLedStatus => Sys2Proof.Machine.execAppLedStatus s
  | .appUnrecognised _ => Sys2Proof.Machine.execAppUnrecognised s

end Sys2Proof.Machine
end

