-- ==== Sys2Proof/Machine/Agents.lean ====
section
/-! DEFINITION. The agents (00_scope.md R10): the CAPTURE step (60_exceptions.md R244-R247), one step of
any agent, which step comes next, and how an opcode-table word is laid where the next step fetches it. -/

namespace Sys2Proof.Machine

/-- One CAPTURE step: the first enabled branch of reset, error, token; nothing if none is enabled
(60_exceptions.md R244-R247; log 6). -/
def capture (s : State) : State :=
  if s.sieIfReset then { s with sieIfReset := false, pendReset := true }
  else if s.sieIfError then { s with sieIfError := false, pendError := true }
  else match s.sieFifo with
    | [] => s
    | t :: rest => if s.tokqFull then s else { s with sieFifo := rest, tokq := s.tokq ++ [t] }

/-- The mark a wire form leaves that the command port refuses before any meaning (60_exceptions.md R248, R251). -/
def portRefusal : DecodeError → Option CommandRefusal
  | .badCommand => some .badCommand
  | .badEntry => some .badEntry
  | .badToken => none
  | .notAStep => none

/-- An instruction read from a wire form, or what the wire form gets instead: the command port refuses it
(60_exceptions.md R251), or it is no step at all (log 8). -/
def runWire (w : Wire) (s : State) : Host.Outcome State Fault Refusal :=
  match decode w with
  | .ok i => exec i s
  | .error e =>
    match portRefusal e with
    | some r => .next (refuseCommand r s)
    | none => .refused .notAStep

/-- The wire form of an agent's step; CAPTURE has none. -/
def agentWire : AgentStep → Option Wire
  | .capture => none
  | .command C data => some (.command C data)
  | .sie kind endp bytes => some (.sie kind endp bytes)

/-- One atomic step of an agent (00_scope.md R10, 20_memory.md R72). -/
def runAgentStep (a : AgentStep) (s : State) : Host.Outcome State Fault Refusal :=
  match agentWire a with
  | none => .next (capture s)
  | some w => runWire w s

/-- The step to take next, and the state once it has been taken from where it waited: the head of the
agenda, or, when nothing waits, what the free schedule puts into the next slot (log 1). -/
def takeAgentStep (s : State) : Option AgentStep × State :=
  match s.agenda with
  | a :: rest => (some a, { s with agenda := rest })
  | [] => (Config.freeStep s.slot, { s with slot := s.slot + 1 })

/-- One step of the machine: none once a fault is marked (60_exceptions.md R250) or under parameters that
are not admitted (00_scope.md R13); otherwise one step of one agent, or a free slot no agent takes. -/
def machineStep (s : State) : Host.Outcome State Fault Refusal :=
  match s.faulted with
  | some f => .fault f
  | none =>
    if admitted s.params then
      match takeAgentStep s with
      | (some a, t) => runAgentStep a t
      | (none, t) => .next t
    else .refused .badParameters

/-! ## Laying an instruction where the next step fetches it (log 11) -/

/-- POLL's command word (30_encoding.md R97). -/
def pollStepWord : AgentStep := .command 0x00000001 []

/-- APP_CMD's command word (30_encoding.md R97). -/
def appStepWord : AgentStep := .command 0x00000008 []

/-- The agent step comes next. -/
def scheduleNext (a : AgentStep) (s : State) : State := { s with agenda := a :: s.agenda }

/-- The device as it is when records can reach POLL: bus reset processing has run if DEV_STATE is not
operational (40_device_state.md R128), and no reset or error is pending before the record. -/
def bringUp (s : State) : State :=
  let t := match DevState.ofCode s.devState with
    | some d => if d.operational then s else busReset s
    | none => busReset s
  { t with pendReset := false, pendError := false }

/-- The record t stands first in TOKQ after the transaction that made it: the SIE has handed the entry
back (44_endpoint_buffers.md R208-R210), and POLL comes next. -/
def deliverToken (t : TokenRecord) (s : State) : State :=
  let u := bringUp s
  let v := match tokenKind t with
    | some .ep0Setup => setBd .ep0Out { u.bd.ep0Out with own := .fw } u
    | some .ep0Out => setBd .ep0Out { u.bd.ep0Out with own := .fw } u
    | some .ep0In => setBd .ep0In { u.bd.ep0In with own := .fw } u
    | some .ep1In => u
    | some .ep2Out => u
    | some .ep2In => u
    | none => u
  scheduleNext pollStepWord { v with tokq := t :: v.tokq }

/-- The packet stands in the EP0OUT buffer as SIE_SETUP leaves it, its record first in TOKQ, and POLL comes next
(44_endpoint_buffers.md R208). -/
def deliverSetup (S : SetupWord) (s : State) : State :=
  let u := deliverToken setupRecord s
  setBd .ep0Out { u.bd.ep0Out with own := .fw, cnt := 8 }
    { memWrite u (.buffer .ep0Out) (setupBytes S) with setupLock := true }

/-- The byte is the whole packet in EP2OUT of a configured device with nothing staged, and APP_CMD comes next
(46_application.md R232). -/
def deliverAppByte (b : Byte) (s : State) : State :=
  let u := if DevState.ofCode s.devState = some .configured then s else configure (bringUp s)
  scheduleNext appStepWord
    (setBd .ep2Out { u.bd.ep2Out with own := .fw, cnt := 1 }
      (clearTx (memWrite u (.buffer .ep2Out) [b])))

/-- The wire form laid where the machine fetches that format from: the agenda for a command or an SIE step,
TOKQ for a record, the EP0OUT buffer for a SETUP packet, the EP2OUT buffer for an application byte. A SETUP
record by itself comes with a packet of zeros. -/
def deliverWire (w : Wire) (s : State) : State :=
  match w with
  | .command C data => scheduleNext (.command C data) s
  | .sie kind endp bytes => scheduleNext (.sie kind endp bytes) s
  | .setup S => deliverSetup S s
  | .token t => if t = setupRecord then deliverSetup 0 s else deliverToken t s
  | .appByte b => deliverAppByte b s

end Sys2Proof.Machine
end

