-- ==== Sys2Proof/Machine/Step.lean ====
section
/-! DEFINITION. One step of the machine, and where an opcode-table word stands for the next step to fetch. -/

namespace Sys2Proof.Machine

/-- One step. -/
def step (s : State) : Host.Outcome State Fault Refusal := machineStep s

/-- The state with an opcode-table word laid where the next step fetches its instruction (log 10, log 11). -/
def State.withFetchWord (s : State) (nbits w : Nat) : State := deliverWire (tableWire nbits w) s

end Sys2Proof.Machine
end

