-- ==== Sys2Proof/Machine/PseudoOps.lean ====
section
/-! DEFINITION. The pseudo-operations of the test notation (30_encoding.md R109): drain and the three
control-transfer shorthands. Each is an expansion into agent steps; it stops, at the state where it is, when a
step it names is not enabled. No step is enabled once a fault is marked (60_exceptions.md R250). A fuel bounds the
repetition. -/

namespace Sys2Proof.Machine

/-- Going on from a next state. -/
def andThen (o : Host.Outcome State Fault Refusal) (k : State → Host.Outcome State Fault Refusal) :
    Host.Outcome State Fault Refusal :=
  match o with
  | .next s => k s
  | .fault f => .fault f
  | .refused r => .refused r

/-- What drain does next: nothing where no step is enabled, else a CAPTURE step if one is enabled, else a POLL if it has
work, else nothing. -/
def drainStep (s : State) : Option AgentStep :=
  if !s.canStep then none
  else if s.captureEnabled then some .capture
  else if s.pollHasWork then some pollStepWord
  else none

/-- drain (30_encoding.md R109). -/
def drain : Nat → State → Host.Outcome State Fault Refusal
  | 0, s => .next s
  | fuel + 1, s =>
    match drainStep s with
    | none => .next s
    | some a => andThen (runAgentStep a s) (drain fuel)

/-- A bound on the steps drain takes: two for each flag the SIE holds, two for each record it holds, one for
everything POLL holds. -/
def drainBound (s : State) : Nat :=
  (if s.sieIfReset then 2 else 0) + (if s.sieIfError then 2 else 0) + 2 * s.sieFifo.length
  + (if s.pendReset then 1 else 0) + (if s.pendError then 1 else 0) + s.tokq.length

/-- A host step and a drain after it, or the state as it is where the step is not enabled. -/
def hostThenDrain (fuel : Nat) (enabled : Bool) (i : Instr) (s : State) (k : State → Host.Outcome State Fault Refusal) :
    Host.Outcome State Fault Refusal :=
  if s.canStep && enabled then andThen (exec i s) fun t => andThen (drain fuel t) k else .next s

/-- host.ctrl_nodata (30_encoding.md R109). -/
def ctrlNoData (fuel : Nat) (S : SetupWord) (s : State) : Host.Outcome State Fault Refusal :=
  hostThenDrain fuel (s.setupEnabled (setupBytes S)) (.sieSetup (setupBytes S)) s fun t =>
    hostThenDrain fuel (t.inEnabled .ep0) (.sieIn .ep0) t .next

/-- The IN packets of a control read: repeated while EP0IN is the SIE's. -/
def readPackets : Nat → Nat → State → (State → Host.Outcome State Fault Refusal) → Host.Outcome State Fault Refusal
  | 0, _, s, _ => .next s
  | n + 1, fuel, s, k =>
    if s.bd.ep0In.own = .hw then
      hostThenDrain fuel (s.inEnabled .ep0) (.sieIn .ep0) s fun t => readPackets n fuel t k
    else k s

/-- host.ctrl_read (30_encoding.md R109). -/
def ctrlRead (fuel : Nat) (S : SetupWord) (s : State) : Host.Outcome State Fault Refusal :=
  hostThenDrain fuel (s.setupEnabled (setupBytes S)) (.sieSetup (setupBytes S)) s fun t =>
    readPackets fuel fuel t fun u =>
      hostThenDrain fuel (u.outEnabled .ep0 []) (.sieOut .ep0 []) u .next

/-- host.ctrl_write (30_encoding.md R109). -/
def ctrlWrite (fuel : Nat) (S : SetupWord) (data : List Byte) (s : State) : Host.Outcome State Fault Refusal :=
  hostThenDrain fuel (s.setupEnabled (setupBytes S)) (.sieSetup (setupBytes S)) s fun t =>
    hostThenDrain fuel (t.outEnabled .ep0 data) (.sieOut .ep0 data) t fun u =>
      hostThenDrain fuel (u.inEnabled .ep0) (.sieIn .ep0) u .next

end Sys2Proof.Machine
end

