-- ==== Sys2Proof/Safety.lean ====
section
/-! DEFINITION. What a safe run is: the invariants the spec lists for every reachable state (10_state.md R45),
the further facts that make them inductive and keep every model fault unreachable (60_exceptions.md R250),
and the readiness conditions the statements use. -/

namespace Sys2Proof.Machine

/-- DEV_STATE is Default, Address or Configured. -/
def State.isOperational (s : State) : Bool :=
  match DevState.ofCode s.devState with
  | some d => d.operational
  | none => false

/-- DEV_STATE is Configured. -/
def State.isConfigured (s : State) : Bool := s.devState == DevState.code .configured

/-- DEV_STATE is Address or Configured. -/
def State.isAddressed (s : State) : Bool :=
  s.devState == DevState.code .address || s.devState == DevState.code .configured

/-- The token records not yet dispatched, oldest first. -/
def State.records (s : State) : List TokenRecord := s.tokq ++ s.sieFifo

/-- The records of EP0OUT completions (30_encoding.md R100). -/
def ep0OutRecord (t : TokenRecord) : Bool := t == TokenKind.ep0Setup.record || t == TokenKind.ep0Out.record

/-- The record of an EP0IN completion (30_encoding.md R100). -/
def ep0InRecord (t : TokenRecord) : Bool := t == TokenKind.ep0In.record

/-- The first n bytes of an area have been written. -/
def State.written (s : State) (area : Area) (n : Nat) : Prop :=
  ∀ i < n, (s.buf.read (areaBase s.params area + i)).isSome = true

/-- The nine invariants of 10_state.md R45. -/
structure ListedInvariants (s : State) : Prop where
  ep0Enabled : s.bd.ep0Out.en = s.isOperational ∧ s.bd.ep0In.en = s.isOperational
  dataEnabled : s.bd.ep1In.en = s.isConfigured ∧ s.bd.ep2Out.en = s.isConfigured ∧ s.bd.ep2In.en = s.isConfigured
  configuration : s.activeCfg = if s.isConfigured then s.params.cfgValue else 0
  onlyEp0Stalls : s.bd.ep1In.stall = false ∧ s.bd.ep2Out.stall = false ∧ s.bd.ep2In.stall = false
  countFits : ∀ e, (s.bd.get e).cnt.toNat ≤ bufCap s.params e
  ep0OutArmed : s.resetBusy = false → s.bd.ep0Out.en = true → s.records.all (fun t => !ep0OutRecord t) = true →
    s.bd.ep0Out.own = .hw
  disabledOwned : ∀ e, (s.bd.get e).en = false → (s.bd.get e).own = .fw
  addressed : s.devAddr ≠ 0 ↔ s.isAddressed = true
  lockHeld : s.resetBusy = false → (s.setupLock = true ↔ TokenKind.ep0Setup.record ∈ s.records)

/-- What an entry's buffer holds: an armed IN packet, or a received OUT packet, has been written. -/
structure BuffersWritten (s : State) : Prop where
  ep0Out : s.bd.ep0Out.own = .fw → s.written (.buffer .ep0Out) s.bd.ep0Out.cnt.toNat
  ep0In : s.bd.ep0In.own = .hw → s.written (.buffer .ep0In) s.bd.ep0In.cnt.toNat
  ep1In : s.bd.ep1In.own = .hw → s.written (.buffer .ep1In) s.bd.ep1In.cnt.toNat
  ep2Out : s.bd.ep2Out.own = .fw → s.written (.buffer .ep2Out) s.bd.ep2Out.cnt.toNat
  ep2In : s.bd.ep2In.own = .hw → s.written (.buffer .ep2In) s.bd.ep2In.cnt.toNat
  staged : s.txPending = true → s.written .txBuf s.txLen.toNat

/-- What the records not yet dispatched are: ones the SIE produces, in an operational device, within the
queues' depths; at most one EP0OUT and one EP0IN record, each of an entry the block owns; no EP0IN record
after a SETUP record (44_endpoint_buffers.md R214, R217). -/
structure RecordsInOrder (s : State) : Prop where
  known : ∀ t ∈ s.records, (tokenKind t).isSome = true
  operational : s.records ≠ [] → s.isOperational = true
  heldInReset : s.resetBusy = true → s.sieFifo = []
  tokqBound : s.tokq.length ≤ s.params.tokqDepth
  fifoBound : s.sieFifo.length ≤ s.params.sieFifoDepth
  oneEp0Out : (s.records.filter ep0OutRecord).length ≤ 1
  ep0OutOwned : s.records.any ep0OutRecord = true → s.bd.ep0Out.own = .fw
  oneEp0In : (s.records.filter ep0InRecord).length ≤ 1
  ep0InOwned : s.records.any ep0InRecord = true → s.bd.ep0In.own = .fw
  noInAfterSetup : s.records.Pairwise (fun a b => a = TokenKind.ep0Setup.record → ep0InRecord b = false)

/-- What a deferred action presupposes (40_device_state.md R129-R131). -/
def Action.applicable (s : State) : Action → Prop
  | .noAction => True
  | .setAddress _ => s.isOperational = true ∧ s.isConfigured = false
  | .setConfig c => s.isAddressed = true ∧ (c = 0 ∨ c = s.params.cfgValue)
  | .setLineCoding => True

/-- The control context against the entries it uses (41_control_transfer.md R149, R153). -/
structure ContextInOrder (s : State) : Prop where
  stageKnown : (Stage.ofCode s.ctx.stage).isSome = true
  applicable : Action.applicable s s.ctx.action
  responseLeft : s.ctx.stage = Stage.code .dataIn →
    s.ctx.off.toNat + s.ctx.remain.toNat = s.ctx.resp.length ∧ s.ctx.resp.length < 65536
  outDataLeft : s.ctx.stage = Stage.code .dataOut → s.ctx.outCnt.toNat + s.ctx.remain.toNat = 7
  outDataIn : s.ctx.stage = Stage.code .dataOut → s.bd.ep0In.own = .fw ∧ s.records.any ep0InRecord = false

/-- BUF in canonical form, inside its address space (20_memory.md R61). -/
structure MemoryInOrder (s : State) : Prop where
  canonical : s.buf.wf
  inside : ∀ c ∈ s.buf, c.1 < bufSize s.params
  staged : s.txLen.toNat ≤ s.params.ep2Mps

/-- A state of a well-formed run: admitted parameters, no fault marked, the listed invariants and what
makes them inductive. -/
structure Inv (s : State) : Prop where
  admitted : admitted s.params = true
  unfaulted : s.faulted = none
  stateKnown : (DevState.ofCode s.devState).isSome = true
  listed : ListedInvariants s
  records : RecordsInOrder s
  context : ContextInOrder s
  buffers : BuffersWritten s
  memory : MemoryInOrder s

/-- A state in which a SETUP packet is being processed: an operational device, EP0 enabled, EP0OUT handed
back by the SIE (40_device_state.md R128, 41_control_transfer.md R141). -/
structure SetupReady (s : State) : Prop where
  admitted : admitted s.params = true
  operational : s.isOperational = true
  outEnabled : s.bd.ep0Out.en = true
  inEnabled : s.bd.ep0In.en = true
  outOwned : s.bd.ep0Out.own = .fw

end Sys2Proof.Machine
end

