-- ==== Sys2Proof/Certificates/Slice0/Obligations.lean ====
section
/-! DEFINITION. The statements for the provers, from the numbered rules of spec/. First the words they share:
what a memory holds after a store, and the states a SETUP stage can leave. Every next state is written as the
state before with the fields that change, so each of these equations is also the frame: a field it does not name
is as it was, and where `buf` is named, the read of every address is given beside it. -/

namespace Sys2Proof.Claims
open Sys2Proof.Machine

/-- m' reads as m does, but for `bytes` standing from address `base` on. -/
def Stored (m m' : Memory) (base : Nat) (bytes : List Byte) : Prop :=
  ∀ a, m'.read a = if base ≤ a ∧ a < base + bytes.length then bytes[a - base]? else m.read a

/-- `bytes` stand from address `base` on. -/
def Holds (m : Memory) (base : Nat) (bytes : List Byte) : Prop :=
  ∀ i < bytes.length, m.read (base + i) = bytes[i]?

/-- The result of a command that returns COUNT 0, BUSY 0 and no bytes (30_encoding.md R96, R97). -/
def zeroResult : Option CommandResult := some { word := 0x00000000, bytes := [] }

/-- The result of a command that returns COUNT n, BUSY 0 and these bytes (30_encoding.md R96). -/
def countResult (n : Nat) (bytes : List Byte) : Option CommandResult :=
  some { word := BitVec.ofNat 32 n, bytes := bytes }

/-- The entries with EP0OUT armed again, its other bits kept (44_endpoint_buffers.md R201). -/
def ep0OutArmed (s : State) : PerEntry BdStat :=
  { s.bd with ep0Out := { s.bd.ep0Out with own := .hw, cnt := BitVec.ofNat 11 (bufCap s.params .ep0Out) } }

/-- The entries with EP2OUT armed again, its other bits kept (44_endpoint_buffers.md R201). -/
def ep2OutArmed (s : State) : PerEntry BdStat :=
  { s.bd with ep2Out := { s.bd.ep2Out with own := .hw, cnt := BitVec.ofNat 11 (bufCap s.params .ep2Out) } }

/-- The entries as a SETUP stage leaves them: EP0OUT armed, EP0IN as given, both with the stall flag as given,
the data entries as they were (41_control_transfer.md R141, R145-R148). -/
def afterSetup (s : State) (stall : Bool) (inOwn : Owner) (inCnt : Nat) : PerEntry BdStat :=
  { s.bd with
    ep0Out := { own := .hw, en := true, stall := stall, cnt := BitVec.ofNat 11 (bufCap s.params .ep0Out) }
    ep0In := { own := inOwn, en := true, stall := stall, cnt := BitVec.ofNat 11 inCnt } }

/-- The protocol stall: both EP0 entries stalled, EP0IN taken back, EP0OUT armed, CTX Idle, the cause recorded, and
nothing else (41_control_transfer.md R147, 60_exceptions.md R242). -/
def Stalled (cause : StallCause) (lock : Bool) (s t : State) : Prop :=
  t = { s with bd := afterSetup s true .fw 0, ctx := Ctx.idle, stallCause := cause, setupLock := lock }

/-- The fresh context of a SETUP packet: Idle but for SETUP and DIR = S[7] (41_control_transfer.md R141). -/
def freshCtx (S : SetupWord) : Ctx := { Ctx.idle with setup := S, dir := S.getLsbD 7 }

/-- A transfer without a data stage: STAGE StatusIn, the action deferred, the zero-length status packet armed
(41_control_transfer.md R145). -/
def NoDataStage (S : SetupWord) (action : Action) (s t : State) : Prop :=
  t = { s with
        bd := afterSetup s false .hw 0
        ctx := { freshCtx S with stage := 3, action := action }
        stallCause := .none
        setupLock := false }

/-- A control read of `bytes`: cut to wLength, its first packet armed, the rest remembered, a zero-length packet to
end it where R146 asks for one; with wLength 0 there is no data stage (41_control_transfer.md R146, R149). -/
def DataInStage (S : SetupWord) (bytes : List Byte) (s t : State) : Prop :=
  let w := (wLength S).toNat
  let resp := bytes.take w
  let k := min s.params.ep0Mps resp.length
  if w = 0 then NoDataStage S .noAction s t
  else
    t = { s with
          bd := afterSetup s false .hw k
          ctx := { freshCtx S with
                   stage := 1
                   resp := resp
                   off := BitVec.ofNat 16 k
                   remain := BitVec.ofNat 16 (resp.length - k)
                   zlpPend := decide (resp ≠ [] ∧ resp.length < w ∧ resp.length % s.params.ep0Mps = 0) }
          stallCause := .none
          setupLock := false
          buf := t.buf }
    ∧ Stored s.buf t.buf (adr s.params .ep0In) (resp.take k)

/-- A control write of n bytes: STAGE DataOut, EP0IN taken back (41_control_transfer.md R148). -/
def DataOutStage (S : SetupWord) (n : BitVec 16) (action : Action) (s t : State) : Prop :=
  t = { s with
        bd := afterSetup s false .fw 0
        ctx := { freshCtx S with stage := 2, remain := n, action := action }
        stallCause := .none
        setupLock := false }

/-- What forwarding a packet to the application hook leaves (41_control_transfer.md R159). -/
def Forwarded (S : SetupWord) (s t : State) : Prop :=
  match appHook s.params S with
  | .unhandled => Stalled .hookUnhandled false s t
  | .noData => if wLength S = 0 then NoDataStage S .noAction s t else Stalled .hookUnhandled false s t
  | .dataIn bytes => if S.getLsbD 7 = true then DataInStage S bytes s t else Stalled .hookUnhandled false s t

/-- An EP0 record may be processed: an operational device, and the block owns the entry (40_device_state.md R128). -/
structure TokenReady (e : Entry) (s : State) : Prop where
  admitted : admitted s.params = true
  operational : s.isOperational = true
  enabled : (s.bd.get e).en = true
  owned : (s.bd.get e).own = .fw

/-- No transaction is held and the entry can take one: neither reset pending, the entry enabled and the SIE's,
SIE_FIFO not full (44_endpoint_buffers.md R208-R210, R214). -/
structure TransactionReady (e : Entry) (s : State) : Prop where
  admitted : admitted s.params = true
  noSieReset : s.sieIfReset = false
  noPendingReset : s.pendReset = false
  enabled : (s.bd.get e).en = true
  armed : (s.bd.get e).own = .hw
  room : s.sieFifo.length < s.params.sieFifoDepth

/-- ob' is OUTBUF ob with `data` from byte n on (41_control_transfer.md R153). -/
def OutBufStored (ob ob' : BitVec 56) (n : Nat) (data : List Byte) : Prop :=
  ∀ j < 7, some (ob'.extractLsb' (8 * j) 8) =
    if n ≤ j ∧ j < n + data.length then data[j - n]? else some (ob.extractLsb' (8 * j) 8)

/-- i processes an EP0IN completion: the record's own row, or a POLL that takes the record 0x30, with no flag pending
before it (40_device_state.md R126, R128). -/
def CompletesIn (i : Instr) (s : State) : Prop :=
  i = .tokenEp0In ∨ (i = .poll ∧ s.pendReset = false ∧ s.pendError = false ∧ s.tokq.head? = some 0x30)

/-- Byte i of d is there, and is the number n. -/
def ByteIs (d : List Byte) (i n : Nat) : Prop := (d[i]?).map BitVec.toNat = some n

/-- Bytes i and i + 1 of d are there, and are the number n little-endian. -/
def HalfIs (d : List Byte) (i n : Nat) : Prop := ∃ lo hi, ByteIs d i lo ∧ ByteIs d (i + 1) hi ∧ n = lo + 256 * hi

/-- One of the endpoint descriptors ds has this address, transfer type and packet size
(70_reset_and_hazards.md R276 item 5). -/
def HasEndpoint (ds : List (List Byte)) (address attr size : Nat) : Prop :=
  ∃ d ∈ ds, ByteIs d 2 address ∧ (∃ b, ByteIs d 3 b ∧ b % 4 = attr) ∧ HalfIs d 4 size

/-- The descriptors `ds` are those the configuration walk meets, and pass its checks
(70_reset_and_hazards.md R276 items 2 to 6). -/
structure ConfigurationValid (p : Params) (ds : List (List Byte)) : Prop where
  joined : ds.flatten = p.desc.cfg
  prefixed : ∀ d ∈ ds, 2 ≤ d.length ∧ ByteIs d 0 d.length
  configuration : ∃ d more, ds = d :: more ∧ d.length = 9 ∧ ByteIs d 1 0x02 ∧ HalfIs d 2 67 ∧ ByteIs d 4 2 ∧
    ByteIs d 5 p.cfgValue.toNat ∧ ∀ x ∈ more, ¬ByteIs x 1 0x02
  interfaces : ∀ ifs, ifs = ds.filter (fun d => d[1]? == some 0x04) → ifs.length = 2 ∧ (∀ d ∈ ifs, d.length = 9) ∧
    ∀ n, (∃ d ∈ ifs, ByteIs d 2 n) ↔ n = p.commIf.toNat ∨ n = p.dataIf.toNat
  endpoints : ∀ eps, eps = ds.filter (fun d => d[1]? == some 0x05) → eps.length = 3 ∧ (∀ d ∈ eps, d.length = 7) ∧
    HasEndpoint eps 0x81 3 p.ep1Mps ∧ HasEndpoint eps 0x02 2 p.ep2Mps ∧ HasEndpoint eps 0x82 2 p.ep2Mps
  others : ∀ d ∈ ds, ByteIs d 1 0x02 ∨ ByteIs d 1 0x04 ∨ ByteIs d 1 0x05 ∨ ByteIs d 1 0x24

/-- A string descriptor passes its checks (70_reset_and_hazards.md R276 item 7). -/
def StringValid (d : List Byte) : Prop := 2 ≤ d.length ∧ ByteIs d 0 d.length ∧ ByteIs d 1 0x03 ∧ d.length % 2 = 0

/-- The seven conditions on a parameter set (00_scope.md R13 (a) to (g), 70_reset_and_hazards.md R276). -/
structure ParametersValid (p : Params) : Prop where
  ep0Size : p.ep0Mps ∈ [8, 16, 32, 64]
  dataSizes : p.ep1Mps ∈ [8, 16, 32, 64] ∧ p.ep2Mps ∈ [8, 16, 32, 64]
  capacities : p.bufCap.ep0Out = p.ep0Mps ∧ p.bufCap.ep0In = p.ep0Mps ∧ p.bufCap.ep1In = p.ep1Mps ∧
    p.bufCap.ep2Out = p.ep2Mps ∧ p.bufCap.ep2In = p.ep2Mps
  configurationValue : 1 ≤ p.cfgValue.toNat ∧ p.cfgValue.toNat ≤ 255
  interfaceNumbers : p.commIf ≠ p.dataIf ∧ p.commIf.toNat < 2 ∧ p.dataIf.toNat < 2
  device : p.desc.dev.length = 18 ∧ ByteIs p.desc.dev 0 18 ∧ ByteIs p.desc.dev 1 0x01 ∧ ByteIs p.desc.dev 7 p.ep0Mps
  configuration : p.desc.cfg.length = 67 ∧ ∃ ds, ConfigurationValid p ds
  strings : StringValid p.desc.str0 ∧ StringValid p.desc.str1 ∧ StringValid p.desc.str2 ∧ 4 ≤ p.desc.str0.length
  depths : 1 ≤ p.tokqDepth ∧ 1 ≤ p.sieFifoDepth

end Sys2Proof.Claims

open Sys2Proof Sys2Proof.Machine Sys2Proof.Claims

/-! ## The step -/

/-- A step runs the decoded instruction (00_scope.md R10, R14; the agenda is the model's, log 1): where the next
agent step is a command or an environment step that decodes to i, the step is exec of i once the step has been
taken from the agenda. -/
def Obligations.StepRunsTheDecodedInstruction : Prop :=
  ∀ (s : State) (a : AgentStep) (rest : List AgentStep) (w : Wire) (i : Instr),
    admitted s.params = true → s.faulted = none → s.agenda = a :: rest → agentWire a = some w → decode w = .ok i →
    step s = exec i { s with agenda := rest }

/-- CAPTURE, its three branches in order (60_exceptions.md R244, R245, R246). -/
def Obligations.CaptureTakesResetThenErrorThenToken : Prop :=
  ∀ (s : State) (rest : List AgentStep), admitted s.params = true → s.faulted = none → s.agenda = .capture :: rest →
    (s.sieIfReset = true →
      step s = .next { s with agenda := rest, sieIfReset := false, pendReset := true }) ∧
    (s.sieIfReset = false → s.sieIfError = true →
      step s = .next { s with agenda := rest, sieIfError := false, pendError := true }) ∧
    (∀ t ts, s.sieIfReset = false → s.sieIfError = false → s.sieFifo = t :: ts → s.tokq.length < s.params.tokqDepth →
      step s = .next { s with agenda := rest, sieFifo := ts, tokq := s.tokq ++ [t] })

/-- A command the port's decoder turns away leaves the REFUSED mark, the first one staying, and changes no block
state (60_exceptions.md R251; that the run goes on is the model's choice, log 5). -/
def Obligations.RefusedCommandChangesOnlyTheMark : Prop :=
  ∀ (s : State) (C : Word32) (data : List Byte) (rest : List AgentStep) (d : DecodeError),
    admitted s.params = true → s.faulted = none → s.agenda = .command C data :: rest →
    decode (.command C data) = .error d →
    ∃ r, (d = .badCommand ∧ r = CommandRefusal.badCommand ∨ d = .badEntry ∧ r = CommandRefusal.badEntry) ∧
      step s = .next { s with agenda := rest, refused := some (s.refused.getD r), result := none }

/-- A faulted machine takes no step, and parameters that are not admitted have no run (60_exceptions.md R250,
00_scope.md R13). -/
def Obligations.FaultedOrBadParametersTakeNoStep : Prop :=
  (∀ (s : State) (f : Fault), s.faulted = some f → step s = .fault f) ∧
  (∀ s : State, s.faulted = none → admitted s.params = false → step s = .refused .badParameters) ∧
  (∀ p : Params, admitted p = false → launch p = .refused .badParameters)

/-- The model's readings of steps the spec does not enable: CAPTURE with no branch enabled, and a bus reset or
transport error on an unpowered bus, change nothing (log 6); SIE_SETUP with a packet longer than EP0_MPS is no step, so
it is refused by that name in every state (60_exceptions.md R251; log 8). -/
def Obligations.StepsThatAreNotEnabled : Prop :=
  (∀ (s : State) (rest : List AgentStep), admitted s.params = true → s.faulted = none → s.agenda = .capture :: rest →
    s.sieIfReset = false → s.sieIfError = false → (s.sieFifo = [] ∨ s.params.tokqDepth ≤ s.tokq.length) →
    step s = .next { s with agenda := rest }) ∧
  (∀ s : State, s.devState.toNat < 2 → exec .sieReset s = .next s ∧ exec .sieError s = .next s) ∧
  (∀ (s : State) (bytes : List Byte), s.params.ep0Mps < bytes.length →
    exec (.sieSetup bytes) s = .refused .notAStep)

/-! ## Encodings -/

/-- Decoding what the encoder writes gives the instruction back, every operand at every value. -/
def Obligations.DecodeOfEncodeIsTheInstruction : Prop :=
  ∀ i : Instr, i.wellFormed = true → decode (encode i) = .ok i

/-- What the decoder reads is well formed, and the encoder writes it back bit for bit: no wire form has two
readings and no bit of one is dropped. -/
def Obligations.EncodeOfDecodeIsTheWireForm : Prop :=
  ∀ (w : Wire) (i : Instr), decode w = .ok i → i.wellFormed = true ∧ encode i = w

/-- Every request key matches at least one row, and the row taken is the first that matches (30_encoding.md R93). -/
def Obligations.EveryRequestKeyTakesItsFirstRow : Prop :=
  requestTable.map (fun r => (r.kind, r.matchKey, r.mask)) =
    [ (.getStatus, 0x0080, 0xFFE0), (.setAddress, 0x0500, 0xFFFF), (.getDescriptor, 0x0680, 0xFFFF),
      (.getConfiguration, 0x0880, 0xFFFF), (.setConfiguration, 0x0900, 0xFFFF), (.getInterface, 0x0A81, 0xFFFF),
      (.setInterface, 0x0B01, 0xFFFF), (.stdUnsupported, 0x0000, 0x0060), (.setLineCoding, 0x2021, 0xFFFF),
      (.getLineCoding, 0x21A1, 0xFFFF), (.setControlLineState, 0x2221, 0xFFFF), (.classOther, 0x0020, 0x0060),
      (.vendor, 0x0040, 0x0060), (.reservedType, 0x0060, 0x0060) ] ∧
  ∀ K : BitVec 16, ∃ (before after : List KeyRow) (r : KeyRow),
    requestTable = before ++ r :: after ∧ K &&& r.mask = r.matchKey ∧
    (∀ q ∈ before, K &&& q.mask ≠ q.matchKey) ∧ requestKind K = r.kind

/-- The command port's checks in their order (60_exceptions.md R248 item 4, checks (i) to (v)). -/
def Obligations.CommandChecksInOrder : Prop :=
  ∀ (C : Word32) (data : List Byte),
    let op := (C.extractLsb' 0 4).toNat
    let e := (C.extractLsb' 4 4).toNat
    let len := (C.extractLsb' 8 16).toNat
    let reserved := op = 0 ∨ 9 ≤ op
    (reserved → decode (.command C data) = .ok (.cmdReserved (C.extractLsb' 0 4) (C.extractLsb' 4 28) data)) ∧
    (¬reserved → C.extractLsb' 24 8 ≠ 0 → decode (.command C data) = .error .badCommand) ∧
    (¬reserved → C.extractLsb' 24 8 = 0 → (op = 3 ∨ op = 4) → 5 ≤ e → decode (.command C data) = .error .badEntry) ∧
    (¬reserved → C.extractLsb' 24 8 = 0 → op ≠ 3 → op ≠ 4 → e ≠ 0 → decode (.command C data) = .error .badCommand) ∧
    (¬reserved → C.extractLsb' 24 8 = 0 → (if op = 3 ∨ op = 4 then e < 5 else e = 0) →
      (if op = 4 ∨ op = 6 then data.length ≠ len else if op = 5 then data ≠ [] else len ≠ 0 ∨ data ≠ []) →
      decode (.command C data) = .error .badCommand) ∧
    (¬reserved → C.extractLsb' 24 8 = 0 → (if op = 3 ∨ op = 4 then e < 5 else e = 0) →
      (if op = 4 ∨ op = 6 then data.length = len else if op = 5 then data = [] else len = 0 ∧ data = []) →
      ∃ i, decode (.command C data) = .ok i)

/-- Words written out from the encodings of 30_encoding.md decode to their instructions. -/
def Obligations.WrittenWordsDecode : Prop :=
  decode (.setup 0x0000000000050500) = .ok (.setAddress 5 0 0) ∧
  decode (.setup 0x0012000001000680) = .ok (.getDescriptor 0x0100 0 18) ∧
  decode (.setup 0x0000000000010900) = .ok (.setConfiguration 1 0 0) ∧
  decode (.setup 0x0007000000002021) = .ok (.setLineCoding 0 0 7) ∧
  decode (.setup 0x00040000000001C0) = .ok (.vendor 1 0 0x01 0 0 4) ∧
  decode (.command 0x00000344 [0x41, 0x42, 0x43]) = .ok (.armTx .ep2In [0x41, 0x42, 0x43]) ∧
  decode (.command 0x00004005 []) = .ok (.readAvailable 64) ∧
  decode (.sie 2 2 [0x4F]) = .ok (.sieOut .ep2 [0x4F]) ∧
  decode (.token 0x31) = .ok .tokenEp1In ∧
  decode (.appByte 0x53) = .ok .appLedStatus

/-! ## Reset, parameters and memory -/

/-- Power-on reset sets every piece of state to the value R270 gives it (70_reset_and_hazards.md R270). -/
def Obligations.PowerOnResetValues : Prop :=
  ∀ p : Params, admitted p = true → ∃ s : State, launch p = .next s ∧ s.params = p ∧
    s.devState = 0 ∧ s.devAddr = 0 ∧ s.activeCfg = 0 ∧
    (∀ e : Entry, s.bd.get e = { own := .fw, en := false, stall := false, cnt := 0 } ∧ (s.bd.get e).word = 0) ∧
    s.ctx = Ctx.idle ∧ s.lineCoding = p.lineCodingReset ∧ s.txPending = false ∧ s.txLen = 0 ∧
    s.pendReset = false ∧ s.pendError = false ∧ s.tokq = [] ∧
    s.sieIfReset = false ∧ s.sieIfError = false ∧ s.setupLock = false ∧ s.sieFifo = [] ∧
    s.stallCause = .none ∧ s.faulted = none ∧ s.refused = none ∧ s.resetBusy = false ∧
    (∀ a, s.buf.read a = none) ∧ s.params.desc = p.desc ∧ s.led = false

/-- The BUF map: contiguous in entry order, then TX_BUF; the areas fill 0 .. BUF_SIZE-1 without overlap, and BD[e].ADR
holds ADR(e) (20_memory.md R62). The hardwired BD[e].CFG of each of the five entries: EPNUM, DIR, TYPE and MPS in their
bits, the other bits 0 (10_state.md R25, R26). -/
def Obligations.BufferAreasTileTheBufferRam : Prop :=
  (∀ p : Params, admitted p = true →
    (∀ a, a < bufSize p ↔ ∃ r : Area, areaBase p r ≤ a ∧ a < areaBase p r + areaSize p r) ∧
    (∀ (r r' : Area) (a : Nat), areaBase p r ≤ a ∧ a < areaBase p r + areaSize p r →
      areaBase p r' ≤ a ∧ a < areaBase p r' + areaSize p r' → r = r') ∧
    (∀ e : Entry, (bdAdr p e).toNat = adr p e) ∧
    adr p .ep0Out = 0 ∧ adr p .ep0In = adr p .ep0Out + bufCap p .ep0Out ∧
    adr p .ep1In = adr p .ep0In + bufCap p .ep0In ∧ adr p .ep2Out = adr p .ep1In + bufCap p .ep1In ∧
    adr p .ep2In = adr p .ep2Out + bufCap p .ep2Out ∧ txBufAdr p = adr p .ep2In + bufCap p .ep2In ∧
    bufSize p = txBufAdr p + p.ep2Mps ∧
    (∀ e : Entry, ∀ c, c = bdCfg p e →
      (c.extractLsb' 0 4, c.extractLsb' 4 1, c.extractLsb' 5 2) =
        (match e with
          | .ep0Out => (0#4, 0#1, 0#2)
          | .ep0In => (0#4, 1#1, 0#2)
          | .ep1In => (1#4, 1#1, 3#2)
          | .ep2Out => (2#4, 0#1, 2#2)
          | .ep2In => (2#4, 1#1, 2#2)) ∧
      (c.extractLsb' 8 11).toNat =
        (match e with
          | .ep0Out => p.ep0Mps
          | .ep0In => p.ep0Mps
          | .ep1In => p.ep1Mps
          | .ep2Out => p.ep2Mps
          | .ep2In => p.ep2Mps) ∧
      c.extractLsb' 7 1 = 0#1 ∧ c.extractLsb' 19 13 = 0#13)) ∧
  adr Config.params .ep0Out = 0x0000 ∧ adr Config.params .ep0In = 0x0008 ∧ adr Config.params .ep1In = 0x0010 ∧
  adr Config.params .ep2Out = 0x0018 ∧ adr Config.params .ep2In = 0x0058 ∧ txBufAdr Config.params = 0x0098 ∧
  bufSize Config.params = 0x00D8

/-- Ownership guards the buffers: an instruction changes a byte of an OUT entry's buffer only while the SIE owns the
entry, and a byte of an IN entry's buffer only while the block owns it, which SETUP processing (of a POLL: one that takes
the SETUP record 0x40) makes sure of by taking EP0IN back in the same step (20_memory.md R71, 41_control_transfer.md
R141). -/
def Obligations.OwnershipGuardsBufferWrites : Prop :=
  ∀ (i : Instr) (s t : State) (a : Nat), admitted s.params = true → exec i s = .next t →
    t.buf.read a ≠ s.buf.read a →
    (∀ e : Entry, adr s.params e ≤ a → a < adr s.params e + bufCap s.params e →
      (s.bd.get e).own = (if e = .ep0Out ∨ e = .ep2Out then Owner.hw else Owner.fw) ∨
        (e = .ep0In ∧ (i = .tokenEp0Setup ∨ (∃ S, encode i = .setup S) ∨
          (i = .poll ∧ s.pendReset = false ∧ s.pendError = false ∧ s.tokq.head? = some 0x40)))) ∧
    a < bufSize s.params

/-! ## Device State Machine -/

/-- ATTACH and POWER in every device state (40_device_state.md R121, R122). -/
def Obligations.AttachAndPower : Prop :=
  (∀ s : State, s.devState = 0 → exec .attach s = .next { s with devState := 1, result := zeroResult }) ∧
  (∀ s : State, s.devState ≠ 0 → s.devState.toNat < 6 → exec .attach s = .next { s with result := zeroResult }) ∧
  (∀ s : State, s.devState = 1 → exec .power s = .next { s with devState := 2 }) ∧
  (∀ s : State, s.devState ≠ 1 → s.devState.toNat < 6 → exec .power s = .next s)

/-- DETACH in every state (40_device_state.md R123). -/
def Obligations.DetachClearsTheBlock : Prop :=
  ∀ s : State,
    let off : BdStat := { own := .fw, en := false, stall := false, cnt := 0 }
    exec .detach s = .next { s with
      devState := 0, devAddr := 0, activeCfg := 0
      bd := { ep0Out := off, ep0In := off, ep1In := off, ep2Out := off, ep2In := off }
      ctx := Ctx.idle, stallCause := .none, txPending := false, txLen := 0
      pendReset := false, pendError := false, tokq := []
      sieIfReset := false, sieIfError := false, sieFifo := [], setupLock := false }

/-- POLL with a pending reset runs bus reset processing, from any state; with a pending transport error and no pending
reset it clears the error and does nothing else (40_device_state.md R125, R127). -/
def Obligations.PollProcessesResetThenError : Prop :=
  ∀ s : State,
    let off : BdStat := { own := .fw, en := false, stall := false, cnt := 0 }
    (s.pendReset = true → exec .poll s = .next { s with
      devState := 3, devAddr := 0, activeCfg := 0, ctx := Ctx.idle, stallCause := .none
      bd := { ep0Out := { own := .hw, en := true, stall := false, cnt := BitVec.ofNat 11 s.params.ep0Mps }
              ep0In := { own := .fw, en := true, stall := false, cnt := 0 }
              ep1In := off, ep2Out := off, ep2In := off }
      txPending := false, txLen := 0, tokq := [], pendError := false, setupLock := false, pendReset := false
      result := zeroResult }) ∧
    (s.pendReset = false → s.pendError = true →
      exec .poll s = .next { s with pendError := false, result := zeroResult })

/-- POLL pops one record and dispatches it (40_device_state.md R126, R128): the step is the token's instruction on the
popped state; a model fault leaves the record where it was and only the mark; with nothing pending nothing changes. -/
def Obligations.PollDispatchesOneRecord : Prop :=
  ∀ s : State, s.pendReset = false → s.pendError = false → s.faulted = none →
    (s.tokq = [] → exec .poll s = .next { s with result := zeroResult }) ∧
    (∀ t rest, s.tokq = t :: rest → tokenKind t = none → exec .poll s = .next { s with faulted := some .badToken }) ∧
    (∀ t rest k, s.tokq = t :: rest → tokenKind t = some k →
      ∃ u, exec k.instr { s with tokq := rest } = .next u ∧
        (u.faulted = none → exec .poll s = .next { u with result := zeroResult }) ∧
        (∀ f, u.faulted = some f → exec .poll s = .next { s with faulted := some f }))

/-- The records POLL may not take: outside the operational states, or for an EP0 entry the SIE owns, STALE_TOKEN, with
no other effect (40_device_state.md R128, 60_exceptions.md R250). -/
def Obligations.StaleTokenIsAModelFault : Prop :=
  ∀ s : State, s.faulted = none → s.devState.toNat < 6 →
    (s.devState.toNat < 3 → ∀ k : TokenKind, exec k.instr s = .next { s with faulted := some .staleToken }) ∧
    (s.bd.ep0Out.own = .hw → exec .tokenEp0Setup s = .next { s with faulted := some .staleToken } ∧
      exec .tokenEp0Out s = .next { s with faulted := some .staleToken }) ∧
    (s.bd.ep0In.own = .hw → exec .tokenEp0In s = .next { s with faulted := some .staleToken })

/-- The status stage of SET_ADDRESS: the address and the state change together, then CTX is Idle
(41_control_transfer.md R151, 40_device_state.md R129). -/
def Obligations.StatusStageAppliesTheAddress : Prop :=
  ∀ (s : State) (a : BitVec 7), TokenReady .ep0In s → s.ctx.stage = 3 → s.ctx.action = .setAddress a →
    exec .tokenEp0In s = .next { s with
      devAddr := a
      devState := if a = 0 then 3 else 4
      ctx := Ctx.idle }

/-- The status stage of SET_CONFIGURATION: 0 deconfigures, any other value configures (41_control_transfer.md R151,
40_device_state.md R130, R131). -/
def Obligations.StatusStageAppliesTheConfiguration : Prop :=
  ∀ (s : State) (c : BitVec 8), TokenReady .ep0In s → s.ctx.stage = 3 → s.ctx.action = .setConfig c →
    let off : BdStat := { own := .fw, en := false, stall := false, cnt := 0 }
    let fresh : BdStat := { own := .fw, en := true, stall := false, cnt := 0 }
    (c = 0 → exec .tokenEp0In s = .next { s with
      activeCfg := 0, devState := 4
      bd := { s.bd with ep1In := off, ep2Out := off, ep2In := off }
      txPending := false, txLen := 0, ctx := Ctx.idle }) ∧
    (c ≠ 0 → exec .tokenEp0In s = .next { s with
      activeCfg := s.params.cfgValue, devState := 5
      bd := { s.bd with
              ep1In := fresh
              ep2Out := { own := .hw, en := true, stall := false, cnt := BitVec.ofNat 11 (bufCap s.params .ep2Out) }
              ep2In := fresh }
      txPending := false, txLen := 0, ctx := Ctx.idle })

/-- The status stage of SET_LINE_CODING stores the seven bytes of OUTBUF, RATE little-endian, and of a transfer with no
action changes nothing but CTX (41_control_transfer.md R151, 43_cdc_class_requests.md R192). -/
def Obligations.StatusStageAppliesTheLineCoding : Prop :=
  ∀ s : State, TokenReady .ep0In s → s.ctx.stage = 3 →
    (s.ctx.action = .noAction → exec .tokenEp0In s = .next { s with ctx := Ctx.idle }) ∧
    (∀ b0 b1 b2 b3 b4 b5 b6 : Byte, s.ctx.action = .setLineCoding →
      s.ctx.outBuf = b6 ++ b5 ++ b4 ++ b3 ++ b2 ++ b1 ++ b0 →
      ∃ l : LineCoding, exec .tokenEp0In s = .next { s with lineCoding := l, ctx := Ctx.idle } ∧
        l.rate.toNat = b0.toNat + 256 * b1.toNat + 65536 * b2.toNat + 16777216 * b3.toNat ∧
        l.format = b4 ∧ l.parity = b5 ∧ l.dataBits = b6)

/-! ## Control transfers: the SETUP stage -/

/-- A SETUP record with an 8-byte packet S in the EP0OUT buffer runs the request S decodes to (41_control_transfer.md
R141, R143): the token's step is exec of that request, and it is a next state that marks no fault. -/
def Obligations.SetupRecordRunsItsRequest : Prop :=
  ∀ (s : State) (S : SetupWord), SetupReady s → s.faulted = none → s.bd.ep0Out.cnt = 8 →
    Holds s.buf (adr s.params .ep0Out) (setupBytes S) →
    ∃ (i : Instr) (t : State), decode (.setup S) = .ok i ∧ exec .tokenEp0Setup s = .next t ∧ exec i s = .next t ∧
      t.faulted = none

/-- A SETUP that is not 8 bytes stalls with cause MALFORMED and dispatches nothing (41_control_transfer.md R142). -/
def Obligations.MalformedSetupStalls : Prop :=
  ∀ s : State, SetupReady s → s.bd.ep0Out.cnt ≠ 8 →
    ∃ t, exec .tokenEp0Setup s = .next t ∧ Stalled .malformed false s t

/-- GET_STATUS (42_standard_requests.md R171). -/
def Obligations.GetStatusResult : Prop :=
  ∀ (s : State) (recip : BitVec 5) (v x l : Word16), SetupReady s →
    let S := setupWord ((1#1) ++ (0#2) ++ recip) 0x00 v x l
    let low : Byte := x.extractLsb' 0 8
    ∃ t, exec (.getStatus recip v x l) s = .next t ∧
      (recip = 0 → DataInStage S [0x00, 0x00] s t) ∧
      (recip = 1 → s.devState ≠ 5 → Stalled .badState false s t) ∧
      (recip = 1 → s.devState = 5 → low ≠ s.params.commIf → low ≠ s.params.dataIf → Stalled .outOfRange false s t) ∧
      (recip = 1 → s.devState = 5 → (low = s.params.commIf ∨ low = s.params.dataIf) → DataInStage S [0x00, 0x00] s t) ∧
      (recip = 2 → low ∉ [0x00#8, 0x80, 0x81, 0x02, 0x82] → Stalled .outOfRange false s t) ∧
      (recip = 2 → low ∈ [0x00#8, 0x80] → DataInStage S [0x00, 0x00] s t) ∧
      (recip = 2 → low ∈ [0x81#8, 0x02, 0x82] → s.devState ≠ 5 → Stalled .badState false s t) ∧
      (recip = 2 → s.devState = 5 → low = 0x81 →
        DataInStage S [if s.bd.ep1In.stall = true then 0x01 else 0x00, 0x00] s t) ∧
      (recip = 2 → s.devState = 5 → low = 0x02 →
        DataInStage S [if s.bd.ep2Out.stall = true then 0x01 else 0x00, 0x00] s t) ∧
      (recip = 2 → s.devState = 5 → low = 0x82 →
        DataInStage S [if s.bd.ep2In.stall = true then 0x01 else 0x00, 0x00] s t) ∧
      (3 ≤ recip.toNat → Stalled .unsupported false s t)

/-- SET_ADDRESS (42_standard_requests.md R172). -/
def Obligations.SetAddressResult : Prop :=
  ∀ (s : State) (v x l : Word16), SetupReady s →
    ∃ t, exec (.setAddress v x l) s = .next t ∧
      (l ≠ 0 → Stalled .malformed false s t) ∧
      (l = 0 → 127 < v.toNat → Stalled .outOfRange false s t) ∧
      (l = 0 → v.toNat ≤ 127 → s.devState = 5 → Stalled .badState false s t) ∧
      (l = 0 → v.toNat ≤ 127 → s.devState ≠ 5 →
        NoDataStage (setupWord 0x00 0x05 v x l) (.setAddress (BitVec.ofNat 7 v.toNat)) s t)

/-- GET_DESCRIPTOR (42_standard_requests.md R173). -/
def Obligations.GetDescriptorResult : Prop :=
  ∀ (s : State) (v x l : Word16), SetupReady s →
    let S := setupWord 0x80 0x06 v x l
    ∃ t, exec (.getDescriptor v x l) s = .next t ∧
      (v = 0x0100 → DataInStage S s.params.desc.dev s t) ∧
      (v = 0x0200 → DataInStage S s.params.desc.cfg s t) ∧
      (v = 0x0300 → DataInStage S s.params.desc.str0 s t) ∧
      (v = 0x0301 → DataInStage S s.params.desc.str1 s t) ∧
      (v = 0x0302 → DataInStage S s.params.desc.str2 s t) ∧
      (v ∉ [0x0100#16, 0x0200, 0x0300, 0x0301, 0x0302] → Stalled .outOfRange false s t)

/-- GET_CONFIGURATION (42_standard_requests.md R174). -/
def Obligations.GetConfigurationResult : Prop :=
  ∀ (s : State) (v x l : Word16), SetupReady s →
    ∃ t, exec (.getConfiguration v x l) s = .next t ∧ DataInStage (setupWord 0x80 0x08 v x l) [s.activeCfg] s t

/-- SET_CONFIGURATION (42_standard_requests.md R175). -/
def Obligations.SetConfigurationResult : Prop :=
  ∀ (s : State) (v x l : Word16), SetupReady s →
    ∃ t, exec (.setConfiguration v x l) s = .next t ∧
      (l ≠ 0 → Stalled .malformed false s t) ∧
      (l = 0 → 256 ≤ v.toNat → Stalled .outOfRange false s t) ∧
      (l = 0 → v.toNat < 256 → s.devState = 3 → Stalled .badState false s t) ∧
      (l = 0 → v.toNat < 256 → s.devState ≠ 3 → v ≠ 0 → v ≠ s.params.cfgValue.setWidth 16 →
        Stalled .outOfRange false s t) ∧
      (l = 0 → v.toNat < 256 → s.devState ≠ 3 → (v = 0 ∨ v = s.params.cfgValue.setWidth 16) →
        NoDataStage (setupWord 0x00 0x09 v x l) (.setConfig (BitVec.ofNat 8 v.toNat)) s t)

/-- GET_INTERFACE and SET_INTERFACE (42_standard_requests.md R176, R177). -/
def Obligations.InterfaceRequestResults : Prop :=
  ∀ (s : State) (v x l : Word16), SetupReady s →
    let low : Byte := x.extractLsb' 0 8
    let known := low = s.params.commIf ∨ low = s.params.dataIf
    (∃ t, exec (.getInterface v x l) s = .next t ∧
      (s.devState ≠ 5 → Stalled .badState false s t) ∧
      (s.devState = 5 → ¬known → Stalled .outOfRange false s t) ∧
      (s.devState = 5 → known → DataInStage (setupWord 0x81 0x0A v x l) [0x00] s t)) ∧
    (∃ t, exec (.setInterface v x l) s = .next t ∧
      (l ≠ 0 → Stalled .malformed false s t) ∧
      (l = 0 → s.devState ≠ 5 → Stalled .badState false s t) ∧
      (l = 0 → s.devState = 5 → (¬known ∨ v ≠ 0) → Stalled .outOfRange false s t) ∧
      (l = 0 → s.devState = 5 → known → v = 0 → NoDataStage (setupWord 0x01 0x0B v x l) .noAction s t))

/-- Every other standard request, and every request of the reserved type, stalls (42_standard_requests.md R178,
41_control_transfer.md R160). -/
def Obligations.UnsupportedAndReservedRequestsStall : Prop :=
  ∀ (s : State) (dir : BitVec 1) (recip : BitVec 5) (req : Byte) (v x l : Word16), SetupReady s →
    (∃ t, exec (.stdUnsupported dir recip req v x l) s = .next t ∧ Stalled .unsupported false s t) ∧
    (∃ t, exec (.reservedType dir recip req v x l) s = .next t ∧ Stalled .reservedType false s t)

/-- SET_LINE_CODING (43_cdc_class_requests.md R191). -/
def Obligations.SetLineCodingResult : Prop :=
  ∀ (s : State) (v x l : Word16), SetupReady s →
    let S := setupWord 0x21 0x20 v x l
    ∃ t, exec (.setLineCoding v x l) s = .next t ∧
      (x.extractLsb' 0 8 ≠ s.params.commIf → Forwarded S s t) ∧
      (x.extractLsb' 0 8 = s.params.commIf → l ≠ 7 → Stalled .malformed false s t) ∧
      (x.extractLsb' 0 8 = s.params.commIf → l = 7 → DataOutStage S 7 .setLineCoding s t)

/-- GET_LINE_CODING (43_cdc_class_requests.md R193, 30_encoding.md R104). -/
def Obligations.GetLineCodingResult : Prop :=
  ∀ (s : State) (v x l : Word16), SetupReady s →
    let S := setupWord 0xA1 0x21 v x l
    ∃ t, exec (.getLineCoding v x l) s = .next t ∧
      (x.extractLsb' 0 8 ≠ s.params.commIf → Forwarded S s t) ∧
      (x.extractLsb' 0 8 = s.params.commIf → ∀ b0 b1 b2 b3 : Byte, s.lineCoding.rate = b3 ++ b2 ++ b1 ++ b0 →
        DataInStage S [b0, b1, b2, b3, s.lineCoding.format, s.lineCoding.parity, s.lineCoding.dataBits] s t)

/-- SET_CONTROL_LINE_STATE (43_cdc_class_requests.md R194). -/
def Obligations.SetControlLineStateResult : Prop :=
  ∀ (s : State) (v x l : Word16), SetupReady s →
    let S := setupWord 0x21 0x22 v x l
    ∃ t, exec (.setControlLineState v x l) s = .next t ∧
      (x.extractLsb' 0 8 ≠ s.params.commIf → Forwarded S s t) ∧
      (x.extractLsb' 0 8 = s.params.commIf → l ≠ 0 → Stalled .malformed false s t) ∧
      (x.extractLsb' 0 8 = s.params.commIf → l = 0 → NoDataStage S .noAction s t)

/-- Every other class request and every vendor request goes to the application hook (43_cdc_class_requests.md R195,
R196, 41_control_transfer.md R159). -/
def Obligations.OtherRequestsGoToTheHook : Prop :=
  ∀ (s : State) (dir : BitVec 1) (recip : BitVec 5) (req : Byte) (v x l : Word16), SetupReady s →
    (∃ t, exec (.classOther dir recip req v x l) s = .next t ∧
      Forwarded (setupWord (dir ++ (1#2) ++ recip) req v x l) s t) ∧
    (∃ t, exec (.vendor dir recip req v x l) s = .next t ∧
      Forwarded (setupWord (dir ++ (2#2) ++ recip) req v x l) s t)

/-! ## Control transfers: data and status stages -/

/-- EP0IN completion in DataIn: the next packet, or the zero-length one that ends the response, is armed; when neither
is left the stage is StatusOut (41_control_transfer.md R149, R150). -/
def Obligations.DataInCompletionArmsTheNextPacket : Prop :=
  ∀ s : State, TokenReady .ep0In s → s.ctx.stage = 1 →
    s.ctx.off.toNat + s.ctx.remain.toNat = s.ctx.resp.length →
    let k := min s.params.ep0Mps s.ctx.remain.toNat
    let packet (n : Nat) : PerEntry BdStat :=
      { s.bd with ep0In := { s.bd.ep0In with own := .hw, cnt := BitVec.ofNat 11 n } }
    (s.ctx.remain ≠ 0 → ∃ t, exec .tokenEp0In s = .next t ∧
      t = { s with
            ctx := { s.ctx with off := s.ctx.off + BitVec.ofNat 16 k, remain := s.ctx.remain - BitVec.ofNat 16 k }
            bd := packet k
            buf := t.buf } ∧
      Stored s.buf t.buf (adr s.params .ep0In) ((s.ctx.resp.drop s.ctx.off.toNat).take k)) ∧
    (s.ctx.remain = 0 → s.ctx.zlpPend = true →
      exec .tokenEp0In s = .next { s with ctx := { s.ctx with zlpPend := false }, bd := packet 0 }) ∧
    (s.ctx.remain = 0 → s.ctx.zlpPend = false →
      exec .tokenEp0In s = .next { s with ctx := { s.ctx with stage := 4 } })

/-- Records that change nothing: an EP0IN completion in Idle, DataOut or StatusOut (41_control_transfer.md R152), and
the records of EP1IN, EP2OUT and EP2IN (40_device_state.md R128). -/
def Obligations.RecordsThatChangeNothing : Prop :=
  (∀ s : State, TokenReady .ep0In s → (s.ctx.stage = 0 ∨ s.ctx.stage = 2 ∨ s.ctx.stage = 4) →
    exec .tokenEp0In s = .next s) ∧
  (∀ s : State, s.isOperational = true →
    exec .tokenEp1In s = .next s ∧ exec .tokenEp2Out s = .next s ∧ exec .tokenEp2In s = .next s)

/-- EP0OUT completion in DataOut: the bytes go to OUTBUF; then the status packet, a SHORT_DATA stall, or the wait for
more data (41_control_transfer.md R153). -/
def Obligations.DataOutCompletionCollectsBytes : Prop :=
  ∀ (s : State) (data : List Byte), TokenReady .ep0Out s → s.bd.ep0In.en = true → s.bd.ep0In.own = .fw →
    s.ctx.stage = 2 → s.ctx.outCnt.toNat + s.ctx.remain.toNat = 7 →
    s.bd.ep0Out.cnt.toNat ≤ bufCap s.params .ep0Out →
    data.length = min s.bd.ep0Out.cnt.toNat s.ctx.remain.toNat → Holds s.buf (adr s.params .ep0Out) data →
    ∃ (t : State) (ob : BitVec 56), exec .tokenEp0Out s = .next t ∧
      OutBufStored s.ctx.outBuf ob s.ctx.outCnt.toNat data ∧
      let c := { s.ctx with
                 outBuf := ob
                 outCnt := s.ctx.outCnt + BitVec.ofNat 3 data.length
                 remain := s.ctx.remain - BitVec.ofNat 16 data.length }
      (s.ctx.remain.toNat ≤ s.bd.ep0Out.cnt.toNat →
        t = { s with
              ctx := { c with stage := 3 }
              bd := { ep0OutArmed s with ep0In := { s.bd.ep0In with own := .hw, cnt := 0 } } }) ∧
      (s.bd.ep0Out.cnt.toNat < s.ctx.remain.toNat → s.bd.ep0Out.cnt.toNat < s.params.ep0Mps →
        Stalled .shortData s.setupLock s t) ∧
      (s.bd.ep0Out.cnt.toNat < s.ctx.remain.toNat → s.params.ep0Mps ≤ s.bd.ep0Out.cnt.toNat →
        t = { s with ctx := c, bd := ep0OutArmed s })

/-- EP0OUT completion in StatusOut, DataIn, Idle and StatusIn (41_control_transfer.md R154, R155, R156). -/
def Obligations.OutCompletionElsewhereRearms : Prop :=
  ∀ s : State, TokenReady .ep0Out s →
    (s.ctx.stage = 4 → exec .tokenEp0Out s = .next { s with ctx := Ctx.idle, bd := ep0OutArmed s }) ∧
    (s.ctx.stage = 1 → exec .tokenEp0Out s = .next { s with
      ctx := Ctx.idle
      bd := { ep0OutArmed s with ep0In := { s.bd.ep0In with own := .fw, cnt := 0 } } }) ∧
    (s.ctx.stage = 0 ∨ s.ctx.stage = 3 → exec .tokenEp0Out s = .next { s with bd := ep0OutArmed s })

/-! ## Endpoint Buffer Manager and the SIE -/

/-- ARM_RX of EP2OUT on the command port: armed if the block owns it and it is enabled, otherwise nothing
(44_endpoint_buffers.md R201); so a second one changes nothing (R204). -/
def Obligations.ArmRxArmsAnEnabledEntryTheBlockOwns : Prop :=
  (∀ s : State, s.bd.ep2Out.own = .fw → s.bd.ep2Out.en = true →
    exec (.armRx .ep2Out) s = .next { s with bd := ep2OutArmed s, result := zeroResult }) ∧
  (∀ s : State, (s.bd.ep2Out.own = .hw ∨ s.bd.ep2Out.en = false) →
    exec (.armRx .ep2Out) s = .next { s with result := zeroResult })

/-- ARM_TX of EP1IN and EP2IN on the command port: at most BUF_CAP(e) bytes copied and armed with their count, BUSY on
an entry the SIE owns, nothing on a disabled one (44_endpoint_buffers.md R202, R203). -/
def Obligations.ArmTxCopiesAtMostOnePacket : Prop :=
  ∀ (s : State) (e : Entry) (data : List Byte), admitted s.params = true → (e = .ep1In ∨ e = .ep2In) →
    ((s.bd.get e).own = .hw →
      exec (.armTx e data) s = .next { s with result := some { word := 0x00010000, bytes := [] } }) ∧
    ((s.bd.get e).own = .fw → (s.bd.get e).en = false →
      exec (.armTx e data) s = .next { s with result := zeroResult }) ∧
    ((s.bd.get e).own = .fw → (s.bd.get e).en = true →
      let n := min data.length (bufCap s.params e)
      ∃ t, exec (.armTx e data) s = .next t ∧
        t = { s with
              bd := s.bd.set e { s.bd.get e with own := .hw, cnt := BitVec.ofNat 11 n }
              buf := t.buf
              result := countResult n [] } ∧
        Stored s.buf t.buf (adr s.params e) (data.take n))

/-- What the command port refuses by its meaning: a reserved operation whatever its other bits and data
(30_encoding.md R98), an EP0 entry, an entry of the wrong direction (44_endpoint_buffers.md R205). Only the REFUSED
mark changes, the first one staying, and there is no result (60_exceptions.md R251; the run goes on, log 5). -/
def Obligations.PortRefusalsChangeOnlyTheMark : Prop :=
  ∀ (s : State) (i : Instr) (r : CommandRefusal),
    ((∃ op rest data, i = .cmdReserved op rest data ∧ r = .reservedOp) ∨
     ((i = .armRx .ep0Out ∨ i = .armRx .ep0In ∨ ∃ data, i = .armTx .ep0Out data ∨ i = .armTx .ep0In data) ∧
       r = .ep0Reserved) ∨
     ((i = .armRx .ep1In ∨ i = .armRx .ep2In ∨ ∃ data, i = .armTx .ep2Out data) ∧ r = .wrongDirection)) →
    exec i s = .next { s with refused := some (s.refused.getD r), result := none }

/-- SIE_SETUP when it is enabled: the packet, its length, the lock and the record 0x40 (44_endpoint_buffers.md R208);
the stall flag is not looked at. -/
def Obligations.SetupTransactionLands : Prop :=
  ∀ (s : State) (bytes : List Byte), TransactionReady .ep0Out s → s.setupLock = false →
    bytes.length ≤ s.params.ep0Mps →
    ∃ t, exec (.sieSetup bytes) s = .next t ∧
      t = { s with
            bd := { s.bd with ep0Out := { s.bd.ep0Out with own := .fw, cnt := BitVec.ofNat 11 bytes.length } }
            setupLock := true
            sieFifo := s.sieFifo ++ [0x40]
            answer := some .ack
            buf := t.buf } ∧
      Stored s.buf t.buf (adr s.params .ep0Out) bytes

/-- SIE_OUT when it is enabled; a packet longer than the buffer is reported as a transport error and delivers nothing
(44_endpoint_buffers.md R209). That such a packet is SIE_ERROR's whole effect, in every device state, is the model's
reading (log 7): the flag is set on a powered bus (R213), a repeat adds nothing (60_exceptions.md R245, R252), and on an
unpowered bus nothing changes (log 6). -/
def Obligations.OutTransactionLands : Prop :=
  (∀ (s : State) (bytes : List Byte), TransactionReady .ep0Out s → s.bd.ep0Out.stall = false → s.setupLock = false →
    bytes.length ≤ bufCap s.params .ep0Out →
    ∃ t, exec (.sieOut .ep0 bytes) s = .next t ∧
      t = { s with
            bd := { s.bd with ep0Out := { s.bd.ep0Out with own := .fw, cnt := BitVec.ofNat 11 bytes.length } }
            sieFifo := s.sieFifo ++ [0x00]
            answer := some .ack
            buf := t.buf } ∧
      Stored s.buf t.buf (adr s.params .ep0Out) bytes) ∧
  (∀ (s : State) (bytes : List Byte), TransactionReady .ep2Out s → s.bd.ep2Out.stall = false →
    bytes.length ≤ bufCap s.params .ep2Out →
    ∃ t, exec (.sieOut .ep2 bytes) s = .next t ∧
      t = { s with
            bd := { s.bd with ep2Out := { s.bd.ep2Out with own := .fw, cnt := BitVec.ofNat 11 bytes.length } }
            sieFifo := s.sieFifo ++ [0x02]
            answer := some .ack
            buf := t.buf } ∧
      Stored s.buf t.buf (adr s.params .ep2Out) bytes) ∧
  (∀ (s : State) (e : OutEntry) (bytes : List Byte), s.devState.toNat < 6 →
    bufCap s.params (outEntry e) < bytes.length →
    (2 ≤ s.devState.toNat → s.sieIfError = false → s.pendError = false →
      exec (.sieOut e bytes) s = .next { s with sieIfError := true }) ∧
    ((s.devState.toNat < 2 ∨ s.sieIfError = true ∨ s.pendError = true) → exec (.sieOut e bytes) s = .next s))

/-- SIE_IN when it is enabled: the host receives the entry's CNT bytes, CNT stays (44_endpoint_buffers.md R210). -/
def Obligations.InTransactionSendsThePacket : Prop :=
  ∀ (s : State) (e : InEntry) (packet : List Byte), TransactionReady (inEntry e) s →
    (s.bd.get (inEntry e)).stall = false → (e = .ep0 → s.setupLock = false) →
    packet.length = (s.bd.get (inEntry e)).cnt.toNat → packet.length ≤ bufCap s.params (inEntry e) →
    Holds s.buf (adr s.params (inEntry e)) packet →
    exec (.sieIn e) s = .next { s with
      bd := s.bd.set (inEntry e) { s.bd.get (inEntry e) with own := .fw }
      sieFifo := s.sieFifo ++ [match e with | .ep0 => 0x30 | .ep1 => 0x31 | .ep2 => 0x32]
      answer := some .ack
      hostSees := s.hostSees ++ [packet] }

/-- The SIE's answer to a token when no transaction fires (44_endpoint_buffers.md R211): it changes no state but the
recorded answer (log 6). -/
def Obligations.AnswersToTokens : Prop :=
  (∀ (s : State) (bytes : List Byte), s.devState.toNat < 6 → bytes.length ≤ s.params.ep0Mps →
    (s.sieIfReset = true ∨ s.pendReset = true ∨ s.bd.ep0Out.en = false ∨ s.bd.ep0Out.own = .fw ∨ s.setupLock = true ∨
      s.params.sieFifoDepth ≤ s.sieFifo.length) →
    exec (.sieSetup bytes) s = .next { s with answer := some .ignore }) ∧
  (∀ (s : State) (i : Instr) (e : Entry), s.devState.toNat < 6 →
    ((∃ bytes : List Byte, i = .sieOut .ep0 bytes ∧ e = .ep0Out ∧ bytes.length ≤ bufCap s.params e) ∨
     (∃ bytes : List Byte, i = .sieOut .ep2 bytes ∧ e = .ep2Out ∧ bytes.length ≤ bufCap s.params e) ∨
     (i = .sieIn .ep0 ∧ e = .ep0In) ∨ (i = .sieIn .ep1 ∧ e = .ep1In) ∨ (i = .sieIn .ep2 ∧ e = .ep2In)) →
    let busy := s.sieIfReset = true ∨ s.pendReset = true
    (busy → exec i s = .next { s with answer := some .ignore }) ∧
    (¬busy → (s.bd.get e).en = false → exec i s = .next { s with answer := some .ignore }) ∧
    (¬busy → s.isOperational = true → (s.bd.get e).en = true → (s.bd.get e).stall = true →
      exec i s = .next { s with answer := some .stall }) ∧
    (¬busy → s.isOperational = true → (s.bd.get e).en = true → (s.bd.get e).stall = false →
      ((s.bd.get e).own = .fw ∨ s.params.sieFifoDepth ≤ s.sieFifo.length ∨
        ((e = .ep0Out ∨ e = .ep0In) ∧ s.setupLock = true)) →
      exec i s = .next { s with answer := some .nak }))

/-- SIE_RESET and SIE_ERROR on a powered bus (44_endpoint_buffers.md R212, R213); a repeat of an event that is not yet
processed adds nothing (R212's corner case, 60_exceptions.md R245, R252). -/
def Obligations.BusResetAndErrorSetTheirFlags : Prop :=
  ∀ s : State, 2 ≤ s.devState.toNat → s.devState.toNat < 6 →
    (s.sieIfReset = false → s.pendReset = false →
      exec .sieReset s = .next { s with sieIfReset := true, sieFifo := [], setupLock := false }) ∧
    ((s.sieIfReset = true ∨ s.pendReset = true) → exec .sieReset s = .next s) ∧
    (s.sieIfError = false → s.pendError = false → exec .sieError s = .next { s with sieIfError := true }) ∧
    ((s.sieIfError = true ∨ s.pendError = true) → exec .sieError s = .next s)

/-! ## Bulk-transfer sequencer and application -/

/-- READ_AVAILABLE: the first min(max_len, CNT) bytes of the received packet, EP2OUT armed again; COUNT 0 with no change
where there is nothing to read (45_bulk_sequencer.md R221). -/
def Obligations.ReadAvailableResult : Prop :=
  ∀ (s : State) (maxLen : Word16), admitted s.params = true → s.devState.toNat < 6 →
    ((s.devState ≠ 5 ∨ s.bd.ep2Out.own = .hw) →
      exec (.readAvailable maxLen) s = .next { s with result := zeroResult }) ∧
    (∀ dest : List Byte, s.devState = 5 → s.bd.ep2Out.own = .fw → s.bd.ep2Out.en = true →
      s.bd.ep2Out.cnt.toNat ≤ bufCap s.params .ep2Out →
      dest.length = min maxLen.toNat s.bd.ep2Out.cnt.toNat → Holds s.buf (adr s.params .ep2Out) dest →
      exec (.readAvailable maxLen) s =
        .next { s with bd := ep2OutArmed s, result := countResult dest.length dest })

/-- WRITE_BYTES: at most EP2_MPS bytes staged in TX_BUF and their number reported; COUNT 0 with no change outside
Configured, while a packet is staged, or for no bytes (45_bulk_sequencer.md R222). -/
def Obligations.WriteBytesResult : Prop :=
  ∀ (s : State) (data : List Byte), admitted s.params = true → s.devState.toNat < 6 →
    ((s.devState ≠ 5 ∨ s.txPending = true ∨ data = []) →
      exec (.writeBytes data) s = .next { s with result := zeroResult }) ∧
    (s.devState = 5 → s.txPending = false → data ≠ [] →
      let n := min data.length s.params.ep2Mps
      ∃ t, exec (.writeBytes data) s = .next t ∧
        t = { s with txPending := true, txLen := BitVec.ofNat 7 n, buf := t.buf, result := countResult n [] } ∧
        t.txLen.toNat = n ∧ Stored s.buf t.buf (txBufAdr s.params) (data.take n))

/-- SERVICE_TX: a staged packet is armed on EP2IN when the previous one has gone; otherwise nothing
(45_bulk_sequencer.md R223). -/
def Obligations.ServiceTxResult : Prop :=
  ∀ s : State, admitted s.params = true → s.devState.toNat < 6 →
    ((s.devState ≠ 5 ∨ s.txPending = false ∨ s.bd.ep2In.own = .hw) →
      exec .serviceTx s = .next { s with result := zeroResult }) ∧
    (∀ data : List Byte, s.devState = 5 → s.txPending = true → s.bd.ep2In.own = .fw → s.bd.ep2In.en = true →
      s.txLen.toNat ≤ s.params.ep2Mps → data.length = s.txLen.toNat → Holds s.buf (txBufAdr s.params) data →
      ∃ t, exec .serviceTx s = .next t ∧
        t = { s with
              bd := { s.bd with ep2In := { s.bd.ep2In with own := .hw, cnt := BitVec.ofNat 11 data.length } }
              txPending := false
              buf := t.buf
              result := zeroResult } ∧
        Stored s.buf t.buf (adr s.params .ep2In) data)

/-- The rows of the application's command table, on a configured device with nothing staged (46_application.md R231). -/
def Obligations.ApplicationCommandTable : Prop :=
  ∀ s : State, admitted s.params = true → s.devState = 5 → s.txPending = false →
    let replied (led : Bool) (r : Byte) (t : State) : Prop :=
      t = { s with led := led, txPending := true, txLen := 1, buf := t.buf } ∧
      Stored s.buf t.buf (txBufAdr s.params) [r]
    (∃ t, exec .appLedOn s = .next t ∧ replied true 0x4E t) ∧
    (∃ t, exec .appLedOff s = .next t ∧ replied false 0x46 t) ∧
    (∃ t, exec .appLedStatus s = .next t ∧ replied s.led (if s.led = true then 0x31 else 0x30) t) ∧
    (∀ b : Byte, exec (.appUnrecognised b) s = .next s)

/-- APP_CMD: held while a reply is staged; otherwise one packet is read and its first byte is one command
(46_application.md R232, R234). -/
def Obligations.ApplicationStep : Prop :=
  ∀ s : State, admitted s.params = true → s.devState.toNat < 6 →
    ((s.txPending = true ∨ s.devState ≠ 5 ∨ s.bd.ep2Out.own = .hw) →
      exec .appCmd s = .next { s with result := zeroResult }) ∧
    (∀ packet : List Byte, s.txPending = false → s.devState = 5 → s.bd.ep2Out.own = .fw → s.bd.ep2Out.en = true →
      s.bd.ep2Out.cnt.toNat ≤ bufCap s.params .ep2Out →
      packet.length = min s.params.appReadMax s.bd.ep2Out.cnt.toNat → Holds s.buf (adr s.params .ep2Out) packet →
      let ignored := { s with bd := ep2OutArmed s, result := zeroResult }
      let replied (led : Bool) (r : Byte) : Prop :=
        ∃ t, exec .appCmd s = .next t ∧
          t = { s with bd := ep2OutArmed s, led := led, txPending := true, txLen := 1, buf := t.buf
                       result := zeroResult } ∧
          Stored s.buf t.buf (txBufAdr s.params) [r]
      (packet = [] → exec .appCmd s = .next ignored) ∧
      (∀ more, packet = 0x4F :: more → replied true 0x4E) ∧
      (∀ more, packet = 0x46 :: more → replied false 0x46) ∧
      (∀ more, packet = 0x53 :: more → replied s.led (if s.led = true then 0x31 else 0x30)) ∧
      (∀ b more, packet = b :: more → b ≠ 0x4F → b ≠ 0x46 → b ≠ 0x53 → exec .appCmd s = .next ignored))

/-! ## The whole machine -/

/-- The invariants hold after power-on reset with any admitted parameters (10_state.md R45). -/
def Obligations.InvariantsHoldAtPowerOn : Prop :=
  ∀ p : Params, admitted p = true → Inv (State.powerOn p)

/-- Every step from a state that meets the invariants answers a state that meets them, so it marks no model fault, or
stops because the agenda's entry is no step (10_state.md R45, 60_exceptions.md R250, R263; log 8). -/
def Obligations.EveryStepKeepsTheInvariants : Prop :=
  ∀ s : State, Inv s → (∃ t, step s = .next t ∧ Inv t) ∨ step s = .refused .notAStep

/-- DEV_STATE changes only as the transition table says, with the event of the table (40_device_state.md R120). -/
def Obligations.DeviceStateTransitions : Prop :=
  ∀ (s t : State) (i : Instr), Inv s → exec i s = .next t → t.devState ≠ s.devState →
    (i = .attach ∧ s.devState = 0 ∧ t.devState = 1) ∨
    (i = .power ∧ s.devState = 1 ∧ t.devState = 2) ∨
    (i = .detach ∧ t.devState = 0) ∨
    (i = .poll ∧ s.pendReset = true ∧ t.devState = 3) ∨
    ((i = .tokenEp0In ∨ i = .poll ∧ s.pendReset = false ∧ s.pendError = false ∧ s.tokq.head? = some 0x30) ∧
      s.ctx.stage = 3 ∧
      ((∃ a, s.ctx.action = .setAddress a ∧ a ≠ 0 ∧ s.devState = 3 ∧ t.devState = 4) ∨
       (s.ctx.action = .setAddress 0 ∧ s.devState = 4 ∧ t.devState = 3) ∨
       (s.ctx.action = .setConfig s.params.cfgValue ∧ s.devState = 4 ∧ t.devState = 5) ∨
       (s.ctx.action = .setConfig 0 ∧ s.devState = 5 ∧ t.devState = 4)))

/-- Endpoint enablement is written only by detach, bus reset processing, and a completed SET_CONFIGURATION
(40_device_state.md R132, 10_state.md R29); no instruction ever sets a data endpoint's stall flag (10_state.md R30, which
the spec derives from 41_control_transfer.md R147). -/
def Obligations.OnlyTransitionsEnableEndpoints : Prop :=
  ∀ (s t : State) (i : Instr), exec i s = .next t →
    ((∃ e : Entry, (t.bd.get e).en ≠ (s.bd.get e).en) →
      i = .detach ∨ (i = .poll ∧ s.pendReset = true) ∨
      (CompletesIn i s ∧ s.ctx.stage = 3 ∧ ∃ c, s.ctx.action = .setConfig c)) ∧
    ((t.bd.ep1In.stall = true → s.bd.ep1In.stall = true) ∧ (t.bd.ep2Out.stall = true → s.bd.ep2Out.stall = true) ∧
      (t.bd.ep2In.stall = true → s.bd.ep2In.stall = true))

/-- Who writes the address, the line coding, the LED and the parameters: DEV_ADDR only detach, bus reset processing and
a completed SET_ADDRESS (10_state.md R22); LINE_CODING only a completed SET_LINE_CODING (R20); LED only the
application (46_application.md R230); the descriptor ROM nothing (20_memory.md R64, R77). -/
def Obligations.WhoWritesWhat : Prop :=
  ∀ (s t : State) (i : Instr), exec i s = .next t →
    (t.devAddr ≠ s.devAddr → i = .detach ∨ (i = .poll ∧ s.pendReset = true) ∨
      (CompletesIn i s ∧ s.ctx.stage = 3 ∧ ∃ a, s.ctx.action = .setAddress a)) ∧
    (t.lineCoding ≠ s.lineCoding →
      CompletesIn i s ∧ s.ctx.stage = 3 ∧ s.ctx.action = .setLineCoding) ∧
    (t.led ≠ s.led → i = .appCmd ∨ i = .appLedOn ∨ i = .appLedOff) ∧
    t.params = s.params

/-- STALL_CAUSE has no effect on any other rule: a run that differs only in it goes on differing only in it
(10_state.md R41). -/
def Obligations.StallCauseHasNoEffect : Prop :=
  ∀ (s t : State) (i : Instr) (c : StallCause), exec i s = .next t →
    ∃ c', exec i { s with stallCause := c } = .next { t with stallCause := c' }

/-- drain ends in a quiescent state, within a bound computed from what is pending (30_encoding.md R109,
70_reset_and_hazards.md R287). -/
def Obligations.DrainEndsQuiescent : Prop :=
  ∀ s : State, Inv s → ∃ t, drain (drainBound s) s = .next t ∧ Inv t ∧
    t.sieIfReset = false ∧ t.sieIfError = false ∧ t.sieFifo = [] ∧ t.tokq = [] ∧ t.pendReset = false ∧
    t.pendError = false

/-! ## Parameters and pseudo-operations -/

/-- A parameter set is admitted exactly when it meets the conditions (a) to (g) of R13, the startup validation of R276
among them (00_scope.md R13, 70_reset_and_hazards.md R276). -/
def Obligations.AdmittedParameters : Prop :=
  ∀ p : Params, admitted p = true ↔ ParametersValid p

/-- A pseudo-operation stops at the step where a model fault is marked (30_encoding.md R109, 60_exceptions.md R250): in
a faulted state it takes no step, and drain takes none after a step that marks a fault, nor does a host step's drain and
what comes after it. -/
def Obligations.PseudoOperationsStopAtAFault : Prop :=
  (∀ (s : State) (f : Fault) (fuel : Nat) (S : SetupWord) (data : List Byte), s.faulted = some f →
    drain fuel s = .next s ∧ ctrlNoData fuel S s = .next s ∧ ctrlRead fuel S s = .next s ∧
    ctrlWrite fuel S data s = .next s) ∧
  (∀ (s t : State) (a : AgentStep) (f : Fault) (fuel : Nat), drainStep s = some a → runAgentStep a s = .next t →
    t.faulted = some f → drain (fuel + 1) s = .next t) ∧
  (∀ (s t u : State) (f : Fault) (fuel : Nat) (S : SetupWord) (data : List Byte), s.canStep = true →
    s.setupEnabled (setupBytes S) = true → exec (.sieSetup (setupBytes S)) s = .next t → drain fuel t = .next u →
    u.faulted = some f →
    ctrlNoData fuel S s = .next u ∧ ctrlRead fuel S s = .next u ∧ ctrlWrite fuel S data s = .next u)
end

