-- ==== Sys2Proof/Laws/State.lean ====
section
/-! SUPPORT. What each named update leaves in each field of State: one lemma per field and update. -/

namespace Sys2Proof.Machine

/-! ## setBd -/

@[simp] theorem setBd_params (e : Entry) (b : BdStat) (s : State) : (setBd e b s).params = s.params := rfl
@[simp] theorem setBd_devState (e : Entry) (b : BdStat) (s : State) : (setBd e b s).devState = s.devState := rfl
@[simp] theorem setBd_devAddr (e : Entry) (b : BdStat) (s : State) : (setBd e b s).devAddr = s.devAddr := rfl
@[simp] theorem setBd_activeCfg (e : Entry) (b : BdStat) (s : State) : (setBd e b s).activeCfg = s.activeCfg := rfl
@[simp] theorem setBd_bd (e : Entry) (b : BdStat) (s : State) : (setBd e b s).bd = s.bd.set e b := rfl
@[simp] theorem setBd_ctx (e : Entry) (b : BdStat) (s : State) : (setBd e b s).ctx = s.ctx := rfl
@[simp] theorem setBd_lineCoding (e : Entry) (b : BdStat) (s : State) : (setBd e b s).lineCoding = s.lineCoding := rfl
@[simp] theorem setBd_txPending (e : Entry) (b : BdStat) (s : State) : (setBd e b s).txPending = s.txPending := rfl
@[simp] theorem setBd_txLen (e : Entry) (b : BdStat) (s : State) : (setBd e b s).txLen = s.txLen := rfl
@[simp] theorem setBd_pendReset (e : Entry) (b : BdStat) (s : State) : (setBd e b s).pendReset = s.pendReset := rfl
@[simp] theorem setBd_pendError (e : Entry) (b : BdStat) (s : State) : (setBd e b s).pendError = s.pendError := rfl
@[simp] theorem setBd_tokq (e : Entry) (b : BdStat) (s : State) : (setBd e b s).tokq = s.tokq := rfl
@[simp] theorem setBd_sieIfReset (e : Entry) (b : BdStat) (s : State) : (setBd e b s).sieIfReset = s.sieIfReset := rfl
@[simp] theorem setBd_sieIfError (e : Entry) (b : BdStat) (s : State) : (setBd e b s).sieIfError = s.sieIfError := rfl
@[simp] theorem setBd_sieFifo (e : Entry) (b : BdStat) (s : State) : (setBd e b s).sieFifo = s.sieFifo := rfl
@[simp] theorem setBd_setupLock (e : Entry) (b : BdStat) (s : State) : (setBd e b s).setupLock = s.setupLock := rfl
@[simp] theorem setBd_stallCause (e : Entry) (b : BdStat) (s : State) : (setBd e b s).stallCause = s.stallCause := rfl
@[simp] theorem setBd_buf (e : Entry) (b : BdStat) (s : State) : (setBd e b s).buf = s.buf := rfl
@[simp] theorem setBd_led (e : Entry) (b : BdStat) (s : State) : (setBd e b s).led = s.led := rfl
@[simp] theorem setBd_faulted (e : Entry) (b : BdStat) (s : State) : (setBd e b s).faulted = s.faulted := rfl
@[simp] theorem setBd_refused (e : Entry) (b : BdStat) (s : State) : (setBd e b s).refused = s.refused := rfl
@[simp] theorem setBd_result (e : Entry) (b : BdStat) (s : State) : (setBd e b s).result = s.result := rfl
@[simp] theorem setBd_hostSees (e : Entry) (b : BdStat) (s : State) : (setBd e b s).hostSees = s.hostSees := rfl
@[simp] theorem setBd_answer (e : Entry) (b : BdStat) (s : State) : (setBd e b s).answer = s.answer := rfl
@[simp] theorem setBd_agenda (e : Entry) (b : BdStat) (s : State) : (setBd e b s).agenda = s.agenda := rfl
@[simp] theorem setBd_slot (e : Entry) (b : BdStat) (s : State) : (setBd e b s).slot = s.slot := rfl

/-! ## setCtx -/

@[simp] theorem setCtx_params (c : Ctx) (s : State) : (setCtx c s).params = s.params := rfl
@[simp] theorem setCtx_devState (c : Ctx) (s : State) : (setCtx c s).devState = s.devState := rfl
@[simp] theorem setCtx_devAddr (c : Ctx) (s : State) : (setCtx c s).devAddr = s.devAddr := rfl
@[simp] theorem setCtx_activeCfg (c : Ctx) (s : State) : (setCtx c s).activeCfg = s.activeCfg := rfl
@[simp] theorem setCtx_bd (c : Ctx) (s : State) : (setCtx c s).bd = s.bd := rfl
@[simp] theorem setCtx_ctx (c : Ctx) (s : State) : (setCtx c s).ctx = c := rfl
@[simp] theorem setCtx_lineCoding (c : Ctx) (s : State) : (setCtx c s).lineCoding = s.lineCoding := rfl
@[simp] theorem setCtx_txPending (c : Ctx) (s : State) : (setCtx c s).txPending = s.txPending := rfl
@[simp] theorem setCtx_txLen (c : Ctx) (s : State) : (setCtx c s).txLen = s.txLen := rfl
@[simp] theorem setCtx_pendReset (c : Ctx) (s : State) : (setCtx c s).pendReset = s.pendReset := rfl
@[simp] theorem setCtx_pendError (c : Ctx) (s : State) : (setCtx c s).pendError = s.pendError := rfl
@[simp] theorem setCtx_tokq (c : Ctx) (s : State) : (setCtx c s).tokq = s.tokq := rfl
@[simp] theorem setCtx_sieIfReset (c : Ctx) (s : State) : (setCtx c s).sieIfReset = s.sieIfReset := rfl
@[simp] theorem setCtx_sieIfError (c : Ctx) (s : State) : (setCtx c s).sieIfError = s.sieIfError := rfl
@[simp] theorem setCtx_sieFifo (c : Ctx) (s : State) : (setCtx c s).sieFifo = s.sieFifo := rfl
@[simp] theorem setCtx_setupLock (c : Ctx) (s : State) : (setCtx c s).setupLock = s.setupLock := rfl
@[simp] theorem setCtx_stallCause (c : Ctx) (s : State) : (setCtx c s).stallCause = s.stallCause := rfl
@[simp] theorem setCtx_buf (c : Ctx) (s : State) : (setCtx c s).buf = s.buf := rfl
@[simp] theorem setCtx_led (c : Ctx) (s : State) : (setCtx c s).led = s.led := rfl
@[simp] theorem setCtx_faulted (c : Ctx) (s : State) : (setCtx c s).faulted = s.faulted := rfl
@[simp] theorem setCtx_refused (c : Ctx) (s : State) : (setCtx c s).refused = s.refused := rfl
@[simp] theorem setCtx_result (c : Ctx) (s : State) : (setCtx c s).result = s.result := rfl
@[simp] theorem setCtx_hostSees (c : Ctx) (s : State) : (setCtx c s).hostSees = s.hostSees := rfl
@[simp] theorem setCtx_answer (c : Ctx) (s : State) : (setCtx c s).answer = s.answer := rfl
@[simp] theorem setCtx_agenda (c : Ctx) (s : State) : (setCtx c s).agenda = s.agenda := rfl
@[simp] theorem setCtx_slot (c : Ctx) (s : State) : (setCtx c s).slot = s.slot := rfl

/-! ## setEp0Stall -/

@[simp] theorem setEp0Stall_params (v : Bool) (s : State) : (setEp0Stall v s).params = s.params := rfl
@[simp] theorem setEp0Stall_devState (v : Bool) (s : State) : (setEp0Stall v s).devState = s.devState := rfl
@[simp] theorem setEp0Stall_devAddr (v : Bool) (s : State) : (setEp0Stall v s).devAddr = s.devAddr := rfl
@[simp] theorem setEp0Stall_activeCfg (v : Bool) (s : State) : (setEp0Stall v s).activeCfg = s.activeCfg := rfl
@[simp] theorem setEp0Stall_ctx (v : Bool) (s : State) : (setEp0Stall v s).ctx = s.ctx := rfl
@[simp] theorem setEp0Stall_lineCoding (v : Bool) (s : State) : (setEp0Stall v s).lineCoding = s.lineCoding := rfl
@[simp] theorem setEp0Stall_txPending (v : Bool) (s : State) : (setEp0Stall v s).txPending = s.txPending := rfl
@[simp] theorem setEp0Stall_txLen (v : Bool) (s : State) : (setEp0Stall v s).txLen = s.txLen := rfl
@[simp] theorem setEp0Stall_pendReset (v : Bool) (s : State) : (setEp0Stall v s).pendReset = s.pendReset := rfl
@[simp] theorem setEp0Stall_pendError (v : Bool) (s : State) : (setEp0Stall v s).pendError = s.pendError := rfl
@[simp] theorem setEp0Stall_tokq (v : Bool) (s : State) : (setEp0Stall v s).tokq = s.tokq := rfl
@[simp] theorem setEp0Stall_sieIfReset (v : Bool) (s : State) : (setEp0Stall v s).sieIfReset = s.sieIfReset := rfl
@[simp] theorem setEp0Stall_sieIfError (v : Bool) (s : State) : (setEp0Stall v s).sieIfError = s.sieIfError := rfl
@[simp] theorem setEp0Stall_sieFifo (v : Bool) (s : State) : (setEp0Stall v s).sieFifo = s.sieFifo := rfl
@[simp] theorem setEp0Stall_setupLock (v : Bool) (s : State) : (setEp0Stall v s).setupLock = s.setupLock := rfl
@[simp] theorem setEp0Stall_stallCause (v : Bool) (s : State) : (setEp0Stall v s).stallCause = s.stallCause := rfl
@[simp] theorem setEp0Stall_buf (v : Bool) (s : State) : (setEp0Stall v s).buf = s.buf := rfl
@[simp] theorem setEp0Stall_led (v : Bool) (s : State) : (setEp0Stall v s).led = s.led := rfl
@[simp] theorem setEp0Stall_faulted (v : Bool) (s : State) : (setEp0Stall v s).faulted = s.faulted := rfl
@[simp] theorem setEp0Stall_refused (v : Bool) (s : State) : (setEp0Stall v s).refused = s.refused := rfl
@[simp] theorem setEp0Stall_result (v : Bool) (s : State) : (setEp0Stall v s).result = s.result := rfl
@[simp] theorem setEp0Stall_hostSees (v : Bool) (s : State) : (setEp0Stall v s).hostSees = s.hostSees := rfl
@[simp] theorem setEp0Stall_answer (v : Bool) (s : State) : (setEp0Stall v s).answer = s.answer := rfl
@[simp] theorem setEp0Stall_agenda (v : Bool) (s : State) : (setEp0Stall v s).agenda = s.agenda := rfl
@[simp] theorem setEp0Stall_slot (v : Bool) (s : State) : (setEp0Stall v s).slot = s.slot := rfl

/-! ## memWrite -/

@[simp] theorem memWrite_params (s : State) (area : Area) (bytes : List Byte) : (memWrite s area bytes).params = s.params := rfl
@[simp] theorem memWrite_devState (s : State) (area : Area) (bytes : List Byte) : (memWrite s area bytes).devState = s.devState := rfl
@[simp] theorem memWrite_devAddr (s : State) (area : Area) (bytes : List Byte) : (memWrite s area bytes).devAddr = s.devAddr := rfl
@[simp] theorem memWrite_activeCfg (s : State) (area : Area) (bytes : List Byte) : (memWrite s area bytes).activeCfg = s.activeCfg := rfl
@[simp] theorem memWrite_bd (s : State) (area : Area) (bytes : List Byte) : (memWrite s area bytes).bd = s.bd := rfl
@[simp] theorem memWrite_ctx (s : State) (area : Area) (bytes : List Byte) : (memWrite s area bytes).ctx = s.ctx := rfl
@[simp] theorem memWrite_lineCoding (s : State) (area : Area) (bytes : List Byte) : (memWrite s area bytes).lineCoding = s.lineCoding := rfl
@[simp] theorem memWrite_txPending (s : State) (area : Area) (bytes : List Byte) : (memWrite s area bytes).txPending = s.txPending := rfl
@[simp] theorem memWrite_txLen (s : State) (area : Area) (bytes : List Byte) : (memWrite s area bytes).txLen = s.txLen := rfl
@[simp] theorem memWrite_pendReset (s : State) (area : Area) (bytes : List Byte) : (memWrite s area bytes).pendReset = s.pendReset := rfl
@[simp] theorem memWrite_pendError (s : State) (area : Area) (bytes : List Byte) : (memWrite s area bytes).pendError = s.pendError := rfl
@[simp] theorem memWrite_tokq (s : State) (area : Area) (bytes : List Byte) : (memWrite s area bytes).tokq = s.tokq := rfl
@[simp] theorem memWrite_sieIfReset (s : State) (area : Area) (bytes : List Byte) : (memWrite s area bytes).sieIfReset = s.sieIfReset := rfl
@[simp] theorem memWrite_sieIfError (s : State) (area : Area) (bytes : List Byte) : (memWrite s area bytes).sieIfError = s.sieIfError := rfl
@[simp] theorem memWrite_sieFifo (s : State) (area : Area) (bytes : List Byte) : (memWrite s area bytes).sieFifo = s.sieFifo := rfl
@[simp] theorem memWrite_setupLock (s : State) (area : Area) (bytes : List Byte) : (memWrite s area bytes).setupLock = s.setupLock := rfl
@[simp] theorem memWrite_stallCause (s : State) (area : Area) (bytes : List Byte) : (memWrite s area bytes).stallCause = s.stallCause := rfl
@[simp] theorem memWrite_buf (s : State) (area : Area) (bytes : List Byte) : (memWrite s area bytes).buf = s.buf.writeBytes (areaBase s.params area) bytes := rfl
@[simp] theorem memWrite_led (s : State) (area : Area) (bytes : List Byte) : (memWrite s area bytes).led = s.led := rfl
@[simp] theorem memWrite_faulted (s : State) (area : Area) (bytes : List Byte) : (memWrite s area bytes).faulted = s.faulted := rfl
@[simp] theorem memWrite_refused (s : State) (area : Area) (bytes : List Byte) : (memWrite s area bytes).refused = s.refused := rfl
@[simp] theorem memWrite_result (s : State) (area : Area) (bytes : List Byte) : (memWrite s area bytes).result = s.result := rfl
@[simp] theorem memWrite_hostSees (s : State) (area : Area) (bytes : List Byte) : (memWrite s area bytes).hostSees = s.hostSees := rfl
@[simp] theorem memWrite_answer (s : State) (area : Area) (bytes : List Byte) : (memWrite s area bytes).answer = s.answer := rfl
@[simp] theorem memWrite_agenda (s : State) (area : Area) (bytes : List Byte) : (memWrite s area bytes).agenda = s.agenda := rfl
@[simp] theorem memWrite_slot (s : State) (area : Area) (bytes : List Byte) : (memWrite s area bytes).slot = s.slot := rfl

/-! ## clearTx -/

@[simp] theorem clearTx_params (s : State) : (clearTx s).params = s.params := rfl
@[simp] theorem clearTx_devState (s : State) : (clearTx s).devState = s.devState := rfl
@[simp] theorem clearTx_devAddr (s : State) : (clearTx s).devAddr = s.devAddr := rfl
@[simp] theorem clearTx_activeCfg (s : State) : (clearTx s).activeCfg = s.activeCfg := rfl
@[simp] theorem clearTx_bd (s : State) : (clearTx s).bd = s.bd := rfl
@[simp] theorem clearTx_ctx (s : State) : (clearTx s).ctx = s.ctx := rfl
@[simp] theorem clearTx_lineCoding (s : State) : (clearTx s).lineCoding = s.lineCoding := rfl
@[simp] theorem clearTx_txPending (s : State) : (clearTx s).txPending = false := rfl
@[simp] theorem clearTx_txLen (s : State) : (clearTx s).txLen = 0 := rfl
@[simp] theorem clearTx_pendReset (s : State) : (clearTx s).pendReset = s.pendReset := rfl
@[simp] theorem clearTx_pendError (s : State) : (clearTx s).pendError = s.pendError := rfl
@[simp] theorem clearTx_tokq (s : State) : (clearTx s).tokq = s.tokq := rfl
@[simp] theorem clearTx_sieIfReset (s : State) : (clearTx s).sieIfReset = s.sieIfReset := rfl
@[simp] theorem clearTx_sieIfError (s : State) : (clearTx s).sieIfError = s.sieIfError := rfl
@[simp] theorem clearTx_sieFifo (s : State) : (clearTx s).sieFifo = s.sieFifo := rfl
@[simp] theorem clearTx_setupLock (s : State) : (clearTx s).setupLock = s.setupLock := rfl
@[simp] theorem clearTx_stallCause (s : State) : (clearTx s).stallCause = s.stallCause := rfl
@[simp] theorem clearTx_buf (s : State) : (clearTx s).buf = s.buf := rfl
@[simp] theorem clearTx_led (s : State) : (clearTx s).led = s.led := rfl
@[simp] theorem clearTx_faulted (s : State) : (clearTx s).faulted = s.faulted := rfl
@[simp] theorem clearTx_refused (s : State) : (clearTx s).refused = s.refused := rfl
@[simp] theorem clearTx_result (s : State) : (clearTx s).result = s.result := rfl
@[simp] theorem clearTx_hostSees (s : State) : (clearTx s).hostSees = s.hostSees := rfl
@[simp] theorem clearTx_answer (s : State) : (clearTx s).answer = s.answer := rfl
@[simp] theorem clearTx_agenda (s : State) : (clearTx s).agenda = s.agenda := rfl
@[simp] theorem clearTx_slot (s : State) : (clearTx s).slot = s.slot := rfl

/-! ## takeFault -/

@[simp] theorem takeFault_params (f : Fault) (s : State) : (takeFault f s).params = s.params := rfl
@[simp] theorem takeFault_devState (f : Fault) (s : State) : (takeFault f s).devState = s.devState := rfl
@[simp] theorem takeFault_devAddr (f : Fault) (s : State) : (takeFault f s).devAddr = s.devAddr := rfl
@[simp] theorem takeFault_activeCfg (f : Fault) (s : State) : (takeFault f s).activeCfg = s.activeCfg := rfl
@[simp] theorem takeFault_bd (f : Fault) (s : State) : (takeFault f s).bd = s.bd := rfl
@[simp] theorem takeFault_ctx (f : Fault) (s : State) : (takeFault f s).ctx = s.ctx := rfl
@[simp] theorem takeFault_lineCoding (f : Fault) (s : State) : (takeFault f s).lineCoding = s.lineCoding := rfl
@[simp] theorem takeFault_txPending (f : Fault) (s : State) : (takeFault f s).txPending = s.txPending := rfl
@[simp] theorem takeFault_txLen (f : Fault) (s : State) : (takeFault f s).txLen = s.txLen := rfl
@[simp] theorem takeFault_pendReset (f : Fault) (s : State) : (takeFault f s).pendReset = s.pendReset := rfl
@[simp] theorem takeFault_pendError (f : Fault) (s : State) : (takeFault f s).pendError = s.pendError := rfl
@[simp] theorem takeFault_tokq (f : Fault) (s : State) : (takeFault f s).tokq = s.tokq := rfl
@[simp] theorem takeFault_sieIfReset (f : Fault) (s : State) : (takeFault f s).sieIfReset = s.sieIfReset := rfl
@[simp] theorem takeFault_sieIfError (f : Fault) (s : State) : (takeFault f s).sieIfError = s.sieIfError := rfl
@[simp] theorem takeFault_sieFifo (f : Fault) (s : State) : (takeFault f s).sieFifo = s.sieFifo := rfl
@[simp] theorem takeFault_setupLock (f : Fault) (s : State) : (takeFault f s).setupLock = s.setupLock := rfl
@[simp] theorem takeFault_stallCause (f : Fault) (s : State) : (takeFault f s).stallCause = s.stallCause := rfl
@[simp] theorem takeFault_buf (f : Fault) (s : State) : (takeFault f s).buf = s.buf := rfl
@[simp] theorem takeFault_led (f : Fault) (s : State) : (takeFault f s).led = s.led := rfl
@[simp] theorem takeFault_refused (f : Fault) (s : State) : (takeFault f s).refused = s.refused := rfl
@[simp] theorem takeFault_result (f : Fault) (s : State) : (takeFault f s).result = s.result := rfl
@[simp] theorem takeFault_hostSees (f : Fault) (s : State) : (takeFault f s).hostSees = s.hostSees := rfl
@[simp] theorem takeFault_answer (f : Fault) (s : State) : (takeFault f s).answer = s.answer := rfl
@[simp] theorem takeFault_agenda (f : Fault) (s : State) : (takeFault f s).agenda = s.agenda := rfl
@[simp] theorem takeFault_slot (f : Fault) (s : State) : (takeFault f s).slot = s.slot := rfl

/-! ## refuseCommand -/

@[simp] theorem refuseCommand_params (r : CommandRefusal) (s : State) : (refuseCommand r s).params = s.params := rfl
@[simp] theorem refuseCommand_devState (r : CommandRefusal) (s : State) : (refuseCommand r s).devState = s.devState := rfl
@[simp] theorem refuseCommand_devAddr (r : CommandRefusal) (s : State) : (refuseCommand r s).devAddr = s.devAddr := rfl
@[simp] theorem refuseCommand_activeCfg (r : CommandRefusal) (s : State) : (refuseCommand r s).activeCfg = s.activeCfg := rfl
@[simp] theorem refuseCommand_bd (r : CommandRefusal) (s : State) : (refuseCommand r s).bd = s.bd := rfl
@[simp] theorem refuseCommand_ctx (r : CommandRefusal) (s : State) : (refuseCommand r s).ctx = s.ctx := rfl
@[simp] theorem refuseCommand_lineCoding (r : CommandRefusal) (s : State) : (refuseCommand r s).lineCoding = s.lineCoding := rfl
@[simp] theorem refuseCommand_txPending (r : CommandRefusal) (s : State) : (refuseCommand r s).txPending = s.txPending := rfl
@[simp] theorem refuseCommand_txLen (r : CommandRefusal) (s : State) : (refuseCommand r s).txLen = s.txLen := rfl
@[simp] theorem refuseCommand_pendReset (r : CommandRefusal) (s : State) : (refuseCommand r s).pendReset = s.pendReset := rfl
@[simp] theorem refuseCommand_pendError (r : CommandRefusal) (s : State) : (refuseCommand r s).pendError = s.pendError := rfl
@[simp] theorem refuseCommand_tokq (r : CommandRefusal) (s : State) : (refuseCommand r s).tokq = s.tokq := rfl
@[simp] theorem refuseCommand_sieIfReset (r : CommandRefusal) (s : State) : (refuseCommand r s).sieIfReset = s.sieIfReset := rfl
@[simp] theorem refuseCommand_sieIfError (r : CommandRefusal) (s : State) : (refuseCommand r s).sieIfError = s.sieIfError := rfl
@[simp] theorem refuseCommand_sieFifo (r : CommandRefusal) (s : State) : (refuseCommand r s).sieFifo = s.sieFifo := rfl
@[simp] theorem refuseCommand_setupLock (r : CommandRefusal) (s : State) : (refuseCommand r s).setupLock = s.setupLock := rfl
@[simp] theorem refuseCommand_stallCause (r : CommandRefusal) (s : State) : (refuseCommand r s).stallCause = s.stallCause := rfl
@[simp] theorem refuseCommand_buf (r : CommandRefusal) (s : State) : (refuseCommand r s).buf = s.buf := rfl
@[simp] theorem refuseCommand_led (r : CommandRefusal) (s : State) : (refuseCommand r s).led = s.led := rfl
@[simp] theorem refuseCommand_faulted (r : CommandRefusal) (s : State) : (refuseCommand r s).faulted = s.faulted := rfl
@[simp] theorem refuseCommand_result (r : CommandRefusal) (s : State) : (refuseCommand r s).result = none := rfl
@[simp] theorem refuseCommand_hostSees (r : CommandRefusal) (s : State) : (refuseCommand r s).hostSees = s.hostSees := rfl
@[simp] theorem refuseCommand_answer (r : CommandRefusal) (s : State) : (refuseCommand r s).answer = s.answer := rfl
@[simp] theorem refuseCommand_agenda (r : CommandRefusal) (s : State) : (refuseCommand r s).agenda = s.agenda := rfl
@[simp] theorem refuseCommand_slot (r : CommandRefusal) (s : State) : (refuseCommand r s).slot = s.slot := rfl

/-! ## setResult -/

@[simp] theorem setResult_params (n : Nat) (b : Bool) (bytes : List Byte) (s : State) : (setResult n b bytes s).params = s.params := rfl
@[simp] theorem setResult_devState (n : Nat) (b : Bool) (bytes : List Byte) (s : State) : (setResult n b bytes s).devState = s.devState := rfl
@[simp] theorem setResult_devAddr (n : Nat) (b : Bool) (bytes : List Byte) (s : State) : (setResult n b bytes s).devAddr = s.devAddr := rfl
@[simp] theorem setResult_activeCfg (n : Nat) (b : Bool) (bytes : List Byte) (s : State) : (setResult n b bytes s).activeCfg = s.activeCfg := rfl
@[simp] theorem setResult_bd (n : Nat) (b : Bool) (bytes : List Byte) (s : State) : (setResult n b bytes s).bd = s.bd := rfl
@[simp] theorem setResult_ctx (n : Nat) (b : Bool) (bytes : List Byte) (s : State) : (setResult n b bytes s).ctx = s.ctx := rfl
@[simp] theorem setResult_lineCoding (n : Nat) (b : Bool) (bytes : List Byte) (s : State) : (setResult n b bytes s).lineCoding = s.lineCoding := rfl
@[simp] theorem setResult_txPending (n : Nat) (b : Bool) (bytes : List Byte) (s : State) : (setResult n b bytes s).txPending = s.txPending := rfl
@[simp] theorem setResult_txLen (n : Nat) (b : Bool) (bytes : List Byte) (s : State) : (setResult n b bytes s).txLen = s.txLen := rfl
@[simp] theorem setResult_pendReset (n : Nat) (b : Bool) (bytes : List Byte) (s : State) : (setResult n b bytes s).pendReset = s.pendReset := rfl
@[simp] theorem setResult_pendError (n : Nat) (b : Bool) (bytes : List Byte) (s : State) : (setResult n b bytes s).pendError = s.pendError := rfl
@[simp] theorem setResult_tokq (n : Nat) (b : Bool) (bytes : List Byte) (s : State) : (setResult n b bytes s).tokq = s.tokq := rfl
@[simp] theorem setResult_sieIfReset (n : Nat) (b : Bool) (bytes : List Byte) (s : State) : (setResult n b bytes s).sieIfReset = s.sieIfReset := rfl
@[simp] theorem setResult_sieIfError (n : Nat) (b : Bool) (bytes : List Byte) (s : State) : (setResult n b bytes s).sieIfError = s.sieIfError := rfl
@[simp] theorem setResult_sieFifo (n : Nat) (b : Bool) (bytes : List Byte) (s : State) : (setResult n b bytes s).sieFifo = s.sieFifo := rfl
@[simp] theorem setResult_setupLock (n : Nat) (b : Bool) (bytes : List Byte) (s : State) : (setResult n b bytes s).setupLock = s.setupLock := rfl
@[simp] theorem setResult_stallCause (n : Nat) (b : Bool) (bytes : List Byte) (s : State) : (setResult n b bytes s).stallCause = s.stallCause := rfl
@[simp] theorem setResult_buf (n : Nat) (b : Bool) (bytes : List Byte) (s : State) : (setResult n b bytes s).buf = s.buf := rfl
@[simp] theorem setResult_led (n : Nat) (b : Bool) (bytes : List Byte) (s : State) : (setResult n b bytes s).led = s.led := rfl
@[simp] theorem setResult_faulted (n : Nat) (b : Bool) (bytes : List Byte) (s : State) : (setResult n b bytes s).faulted = s.faulted := rfl
@[simp] theorem setResult_refused (n : Nat) (b : Bool) (bytes : List Byte) (s : State) : (setResult n b bytes s).refused = s.refused := rfl
@[simp] theorem setResult_result (n : Nat) (b : Bool) (bytes : List Byte) (s : State) : (setResult n b bytes s).result = some { word := resultWord n b, bytes := bytes } := rfl
@[simp] theorem setResult_hostSees (n : Nat) (b : Bool) (bytes : List Byte) (s : State) : (setResult n b bytes s).hostSees = s.hostSees := rfl
@[simp] theorem setResult_answer (n : Nat) (b : Bool) (bytes : List Byte) (s : State) : (setResult n b bytes s).answer = s.answer := rfl
@[simp] theorem setResult_agenda (n : Nat) (b : Bool) (bytes : List Byte) (s : State) : (setResult n b bytes s).agenda = s.agenda := rfl
@[simp] theorem setResult_slot (n : Nat) (b : Bool) (bytes : List Byte) (s : State) : (setResult n b bytes s).slot = s.slot := rfl

/-! ## reclaim -/

@[simp] theorem reclaim_params (e : Entry) (s : State) : (reclaim e s).params = s.params := rfl
@[simp] theorem reclaim_devState (e : Entry) (s : State) : (reclaim e s).devState = s.devState := rfl
@[simp] theorem reclaim_devAddr (e : Entry) (s : State) : (reclaim e s).devAddr = s.devAddr := rfl
@[simp] theorem reclaim_activeCfg (e : Entry) (s : State) : (reclaim e s).activeCfg = s.activeCfg := rfl
@[simp] theorem reclaim_ctx (e : Entry) (s : State) : (reclaim e s).ctx = s.ctx := rfl
@[simp] theorem reclaim_lineCoding (e : Entry) (s : State) : (reclaim e s).lineCoding = s.lineCoding := rfl
@[simp] theorem reclaim_txPending (e : Entry) (s : State) : (reclaim e s).txPending = s.txPending := rfl
@[simp] theorem reclaim_txLen (e : Entry) (s : State) : (reclaim e s).txLen = s.txLen := rfl
@[simp] theorem reclaim_pendReset (e : Entry) (s : State) : (reclaim e s).pendReset = s.pendReset := rfl
@[simp] theorem reclaim_pendError (e : Entry) (s : State) : (reclaim e s).pendError = s.pendError := rfl
@[simp] theorem reclaim_tokq (e : Entry) (s : State) : (reclaim e s).tokq = s.tokq := rfl
@[simp] theorem reclaim_sieIfReset (e : Entry) (s : State) : (reclaim e s).sieIfReset = s.sieIfReset := rfl
@[simp] theorem reclaim_sieIfError (e : Entry) (s : State) : (reclaim e s).sieIfError = s.sieIfError := rfl
@[simp] theorem reclaim_sieFifo (e : Entry) (s : State) : (reclaim e s).sieFifo = s.sieFifo := rfl
@[simp] theorem reclaim_setupLock (e : Entry) (s : State) : (reclaim e s).setupLock = s.setupLock := rfl
@[simp] theorem reclaim_stallCause (e : Entry) (s : State) : (reclaim e s).stallCause = s.stallCause := rfl
@[simp] theorem reclaim_buf (e : Entry) (s : State) : (reclaim e s).buf = s.buf := rfl
@[simp] theorem reclaim_led (e : Entry) (s : State) : (reclaim e s).led = s.led := rfl
@[simp] theorem reclaim_faulted (e : Entry) (s : State) : (reclaim e s).faulted = s.faulted := rfl
@[simp] theorem reclaim_refused (e : Entry) (s : State) : (reclaim e s).refused = s.refused := rfl
@[simp] theorem reclaim_result (e : Entry) (s : State) : (reclaim e s).result = s.result := rfl
@[simp] theorem reclaim_hostSees (e : Entry) (s : State) : (reclaim e s).hostSees = s.hostSees := rfl
@[simp] theorem reclaim_answer (e : Entry) (s : State) : (reclaim e s).answer = s.answer := rfl
@[simp] theorem reclaim_agenda (e : Entry) (s : State) : (reclaim e s).agenda = s.agenda := rfl
@[simp] theorem reclaim_slot (e : Entry) (s : State) : (reclaim e s).slot = s.slot := rfl

/-! ## enable -/

@[simp] theorem enable_params (e : Entry) (s : State) : (enable e s).params = s.params := rfl
@[simp] theorem enable_devState (e : Entry) (s : State) : (enable e s).devState = s.devState := rfl
@[simp] theorem enable_devAddr (e : Entry) (s : State) : (enable e s).devAddr = s.devAddr := rfl
@[simp] theorem enable_activeCfg (e : Entry) (s : State) : (enable e s).activeCfg = s.activeCfg := rfl
@[simp] theorem enable_ctx (e : Entry) (s : State) : (enable e s).ctx = s.ctx := rfl
@[simp] theorem enable_lineCoding (e : Entry) (s : State) : (enable e s).lineCoding = s.lineCoding := rfl
@[simp] theorem enable_txPending (e : Entry) (s : State) : (enable e s).txPending = s.txPending := rfl
@[simp] theorem enable_txLen (e : Entry) (s : State) : (enable e s).txLen = s.txLen := rfl
@[simp] theorem enable_pendReset (e : Entry) (s : State) : (enable e s).pendReset = s.pendReset := rfl
@[simp] theorem enable_pendError (e : Entry) (s : State) : (enable e s).pendError = s.pendError := rfl
@[simp] theorem enable_tokq (e : Entry) (s : State) : (enable e s).tokq = s.tokq := rfl
@[simp] theorem enable_sieIfReset (e : Entry) (s : State) : (enable e s).sieIfReset = s.sieIfReset := rfl
@[simp] theorem enable_sieIfError (e : Entry) (s : State) : (enable e s).sieIfError = s.sieIfError := rfl
@[simp] theorem enable_sieFifo (e : Entry) (s : State) : (enable e s).sieFifo = s.sieFifo := rfl
@[simp] theorem enable_setupLock (e : Entry) (s : State) : (enable e s).setupLock = s.setupLock := rfl
@[simp] theorem enable_stallCause (e : Entry) (s : State) : (enable e s).stallCause = s.stallCause := rfl
@[simp] theorem enable_buf (e : Entry) (s : State) : (enable e s).buf = s.buf := rfl
@[simp] theorem enable_led (e : Entry) (s : State) : (enable e s).led = s.led := rfl
@[simp] theorem enable_faulted (e : Entry) (s : State) : (enable e s).faulted = s.faulted := rfl
@[simp] theorem enable_refused (e : Entry) (s : State) : (enable e s).refused = s.refused := rfl
@[simp] theorem enable_result (e : Entry) (s : State) : (enable e s).result = s.result := rfl
@[simp] theorem enable_hostSees (e : Entry) (s : State) : (enable e s).hostSees = s.hostSees := rfl
@[simp] theorem enable_answer (e : Entry) (s : State) : (enable e s).answer = s.answer := rfl
@[simp] theorem enable_agenda (e : Entry) (s : State) : (enable e s).agenda = s.agenda := rfl
@[simp] theorem enable_slot (e : Entry) (s : State) : (enable e s).slot = s.slot := rfl

/-! ## disable -/

@[simp] theorem disable_params (e : Entry) (s : State) : (disable e s).params = s.params := rfl
@[simp] theorem disable_devState (e : Entry) (s : State) : (disable e s).devState = s.devState := rfl
@[simp] theorem disable_devAddr (e : Entry) (s : State) : (disable e s).devAddr = s.devAddr := rfl
@[simp] theorem disable_activeCfg (e : Entry) (s : State) : (disable e s).activeCfg = s.activeCfg := rfl
@[simp] theorem disable_ctx (e : Entry) (s : State) : (disable e s).ctx = s.ctx := rfl
@[simp] theorem disable_lineCoding (e : Entry) (s : State) : (disable e s).lineCoding = s.lineCoding := rfl
@[simp] theorem disable_txPending (e : Entry) (s : State) : (disable e s).txPending = s.txPending := rfl
@[simp] theorem disable_txLen (e : Entry) (s : State) : (disable e s).txLen = s.txLen := rfl
@[simp] theorem disable_pendReset (e : Entry) (s : State) : (disable e s).pendReset = s.pendReset := rfl
@[simp] theorem disable_pendError (e : Entry) (s : State) : (disable e s).pendError = s.pendError := rfl
@[simp] theorem disable_tokq (e : Entry) (s : State) : (disable e s).tokq = s.tokq := rfl
@[simp] theorem disable_sieIfReset (e : Entry) (s : State) : (disable e s).sieIfReset = s.sieIfReset := rfl
@[simp] theorem disable_sieIfError (e : Entry) (s : State) : (disable e s).sieIfError = s.sieIfError := rfl
@[simp] theorem disable_sieFifo (e : Entry) (s : State) : (disable e s).sieFifo = s.sieFifo := rfl
@[simp] theorem disable_setupLock (e : Entry) (s : State) : (disable e s).setupLock = s.setupLock := rfl
@[simp] theorem disable_stallCause (e : Entry) (s : State) : (disable e s).stallCause = s.stallCause := rfl
@[simp] theorem disable_buf (e : Entry) (s : State) : (disable e s).buf = s.buf := rfl
@[simp] theorem disable_led (e : Entry) (s : State) : (disable e s).led = s.led := rfl
@[simp] theorem disable_faulted (e : Entry) (s : State) : (disable e s).faulted = s.faulted := rfl
@[simp] theorem disable_refused (e : Entry) (s : State) : (disable e s).refused = s.refused := rfl
@[simp] theorem disable_result (e : Entry) (s : State) : (disable e s).result = s.result := rfl
@[simp] theorem disable_hostSees (e : Entry) (s : State) : (disable e s).hostSees = s.hostSees := rfl
@[simp] theorem disable_answer (e : Entry) (s : State) : (disable e s).answer = s.answer := rfl
@[simp] theorem disable_agenda (e : Entry) (s : State) : (disable e s).agenda = s.agenda := rfl
@[simp] theorem disable_slot (e : Entry) (s : State) : (disable e s).slot = s.slot := rfl

/-! ## armRx -/

@[simp] theorem armRx_params (e : Entry) (s : State) : (armRx e s).params = s.params := by unfold armRx; split <;> rfl
@[simp] theorem armRx_devState (e : Entry) (s : State) : (armRx e s).devState = s.devState := by unfold armRx; split <;> rfl
@[simp] theorem armRx_devAddr (e : Entry) (s : State) : (armRx e s).devAddr = s.devAddr := by unfold armRx; split <;> rfl
@[simp] theorem armRx_activeCfg (e : Entry) (s : State) : (armRx e s).activeCfg = s.activeCfg := by unfold armRx; split <;> rfl
@[simp] theorem armRx_ctx (e : Entry) (s : State) : (armRx e s).ctx = s.ctx := by unfold armRx; split <;> rfl
@[simp] theorem armRx_lineCoding (e : Entry) (s : State) : (armRx e s).lineCoding = s.lineCoding := by unfold armRx; split <;> rfl
@[simp] theorem armRx_txPending (e : Entry) (s : State) : (armRx e s).txPending = s.txPending := by unfold armRx; split <;> rfl
@[simp] theorem armRx_txLen (e : Entry) (s : State) : (armRx e s).txLen = s.txLen := by unfold armRx; split <;> rfl
@[simp] theorem armRx_pendReset (e : Entry) (s : State) : (armRx e s).pendReset = s.pendReset := by unfold armRx; split <;> rfl
@[simp] theorem armRx_pendError (e : Entry) (s : State) : (armRx e s).pendError = s.pendError := by unfold armRx; split <;> rfl
@[simp] theorem armRx_tokq (e : Entry) (s : State) : (armRx e s).tokq = s.tokq := by unfold armRx; split <;> rfl
@[simp] theorem armRx_sieIfReset (e : Entry) (s : State) : (armRx e s).sieIfReset = s.sieIfReset := by unfold armRx; split <;> rfl
@[simp] theorem armRx_sieIfError (e : Entry) (s : State) : (armRx e s).sieIfError = s.sieIfError := by unfold armRx; split <;> rfl
@[simp] theorem armRx_sieFifo (e : Entry) (s : State) : (armRx e s).sieFifo = s.sieFifo := by unfold armRx; split <;> rfl
@[simp] theorem armRx_setupLock (e : Entry) (s : State) : (armRx e s).setupLock = s.setupLock := by unfold armRx; split <;> rfl
@[simp] theorem armRx_stallCause (e : Entry) (s : State) : (armRx e s).stallCause = s.stallCause := by unfold armRx; split <;> rfl
@[simp] theorem armRx_buf (e : Entry) (s : State) : (armRx e s).buf = s.buf := by unfold armRx; split <;> rfl
@[simp] theorem armRx_led (e : Entry) (s : State) : (armRx e s).led = s.led := by unfold armRx; split <;> rfl
@[simp] theorem armRx_faulted (e : Entry) (s : State) : (armRx e s).faulted = s.faulted := by unfold armRx; split <;> rfl
@[simp] theorem armRx_refused (e : Entry) (s : State) : (armRx e s).refused = s.refused := by unfold armRx; split <;> rfl
@[simp] theorem armRx_result (e : Entry) (s : State) : (armRx e s).result = s.result := by unfold armRx; split <;> rfl
@[simp] theorem armRx_hostSees (e : Entry) (s : State) : (armRx e s).hostSees = s.hostSees := by unfold armRx; split <;> rfl
@[simp] theorem armRx_answer (e : Entry) (s : State) : (armRx e s).answer = s.answer := by unfold armRx; split <;> rfl
@[simp] theorem armRx_agenda (e : Entry) (s : State) : (armRx e s).agenda = s.agenda := by unfold armRx; split <;> rfl
@[simp] theorem armRx_slot (e : Entry) (s : State) : (armRx e s).slot = s.slot := by unfold armRx; split <;> rfl

/-! ## armTx -/

@[simp] theorem armTx_params (e : Entry) (data : List Byte) (s : State) : (armTx e data s).params = s.params := by unfold armTx; split <;> rfl
@[simp] theorem armTx_devState (e : Entry) (data : List Byte) (s : State) : (armTx e data s).devState = s.devState := by unfold armTx; split <;> rfl
@[simp] theorem armTx_devAddr (e : Entry) (data : List Byte) (s : State) : (armTx e data s).devAddr = s.devAddr := by unfold armTx; split <;> rfl
@[simp] theorem armTx_activeCfg (e : Entry) (data : List Byte) (s : State) : (armTx e data s).activeCfg = s.activeCfg := by unfold armTx; split <;> rfl
@[simp] theorem armTx_ctx (e : Entry) (data : List Byte) (s : State) : (armTx e data s).ctx = s.ctx := by unfold armTx; split <;> rfl
@[simp] theorem armTx_lineCoding (e : Entry) (data : List Byte) (s : State) : (armTx e data s).lineCoding = s.lineCoding := by unfold armTx; split <;> rfl
@[simp] theorem armTx_txPending (e : Entry) (data : List Byte) (s : State) : (armTx e data s).txPending = s.txPending := by unfold armTx; split <;> rfl
@[simp] theorem armTx_txLen (e : Entry) (data : List Byte) (s : State) : (armTx e data s).txLen = s.txLen := by unfold armTx; split <;> rfl
@[simp] theorem armTx_pendReset (e : Entry) (data : List Byte) (s : State) : (armTx e data s).pendReset = s.pendReset := by unfold armTx; split <;> rfl
@[simp] theorem armTx_pendError (e : Entry) (data : List Byte) (s : State) : (armTx e data s).pendError = s.pendError := by unfold armTx; split <;> rfl
@[simp] theorem armTx_tokq (e : Entry) (data : List Byte) (s : State) : (armTx e data s).tokq = s.tokq := by unfold armTx; split <;> rfl
@[simp] theorem armTx_sieIfReset (e : Entry) (data : List Byte) (s : State) : (armTx e data s).sieIfReset = s.sieIfReset := by unfold armTx; split <;> rfl
@[simp] theorem armTx_sieIfError (e : Entry) (data : List Byte) (s : State) : (armTx e data s).sieIfError = s.sieIfError := by unfold armTx; split <;> rfl
@[simp] theorem armTx_sieFifo (e : Entry) (data : List Byte) (s : State) : (armTx e data s).sieFifo = s.sieFifo := by unfold armTx; split <;> rfl
@[simp] theorem armTx_setupLock (e : Entry) (data : List Byte) (s : State) : (armTx e data s).setupLock = s.setupLock := by unfold armTx; split <;> rfl
@[simp] theorem armTx_stallCause (e : Entry) (data : List Byte) (s : State) : (armTx e data s).stallCause = s.stallCause := by unfold armTx; split <;> rfl
@[simp] theorem armTx_led (e : Entry) (data : List Byte) (s : State) : (armTx e data s).led = s.led := by unfold armTx; split <;> rfl
@[simp] theorem armTx_faulted (e : Entry) (data : List Byte) (s : State) : (armTx e data s).faulted = s.faulted := by unfold armTx; split <;> rfl
@[simp] theorem armTx_refused (e : Entry) (data : List Byte) (s : State) : (armTx e data s).refused = s.refused := by unfold armTx; split <;> rfl
@[simp] theorem armTx_result (e : Entry) (data : List Byte) (s : State) : (armTx e data s).result = s.result := by unfold armTx; split <;> rfl
@[simp] theorem armTx_hostSees (e : Entry) (data : List Byte) (s : State) : (armTx e data s).hostSees = s.hostSees := by unfold armTx; split <;> rfl
@[simp] theorem armTx_answer (e : Entry) (data : List Byte) (s : State) : (armTx e data s).answer = s.answer := by unfold armTx; split <;> rfl
@[simp] theorem armTx_agenda (e : Entry) (data : List Byte) (s : State) : (armTx e data s).agenda = s.agenda := by unfold armTx; split <;> rfl
@[simp] theorem armTx_slot (e : Entry) (data : List Byte) (s : State) : (armTx e data s).slot = s.slot := by unfold armTx; split <;> rfl

/-! ## One entry of a table -/

@[simp] theorem perEntry_get_set_same {α : Type} (x : PerEntry α) (e : Entry) (v : α) : (x.set e v).get e = v := by
  cases e <;> rfl

theorem perEntry_get_set_ne {α : Type} (x : PerEntry α) {e e' : Entry} (v : α) (h : e' ≠ e) :
    (x.set e v).get e' = x.get e' := by
  cases e <;> cases e' <;> first | rfl | exact absurd rfl h

theorem perEntry_get_set {α : Type} (x : PerEntry α) (e e' : Entry) (v : α) :
    (x.set e v).get e' = if e' = e then v else x.get e' := by
  by_cases h : e' = e
  · subst h; simp
  · simp [perEntry_get_set_ne x v h, h]

end Sys2Proof.Machine
end

