-- ==== Sys2Proof/Laws/Memory.lean ====
section
/-! SUPPORT. Buffer RAM: reading after writing, and that a write keeps the canonical form (20_memory.md R61, R70). -/

namespace Sys2Proof.Machine

theorem Memory.read_write (m : Memory) (x y : Nat) (v : Byte) :
    (m.write x v).read y = if y = x then some v else m.read y := by
  induction m with
  | nil => simp only [Memory.write, Memory.read, eq_comm]
  | cons c m ih =>
    obtain ⟨a, b⟩ := c
    simp only [Memory.write]
    split
    · simp only [Memory.read, eq_comm]
    · split
      · simp only [Memory.read]; grind
      · simp only [Memory.read, ih]; grind

theorem Memory.mem_write {m : Memory} {x : Nat} {v : Byte} {c : Host.Cell} (h : c ∈ m.write x v) :
    c = (x, v) ∨ c ∈ m := by
  induction m with
  | nil => simpa [Memory.write] using h
  | cons d m ih =>
    simp only [Memory.write] at h
    split at h
    · simpa using h
    · split at h
      · rcases List.mem_cons.mp h with h | h
        · exact .inl h
        · exact .inr (List.mem_cons_of_mem _ h)
      · rcases List.mem_cons.mp h with h | h
        · exact .inr (h ▸ List.mem_cons_self ..)
        · exact (ih h).imp_right (List.mem_cons_of_mem _)

theorem Memory.wf_write {m : Memory} (x : Nat) (v : Byte) (h : m.wf) : (m.write x v).wf := by
  induction m with
  | nil => simp [Memory.write]
  | cons d m ih =>
    obtain ⟨hd, hm⟩ := List.pairwise_cons.mp h
    simp only [Memory.write]
    split
    · rename_i hx
      refine List.pairwise_cons.mpr ⟨fun c hc => ?_, h⟩
      rcases List.mem_cons.mp hc with rfl | hc
      · exact hx
      · exact lt_trans hx (hd c hc)
    · split
      · rename_i _ hx
        exact List.pairwise_cons.mpr ⟨fun c hc => hx ▸ hd c hc, hm⟩
      · refine List.pairwise_cons.mpr ⟨fun c hc => ?_, ih hm⟩
        rcases Memory.mem_write hc with rfl | hc
        · show d.1 < x
          omega
        · exact hd c hc

theorem Memory.wf_writeBytes (bs : List Byte) : ∀ {m : Memory} (x : Nat), m.wf → (m.writeBytes x bs).wf := by
  induction bs with
  | nil => exact fun _ h => h
  | cons b bs ih => exact fun x h => ih (x + 1) (Memory.wf_write x b h)

theorem Memory.mem_writeBytes (bs : List Byte) : ∀ {m : Memory} {x : Nat} {c : Host.Cell},
    c ∈ m.writeBytes x bs → (x ≤ c.1 ∧ c.1 < x + bs.length) ∨ c ∈ m := by
  induction bs with
  | nil => exact fun h => .inr h
  | cons b bs ih =>
    intro m x c h
    rcases ih h with h | h
    · exact .inl ⟨by omega, by simp; omega⟩
    · rcases Memory.mem_write h with rfl | h
      · exact .inl ⟨le_refl _, by simp⟩
      · exact .inr h

/-- What any address reads as after a write of bytes. -/
theorem Memory.read_writeBytes (bs : List Byte) : ∀ (m : Memory) (x y : Nat),
    (m.writeBytes x bs).read y = if x ≤ y ∧ y < x + bs.length then bs[y - x]? else m.read y := by
  induction bs with
  | nil => intro m x y; simp only [Memory.writeBytes, List.length_nil]; rw [if_neg (by omega)]
  | cons b bs ih =>
    intro m x y
    simp only [Memory.writeBytes, ih, Memory.read_write, List.length_cons]
    by_cases h1 : y = x
    · subst h1; rw [if_neg (by omega), if_pos rfl, if_pos (by omega)]; simp
    · by_cases h2 : x + 1 ≤ y ∧ y < x + 1 + bs.length
      · rw [if_pos h2, if_pos (by omega), show y - x = (y - (x + 1)) + 1 by omega]; rfl
      · rw [if_neg h2, if_neg h1, if_neg (by omega)]

theorem Memory.read_writeBytes_outside (m : Memory) {x y : Nat} (bs : List Byte)
    (h : ¬(x ≤ y ∧ y < x + bs.length)) : (m.writeBytes x bs).read y = m.read y := by
  rw [Memory.read_writeBytes, if_neg h]

theorem Memory.isSome_read_writeBytes (m : Memory) (x y : Nat) (bs : List Byte) (h : (m.read y).isSome = true) :
    ((m.writeBytes x bs).read y).isSome = true := by
  rw [Memory.read_writeBytes]
  split
  · rw [List.getElem?_eq_getElem (by omega)]; rfl
  · exact h

theorem Memory.isSome_read_written (m : Memory) (x i : Nat) (bs : List Byte) (h : i < bs.length) :
    ((m.writeBytes x bs).read (x + i)).isSome = true := by
  rw [Memory.read_writeBytes, if_pos (by omega), List.getElem?_eq_getElem (by omega)]; rfl

/-- A block of written bytes reads as some sequence of that length. -/
theorem Memory.readBytes_of_written (m : Memory) : ∀ (n x : Nat), (∀ i < n, (m.read (x + i)).isSome = true) →
    ∃ bs, m.readBytes x n = some bs ∧ bs.length = n := by
  intro n
  induction n with
  | zero => exact fun _ _ => ⟨[], rfl, rfl⟩
  | succ n ih =>
    intro x h
    obtain ⟨b, hb⟩ := Option.isSome_iff_exists.mp (h 0 (by omega))
    obtain ⟨bs, hbs, hl⟩ := ih (x + 1) (fun i hi => by
      have := h (i + 1) (by omega)
      rwa [show x + (i + 1) = x + 1 + i by omega] at this)
    rw [Nat.add_zero] at hb
    exact ⟨b :: bs, by simp [Memory.readBytes, hb, hbs], by simp [hl]⟩

/-- Bytes written read back. -/
theorem Memory.readBytes_of_read (m : Memory) : ∀ (bs : List Byte) (x : Nat),
    (∀ i < bs.length, m.read (x + i) = bs[i]?) → m.readBytes x bs.length = some bs := by
  intro bs
  induction bs with
  | nil => exact fun _ _ => rfl
  | cons b bs ih =>
    intro x h
    have h0 := h 0 (by simp)
    have := ih (x + 1) (fun i hi => by
      have := h (i + 1) (by simpa using hi)
      rw [show x + 1 + i = x + (i + 1) by omega, this]; rfl)
    simp only [Nat.add_zero, List.getElem?_cons_zero] at h0
    simp [Memory.readBytes, h0, this]

theorem Memory.readBytes_writeBytes_same (m : Memory) (x : Nat) (bs : List Byte) :
    (m.writeBytes x bs).readBytes x bs.length = some bs :=
  Memory.readBytes_of_read _ bs x fun i hi => by
    rw [Memory.read_writeBytes, if_pos (by omega), Nat.add_sub_cancel_left]

/-- MemRead of written bytes inside their area. -/
theorem memRead_of_written {s : State} {area : Area} {n : Nat} (hn : n ≤ areaSize s.params area)
    (h : ∀ i < n, (s.buf.read (areaBase s.params area + i)).isSome = true) :
    ∃ bs, memRead s area n = .ok bs ∧ bs.length = n := by
  obtain ⟨bs, hb, hl⟩ := Memory.readBytes_of_written s.buf n _ h
  exact ⟨bs, by simp [memRead, hb, Nat.not_lt.mpr hn], hl⟩

end Sys2Proof.Machine
end

