-- ==== Sys2Proof/Laws/Buffers.lean ====
section
/-! SUPPORT. The Endpoint Buffer Manager's operations, each said once: what ARM_RX, ARM_TX, RECLAIM, DISABLE
and ENABLE leave in the entries (44_endpoint_buffers.md R201-R207). -/

namespace Sys2Proof.Machine

@[simp] theorem owner_ne_hw (o : Owner) : (o ≠ .hw) = (o = .fw) := by cases o <;> simp

@[simp] theorem owner_ne_fw (o : Owner) : (o ≠ .fw) = (o = .hw) := by cases o <;> simp

/-- What ARM_RX leaves in its entry. -/
def armedRx (p : Params) (e : Entry) (b : BdStat) : BdStat :=
  if b.own = .hw ∨ b.en = false then b else { b with cnt := BitVec.ofNat 11 (bufCap p e), own := .hw }

/-- What ARM_TX leaves in its entry. -/
def armedTx (p : Params) (e : Entry) (n : Nat) (b : BdStat) : BdStat :=
  if b.own = .fw ∧ b.en = true then { b with cnt := BitVec.ofNat 11 (min n (bufCap p e)), own := .hw } else b

theorem armRx_bd (e : Entry) (s : State) : (armRx e s).bd = s.bd.set e (armedRx s.params e (s.bd.get e)) := by
  unfold armRx armedRx
  split
  · cases e <;> rfl
  · rfl

theorem txReady_iff (e : Entry) (s : State) : txReady e s = true ↔ (s.bd.get e).own = .fw ∧ (s.bd.get e).en = true := by
  simp [txReady]

theorem armTx_bd (e : Entry) (data : List Byte) (s : State) :
    (armTx e data s).bd = s.bd.set e (armedTx s.params e data.length (s.bd.get e)) := by
  unfold armTx armedTx
  by_cases h : txReady e s = true
  · rw [if_pos h, if_pos ((txReady_iff e s).mp h)]
    simp [armTxCount, h]
  · rw [if_neg h, if_neg (fun hc => h ((txReady_iff e s).mpr hc))]
    cases e <;> rfl

theorem armTx_buf (e : Entry) (data : List Byte) (s : State) :
    (armTx e data s).buf =
      if txReady e s then s.buf.writeBytes (adr s.params e) (data.take (bufCap s.params e)) else s.buf := by
  unfold armTx
  split
  · rfl
  · rfl

@[simp] theorem reclaim_bd (e : Entry) (s : State) :
    (reclaim e s).bd = s.bd.set e { s.bd.get e with own := .fw, cnt := 0 } := rfl

@[simp] theorem disable_bd (e : Entry) (s : State) : (disable e s).bd = s.bd.set e BdStat.zero := rfl

@[simp] theorem enable_bd (e : Entry) (s : State) :
    (enable e s).bd = s.bd.set e { own := .fw, en := true, stall := false, cnt := 0 } := rfl

/-- ARM_RX twice is ARM_RX once (44_endpoint_buffers.md R204). -/
theorem armedRx_idem (p : Params) (e : Entry) (b : BdStat) : armedRx p e (armedRx p e b) = armedRx p e b := by
  unfold armedRx
  split
  · rename_i h; simp
  · simp

end Sys2Proof.Machine
end

