-- ==== Sys2Proof/Laws/Parameters.lean ====
section
/-! SUPPORT. What admitted parameters guarantee (00_scope.md R13), and the areas of BUF (20_memory.md R62). -/

namespace Sys2Proof.Machine

theorem legalMps_cases {n : Nat} (h : legalMps n = true) : n = 8 ∨ n = 16 ∨ n = 32 ∨ n = 64 := by
  simpa [legalMps, or_assoc] using h

/-- The size facts of an admitted parameter set. -/
structure Sizes (p : Params) : Prop where
  ep0 : p.ep0Mps = 8 ∨ p.ep0Mps = 16 ∨ p.ep0Mps = 32 ∨ p.ep0Mps = 64
  ep1 : p.ep1Mps = 8 ∨ p.ep1Mps = 16 ∨ p.ep1Mps = 32 ∨ p.ep1Mps = 64
  ep2 : p.ep2Mps = 8 ∨ p.ep2Mps = 16 ∨ p.ep2Mps = 32 ∨ p.ep2Mps = 64
  cap : p.bufCap = { ep0Out := p.ep0Mps, ep0In := p.ep0Mps, ep1In := p.ep1Mps, ep2Out := p.ep2Mps, ep2In := p.ep2Mps }
  cfg : p.cfgValue ≠ 0
  dev : p.desc.dev.length = 18
  conf : p.desc.cfg.length = 67
  tokq : 1 ≤ p.tokqDepth
  fifo : 1 ≤ p.sieFifoDepth

theorem admitted_sizes {p : Params} (h : admitted p = true) : Sizes p := by
  simp only [admitted, descOk, deviceDescOk, Bool.and_eq_true, beq_iff_eq, bne_iff_ne, decide_eq_true_eq] at h
  exact
    { ep0 := legalMps_cases h.1.1.1.1.1.1.1.1.1.1, ep1 := legalMps_cases h.1.1.1.1.1.1.1.1.1.2
      ep2 := legalMps_cases h.1.1.1.1.1.1.1.1.2, cap := h.1.1.1.1.1.1.1.2, cfg := h.1.1.1.1.1.1.2
      dev := h.1.1.2.1.1.1.1.1.1.1.1.1, conf := h.1.1.2.1.1.1.1.1.2, tokq := h.1.2, fifo := h.2 }

/-- BUF_CAP(e) = MPS(e) (00_scope.md R13 (c)). -/
theorem Sizes.bufCap_eq {p : Params} (h : Sizes p) (e : Entry) : bufCap p e = mps p e := by
  unfold bufCap; rw [h.cap]; cases e <;> rfl

theorem Sizes.bufCap_le {p : Params} (h : Sizes p) (e : Entry) : 8 ≤ bufCap p e ∧ bufCap p e ≤ 64 := by
  rw [h.bufCap_eq]
  obtain ⟨h0, h1, h2, _, _, _, _, _, _⟩ := h
  cases e <;> simp only [mps] <;> omega

/-- Every area lies inside BUF (20_memory.md R62). -/
theorem Sizes.area_inside {p : Params} (h : Sizes p) (a : Area) : areaBase p a + areaSize p a ≤ bufSize p := by
  have hc := h.cap
  cases a with
  | txBuf => exact le_refl _
  | buffer e =>
    cases e <;> simp only [areaBase, areaSize, bufSize, txBufAdr, adr, bufCap, PerEntry.get] <;> omega

theorem toNat_ofNat_le {n w k : Nat} (h : n ≤ k) (hk : k < 2 ^ w) : (BitVec.ofNat w n).toNat = n := by
  simp only [BitVec.toNat_ofNat]; exact Nat.mod_eq_of_lt (by omega)

/-- A count up to a capacity fits CNT's 11 bits (00_scope.md R12). -/
theorem Sizes.cnt_toNat {p : Params} (h : Sizes p) (e : Entry) {n : Nat} (hn : n ≤ bufCap p e) :
    (BitVec.ofNat 11 n).toNat = n :=
  toNat_ofNat_le (le_trans hn (h.bufCap_le e).2) (by decide)

end Sys2Proof.Machine
end

