-- ==== Sys2Proof/Laws/Invariant.lean ====
section
/-! SUPPORT. How the invariants (10_state.md R45 and what makes them inductive) carry over: to states that
differ only in fields they do not read, past a dispatched record, and past each shared operation. -/

namespace Sys2Proof.Machine

/-! ## State codes -/

theorem devState_ofCode_iff (c : BitVec 3) (d : DevState) : DevState.ofCode c = some d ↔ c = d.code := by
  revert c; cases d <;> decide

theorem stage_ofCode_iff (c : BitVec 3) (g : Stage) : Stage.ofCode c = some g ↔ c = g.code := by
  revert c; cases g <;> decide

theorem readDevState_of_known {s : State} (h : (DevState.ofCode s.devState).isSome = true) :
    ∃ d, readDevState s = .ok d ∧ s.devState = d.code := by
  obtain ⟨d, hd⟩ := Option.isSome_iff_exists.mp h
  exact ⟨d, by simp [readDevState, hd], (devState_ofCode_iff _ _).mp hd⟩

theorem readDevState_code {s : State} {d : DevState} (h : s.devState = d.code) : readDevState s = .ok d := by
  simp [readDevState, (devState_ofCode_iff _ _).mpr h]

theorem readStage_code {s : State} {g : Stage} (h : s.ctx.stage = g.code) : readStage s = .ok g := by
  simp [readStage, (stage_ofCode_iff _ _).mpr h]

theorem isOperational_code {s : State} {d : DevState} (h : s.devState = d.code) : s.isOperational = d.operational := by
  simp [State.isOperational, (devState_ofCode_iff _ _).mpr h]

theorem isConfigured_code {s : State} {d : DevState} (h : s.devState = d.code) :
    s.isConfigured = true ↔ d = .configured := by
  simp only [State.isConfigured, h, beq_iff_eq]; cases d <;> decide

theorem isAddressed_code {s : State} {d : DevState} (h : s.devState = d.code) :
    s.isAddressed = true ↔ d = .address ∨ d = .configured := by
  simp only [State.isAddressed, h, Bool.or_eq_true, beq_iff_eq]; cases d <;> decide

theorem isOperational_congr {s t : State} (h : t.devState = s.devState) : t.isOperational = s.isOperational := by
  simp [State.isOperational, h]

theorem isConfigured_congr {s t : State} (h : t.devState = s.devState) : t.isConfigured = s.isConfigured := by
  simp [State.isConfigured, h]

theorem isAddressed_congr {s t : State} (h : t.devState = s.devState) : t.isAddressed = s.isAddressed := by
  simp [State.isAddressed, h]

theorem operational_of_configured {s : State} (h : s.isConfigured = true) : s.isOperational = true := by
  have : s.devState = DevState.code .configured := by simpa [State.isConfigured] using h
  rw [isOperational_code this]; rfl

/-! ## Fields the invariants do not read -/

/-- The two states agree on every field the invariants read. -/
structure SameCore (s t : State) : Prop where
  params : t.params = s.params
  devState : t.devState = s.devState
  devAddr : t.devAddr = s.devAddr
  activeCfg : t.activeCfg = s.activeCfg
  bd : t.bd = s.bd
  ctx : t.ctx = s.ctx
  txPending : t.txPending = s.txPending
  txLen : t.txLen = s.txLen
  pendReset : t.pendReset = s.pendReset
  tokq : t.tokq = s.tokq
  sieIfReset : t.sieIfReset = s.sieIfReset
  sieFifo : t.sieFifo = s.sieFifo
  setupLock : t.setupLock = s.setupLock
  buf : t.buf = s.buf
  faulted : t.faulted = s.faulted

theorem Action.applicable_congr {s t : State} (hs : t.devState = s.devState) (hp : t.params = s.params) (a : Action) :
    Action.applicable t a ↔ Action.applicable s a := by
  cases a <;> simp [Action.applicable, isOperational_congr hs, isConfigured_congr hs, isAddressed_congr hs, hp]

theorem Inv.congr {s t : State} (h : Inv s) (c : SameCore s t) : Inv t := by
  obtain ⟨cp, cs, ca, cc, cb, cx, ctp, ctl, cpr, cq, cir, cif, cl, cbuf, cf⟩ := c
  have hr : t.records = s.records := by simp [State.records, cq, cif]
  have hb : t.resetBusy = s.resetBusy := by simp [State.resetBusy, cpr, cir]
  have hw : ∀ a n, t.written a n ↔ s.written a n := by intro a n; simp [State.written, cbuf, cp]
  have ho := isOperational_congr cs
  have hc := isConfigured_congr cs
  have hd := isAddressed_congr cs
  obtain ⟨a, u, k, ⟨l1, l2, l3, l4, l5, l6, l7, l8, l9⟩, ⟨r1, r2, r3, r4, r5, r6, r7, r8, r9, r10⟩,
    ⟨x1, x2, x3, x4, x5⟩, ⟨b1, b2, b3, b4, b5, b6⟩, ⟨m1, m2, m3⟩⟩ := h
  refine ⟨cp ▸ a, cf ▸ u, cs ▸ k, ⟨?_, ?_, ?_, ?_, ?_, ?_, ?_, ?_, ?_⟩,
    ⟨?_, ?_, ?_, ?_, ?_, ?_, ?_, ?_, ?_, ?_⟩, ⟨?_, ?_, ?_, ?_, ?_⟩, ⟨?_, ?_, ?_, ?_, ?_, ?_⟩, ⟨?_, ?_, ?_⟩⟩ <;>
    simp only [cp, ca, cc, cb, cx, ctp, ctl, cq, cif, cl, cbuf, hr, hb, hw, ho, hc, hd,
      Action.applicable_congr cs cp] <;> assumption

/-! ## Past a dispatched record -/

/-- t is s after its first record r has been processed, with only EP0, CTX, SETUP_LOCK, STALL_CAUSE and the
EP0IN buffer touched. -/
structure Ep0Step (r : TokenRecord) (s t : State) : Prop where
  params : t.params = s.params
  devState : t.devState = s.devState
  devAddr : t.devAddr = s.devAddr
  activeCfg : t.activeCfg = s.activeCfg
  ep1In : t.bd.ep1In = s.bd.ep1In
  ep2Out : t.bd.ep2Out = s.bd.ep2Out
  ep2In : t.bd.ep2In = s.bd.ep2In
  txPending : t.txPending = s.txPending
  txLen : t.txLen = s.txLen
  pendReset : t.pendReset = s.pendReset
  sieIfReset : t.sieIfReset = s.sieIfReset
  sieFifo : t.sieFifo = s.sieFifo
  faulted : t.faulted = s.faulted
  tokq : s.tokq = r :: t.tokq
  outEn : t.bd.ep0Out.en = s.bd.ep0Out.en
  inEn : t.bd.ep0In.en = s.bd.ep0In.en
  outCnt : t.bd.ep0Out.cnt.toNat ≤ bufCap s.params .ep0Out
  inCnt : t.bd.ep0In.cnt.toNat ≤ bufCap s.params .ep0In
  out : (ep0OutRecord r = true ∧ t.bd.ep0Out.own = .hw ∧
      t.setupLock = if r = TokenKind.ep0Setup.record then false else s.setupLock) ∨
    (ep0OutRecord r = false ∧ t.bd.ep0Out.own = s.bd.ep0Out.own ∧ t.bd.ep0Out.cnt = s.bd.ep0Out.cnt ∧
      t.setupLock = s.setupLock)
  armed : t.bd.ep0In.own = .hw →
    t.records.any ep0InRecord = false ∧ t.written (.buffer .ep0In) t.bd.ep0In.cnt.toNat
  mono : ∀ a, (s.buf.read a).isSome = true → (t.buf.read a).isSome = true
  canonical : t.buf.wf
  inside : ∀ c ∈ t.buf, c.1 < bufSize s.params

theorem ep0OutRecord_setup : ep0OutRecord TokenKind.ep0Setup.record = true := by decide

theorem Inv.ep0Step {r : TokenRecord} {s t : State} (h : Inv s) (c : Ep0Step r s t) (hctx : ContextInOrder t) : Inv t := by
  obtain ⟨cp, cs, ca, cc, c1, c2, c3, ctp, ctl, cpr, cir, cif, cf, cq, coe, cie, coc, cic, cout, carm, cm, cwf, cin⟩ := c
  have hr : s.records = r :: t.records := by simp [State.records, cq, cif]
  have hb : t.resetBusy = s.resetBusy := by simp [State.resetBusy, cpr, cir]
  have hw : ∀ a n, s.written a n → t.written a n := by
    intro a n hs i hi; rw [cp]; exact cm _ (hs i hi)
  have ho := isOperational_congr cs
  have hc := isConfigured_congr cs
  have hd := isAddressed_congr cs
  obtain ⟨a, u, k, ⟨l1, l2, l3, l4, l5, l6, l7, l8, l9⟩, ⟨r1, r2, r3, r4, r5, r6, r7, r8, r9, r10⟩,
    _, ⟨b1, b2, b3, b4, b5, b6⟩, ⟨m1, m2, m3⟩⟩ := h
  have hop : s.isOperational = true := r2 (by rw [hr]; exact List.cons_ne_nil _ _)
  rw [hr] at r1 r6 r7 r8 r9 r10 l6 l9
  have hnoOut : ep0OutRecord r = true → ∀ x ∈ t.records, ep0OutRecord x = false := by
    intro hx x hxm
    rw [List.filter_cons_of_pos hx] at r6
    have : t.records.filter ep0OutRecord = [] := by
      apply List.eq_nil_of_length_eq_zero
      simp only [List.length_cons] at r6
      omega
    simpa using List.filter_eq_nil_iff.mp this x hxm
  refine ⟨cp ▸ a, cf ▸ u, cs ▸ k, ⟨?_, ?_, ?_, ?_, ?_, ?_, ?_, ?_, ?_⟩,
    ⟨?_, ?_, ?_, ?_, ?_, ?_, ?_, ?_, ?_, ?_⟩, hctx, ⟨?_, ?_, ?_, ?_, ?_, ?_⟩, ⟨cwf, cp ▸ cin, ?_⟩⟩
  · rw [coe, cie, ho]; exact l1
  · rw [c1, c2, c3, hc]; exact l2
  · rw [cc, hc, cp]; exact l3
  · rw [c1, c2, c3]; exact l4
  · intro e
    have := l5 e
    rw [cp]
    cases e
    · exact coc
    · exact cic
    · rw [PerEntry.get, c1]; exact this
    · rw [PerEntry.get, c2]; exact this
    · rw [PerEntry.get, c3]; exact this
  · intro hbz hen hall
    rcases cout with ⟨_, hown, _⟩ | ⟨hrf, hown, _, _⟩
    · exact hown
    · rw [hown]
      refine l6 (hb ▸ hbz) (coe ▸ hen) ?_
      rw [List.all_cons, hrf, hall]; rfl
  · intro e
    have := l7 e
    cases e
    · intro hen
      rw [PerEntry.get, coe, l1.1, hop] at hen
      exact absurd hen (by decide)
    · intro hen
      rw [PerEntry.get, cie, l1.2, hop] at hen
      exact absurd hen (by decide)
    · rw [PerEntry.get, c1]; exact this
    · rw [PerEntry.get, c2]; exact this
    · rw [PerEntry.get, c3]; exact this
  · rw [ca, hd]; exact l8
  · intro hbz
    have l9' := l9 (hb ▸ hbz)
    rcases cout with ⟨hrt, _, hlock⟩ | ⟨hrf, _, _, hlock⟩
    · by_cases hrs : r = TokenKind.ep0Setup.record
      · rw [if_pos hrs] at hlock
        rw [hlock]
        refine ⟨fun h => absurd h (by decide), fun hm => ?_⟩
        have := hnoOut hrt _ hm
        rw [ep0OutRecord_setup] at this
        exact absurd this (by decide)
      · rw [if_neg hrs] at hlock
        rw [hlock, l9', List.mem_cons]
        exact ⟨fun h => h.resolve_left (fun h => hrs h.symm), .inr⟩
    · rw [hlock, l9', List.mem_cons]
      refine ⟨fun h => h.resolve_left (fun h => ?_), .inr⟩
      rw [← h, ep0OutRecord_setup] at hrf
      exact absurd hrf (by decide)
  · exact fun x hx => r1 x (List.mem_cons_of_mem _ hx)
  · exact fun _ => by rw [ho]; exact hop
  · rw [hb, cif]; exact r3
  · rw [cq, List.length_cons] at r4; rw [cp]; omega
  · rw [cif, cp]; exact r5
  · refine le_trans (List.Sublist.length_le ?_) r6
    exact List.Sublist.filter _ (List.sublist_cons_self ..)
  · intro hany
    rcases cout with ⟨hrt, _, _⟩ | ⟨_, hown, _, _⟩
    · obtain ⟨x, hx, hx'⟩ := List.any_eq_true.mp hany
      rw [hnoOut hrt x hx] at hx'
      exact absurd hx' (by decide)
    · rw [hown]
      exact r7 (by rw [List.any_cons, hany, Bool.or_true])
  · refine le_trans (List.Sublist.length_le ?_) r8
    exact List.Sublist.filter _ (List.sublist_cons_self ..)
  · intro hany
    cases hown : t.bd.ep0In.own with
    | fw => rfl
    | hw => rw [(carm hown).1] at hany; exact absurd hany (by decide)
  · exact (List.pairwise_cons.mp r10).2
  · intro hown
    rcases cout with ⟨_, hown', _⟩ | ⟨_, hown', hcnt, _⟩
    · rw [hown'] at hown; exact absurd hown (by decide)
    · rw [hcnt]; exact hw _ _ (b1 (hown' ▸ hown))
  · exact fun hown => (carm hown).2
  · rw [c1]; exact fun hown => hw _ _ (b3 hown)
  · rw [c2]; exact fun hown => hw _ _ (b4 hown)
  · rw [c3]; exact fun hown => hw _ _ (b5 hown)
  · rw [ctp, ctl]; exact fun hp => hw _ _ (b6 hp)
  · rw [ctl, cp]; exact m3

end Sys2Proof.Machine
end

