-- ==== Sys2Proof/Laws/ControlTransfer.lean ====
section
/-! SUPPORT. The Control Transfer Handler keeps the invariants: each of its operations on the way from a record
to the state after it, and each completion of 41_control_transfer.md as a whole. -/

namespace Sys2Proof.Machine

/-- u is on the way from s, whose first record is r, to the state after r: only EP0, CTX, SETUP_LOCK,
STALL_CAUSE and the EP0IN buffer may differ, and an armed EP0IN holds written bytes. -/
structure Ep0Mid (r : TokenRecord) (s u : State) : Prop where
  params : u.params = s.params
  devState : u.devState = s.devState
  devAddr : u.devAddr = s.devAddr
  activeCfg : u.activeCfg = s.activeCfg
  ep1In : u.bd.ep1In = s.bd.ep1In
  ep2Out : u.bd.ep2Out = s.bd.ep2Out
  ep2In : u.bd.ep2In = s.bd.ep2In
  txPending : u.txPending = s.txPending
  txLen : u.txLen = s.txLen
  pendReset : u.pendReset = s.pendReset
  sieIfReset : u.sieIfReset = s.sieIfReset
  sieFifo : u.sieFifo = s.sieFifo
  faulted : u.faulted = s.faulted
  tokq : s.tokq = r :: u.tokq
  outEn : u.bd.ep0Out.en = true
  inEn : u.bd.ep0In.en = true
  outCnt : u.bd.ep0Out.cnt.toNat ≤ bufCap s.params .ep0Out
  inCnt : u.bd.ep0In.cnt.toNat ≤ bufCap s.params .ep0In
  inWritten : u.bd.ep0In.own = .hw → u.written (.buffer .ep0In) u.bd.ep0In.cnt.toNat
  mono : ∀ a, (s.buf.read a).isSome = true → (u.buf.read a).isSome = true
  canonical : u.buf.wf
  inside : ∀ c ∈ u.buf, c.1 < bufSize s.params

theorem Inv.records_cons {r : TokenRecord} {s : State} (h : Inv s) {rest : List TokenRecord} (hq : s.tokq = r :: rest) :
    s.isOperational = true :=
  h.records.operational (by simp [State.records, hq])

theorem Ep0Mid.start {r : TokenRecord} {s : State} {rest : List TokenRecord} (h : Inv s) (hq : s.tokq = r :: rest) :
    Ep0Mid r s { s with tokq := rest } := by
  have ho := h.records_cons hq
  refine ⟨rfl, rfl, rfl, rfl, rfl, rfl, rfl, rfl, rfl, rfl, rfl, rfl, rfl, hq, ?_, ?_, h.listed.countFits .ep0Out,
    h.listed.countFits .ep0In, h.buffers.ep0In, fun _ h => h, h.memory.canonical, h.memory.inside⟩
  · rw [← ho]; exact h.listed.ep0Enabled.1
  · rw [← ho]; exact h.listed.ep0Enabled.2

/-- A change of CTX, SETUP_LOCK, STALL_CAUSE, LINE_CODING and the EP0 entries that keeps them enabled and their
counts in bounds, and arms nothing unwritten. -/
theorem Ep0Mid.change {r : TokenRecord} {s u v : State} (m : Ep0Mid r s u)
    (e : v = { u with bd := v.bd, ctx := v.ctx, setupLock := v.setupLock, stallCause := v.stallCause })
    (e1 : v.bd.ep1In = u.bd.ep1In) (e2 : v.bd.ep2Out = u.bd.ep2Out) (e3 : v.bd.ep2In = u.bd.ep2In)
    (o : v.bd.ep0Out.en = true) (i : v.bd.ep0In.en = true)
    (oc : v.bd.ep0Out.cnt.toNat ≤ bufCap s.params .ep0Out)
    (ic : v.bd.ep0In.own = u.bd.ep0In.own ∧ v.bd.ep0In.cnt = u.bd.ep0In.cnt ∨ v.bd.ep0In.own = .fw ∧ v.bd.ep0In.cnt = 0) :
    Ep0Mid r s v := by
  obtain ⟨a1, a2, a3, a4, a5, a6, a7, a8, a9, a10, a11, a12, a13, a14, _, _, _, a18, a19, a20, a21, a22⟩ := m
  generalize v.bd = vb at *
  generalize v.ctx = vc at *
  generalize v.setupLock = vl at *
  generalize v.stallCause = vs at *
  subst e
  refine ⟨a1, a2, a3, a4, e1 ▸ a5, e2 ▸ a6, e3 ▸ a7, a8, a9, a10, a11, a12, a13, a14, o, i, oc, ?_, ?_, a20, a21, a22⟩
  · rcases ic with ⟨_, h⟩ | ⟨_, h⟩ <;> simp only [h]
    · exact a18
    · exact Nat.zero_le _
  · rcases ic with ⟨h1, h2⟩ | ⟨h1, _⟩
    · simp only [h1, h2]; exact a19
    · simp only [h1]; exact fun h => absurd h (by decide)

theorem Ep0Mid.setCtx {r : TokenRecord} {s u : State} (m : Ep0Mid r s u) (c : Ctx) : Ep0Mid r s (Machine.setCtx c u) :=
  m.change rfl rfl rfl rfl m.outEn m.inEn m.outCnt (.inl ⟨rfl, rfl⟩)

theorem Ep0Mid.setEp0Stall {r : TokenRecord} {s u : State} (m : Ep0Mid r s u) (v : Bool) :
    Ep0Mid r s (Machine.setEp0Stall v u) :=
  m.change rfl rfl rfl rfl m.outEn m.inEn m.outCnt (.inl ⟨rfl, rfl⟩)

theorem Ep0Mid.stallCause {r : TokenRecord} {s u : State} (m : Ep0Mid r s u) (c : StallCause) :
    Ep0Mid r s { u with stallCause := c } :=
  m.change rfl rfl rfl rfl m.outEn m.inEn m.outCnt (.inl ⟨rfl, rfl⟩)

theorem Ep0Mid.setupLock {r : TokenRecord} {s u : State} (m : Ep0Mid r s u) (l : Bool) :
    Ep0Mid r s { u with setupLock := l } :=
  m.change rfl rfl rfl rfl m.outEn m.inEn m.outCnt (.inl ⟨rfl, rfl⟩)

theorem Ep0Mid.reclaim {r : TokenRecord} {s u : State} (m : Ep0Mid r s u) : Ep0Mid r s (Machine.reclaim Entry.ep0In u) :=
  m.change rfl rfl rfl rfl m.outEn m.inEn m.outCnt (.inr ⟨rfl, rfl⟩)

theorem Ep0Mid.armRx {r : TokenRecord} {s u : State} (m : Ep0Mid r s u) (z : Sizes s.params) :
    Ep0Mid r s (Machine.armRx Entry.ep0Out u) := by
  unfold Machine.armRx
  split
  · exact m
  · refine m.change rfl rfl rfl rfl m.outEn m.inEn ?_ (.inl ⟨rfl, rfl⟩)
    show (BitVec.ofNat 11 (bufCap u.params .ep0Out)).toNat ≤ _
    rw [m.params, z.cnt_toNat .ep0Out (le_refl _)]

theorem Ep0Mid.armTx {r : TokenRecord} {s u : State} (m : Ep0Mid r s u) (z : Sizes s.params) (data : List Byte) :
    Ep0Mid r s (Machine.armTx Entry.ep0In data u) := by
  by_cases hr : txReady .ep0In u = true
  swap
  · unfold Machine.armTx; rw [if_neg hr]; exact m
  have hlen : (data.take (bufCap s.params .ep0In)).length ≤ bufCap s.params .ep0In := List.length_take_le ..
  have harea := z.area_inside (.buffer .ep0In)
  have hcnt : (Machine.armTx Entry.ep0In data u).bd.ep0In.cnt.toNat = min data.length (bufCap s.params .ep0In) := by
    unfold Machine.armTx
    rw [if_pos hr]
    show (BitVec.ofNat 11 (armTxCount .ep0In data u)).toNat = _
    rw [armTxCount, if_pos hr, m.params, z.cnt_toNat .ep0In (Nat.min_le_right _ _)]
  have hbuf : (Machine.armTx Entry.ep0In data u).buf = u.buf.writeBytes (adr s.params .ep0In) (data.take (bufCap s.params .ep0In)) := by
    rw [Machine.armTx_buf, if_pos hr, m.params]
  have hbd : ∀ e, e ≠ .ep0In → (Machine.armTx Entry.ep0In data u).bd.get e = u.bd.get e := by
    intro e he; rw [Machine.armTx_bd, perEntry_get_set_ne _ _ he]
  have hen : (Machine.armTx Entry.ep0In data u).bd.ep0In.en = true := by
    unfold Machine.armTx; rw [if_pos hr]; exact m.inEn
  refine ⟨by simp [m.params], by simp [m.devState], by simp [m.devAddr], by simp [m.activeCfg],
    (hbd .ep1In (by decide)).trans m.ep1In, (hbd .ep2Out (by decide)).trans m.ep2Out,
    (hbd .ep2In (by decide)).trans m.ep2In, by simp [m.txPending], by simp [m.txLen], by simp [m.pendReset],
    by simp [m.sieIfReset], by simp [m.sieFifo], by simp [m.faulted], by simp [m.tokq],
    (congrArg BdStat.en (hbd .ep0Out (by decide))).trans m.outEn, hen,
    le_of_eq_of_le (congrArg (fun b => b.cnt.toNat) (hbd .ep0Out (by decide))) m.outCnt,
    by rw [hcnt]; exact Nat.min_le_right _ _, fun _ => ?_, ?_, ?_, ?_⟩
  · intro i hi
    rw [hcnt] at hi
    rw [hbuf, Machine.armTx_params, m.params]
    exact Memory.isSome_read_written _ _ _ _ (by rw [List.length_take]; omega)
  · intro a ha; rw [hbuf]; exact Memory.isSome_read_writeBytes _ _ _ _ (m.mono a ha)
  · rw [hbuf]; exact Memory.wf_writeBytes _ _ m.canonical
  · intro c hc
    rw [hbuf] at hc
    rcases Memory.mem_writeBytes _ hc with hc | hc
    · have : adr s.params .ep0In + bufCap s.params .ep0In ≤ bufSize s.params := harea
      omega
    · exact m.inside c hc

/-! ## What the last operations leave in the EP0 entries -/

theorem armRx_own (u : State) (h : u.bd.ep0Out.en = true) : (armRx .ep0Out u).bd.ep0Out.own = .hw := by
  unfold armRx
  split
  · rename_i hc
    rcases hc with hc | hc
    · exact hc
    · rw [show (u.bd.get .ep0Out).en = u.bd.ep0Out.en from rfl, h] at hc; exact absurd hc (by decide)
  · rfl

theorem armRx_ep0In (u : State) : (armRx .ep0Out u).bd.ep0In = u.bd.ep0In := by
  rw [armRx_bd]; rfl

theorem armTx_ep0Out (data : List Byte) (u : State) : (armTx .ep0In data u).bd.ep0Out = u.bd.ep0Out := by
  rw [armTx_bd]; rfl

/-- The record after which EP0OUT is armed again: nothing more of EP0OUT is waiting. -/
theorem Inv.after_ep0Out {r : TokenRecord} {s t : State} (h : Inv s) (m : Ep0Mid r s t) (hr : ep0OutRecord r = true)
    (own : t.bd.ep0Out.own = .hw)
    (lock : t.setupLock = if r = TokenKind.ep0Setup.record then false else s.setupLock)
    (noIn : t.bd.ep0In.own = .hw → t.records.any ep0InRecord = false) (ctx : ContextInOrder t) : Inv t := by
  have ho := h.records_cons m.tokq
  exact h.ep0Step
    ⟨m.params, m.devState, m.devAddr, m.activeCfg, m.ep1In, m.ep2Out, m.ep2In, m.txPending, m.txLen, m.pendReset,
      m.sieIfReset, m.sieFifo, m.faulted, m.tokq, by rw [m.outEn, h.listed.ep0Enabled.1, ho],
      by rw [m.inEn, h.listed.ep0Enabled.2, ho], m.outCnt, m.inCnt, .inl ⟨hr, own, lock⟩,
      fun hw => ⟨noIn hw, m.inWritten hw⟩, m.mono, m.canonical, m.inside⟩ ctx

/-- The record of an EP0IN completion: EP0OUT and the lock are as they were. -/
theorem Inv.after_ep0In {r : TokenRecord} {s t : State} (h : Inv s) (m : Ep0Mid r s t) (hr : ep0OutRecord r = false)
    (own : t.bd.ep0Out.own = s.bd.ep0Out.own) (cnt : t.bd.ep0Out.cnt = s.bd.ep0Out.cnt)
    (lock : t.setupLock = s.setupLock)
    (noIn : t.bd.ep0In.own = .hw → t.records.any ep0InRecord = false) (ctx : ContextInOrder t) : Inv t := by
  have ho := h.records_cons m.tokq
  exact h.ep0Step
    ⟨m.params, m.devState, m.devAddr, m.activeCfg, m.ep1In, m.ep2Out, m.ep2In, m.txPending, m.txLen, m.pendReset,
      m.sieIfReset, m.sieFifo, m.faulted, m.tokq, by rw [m.outEn, h.listed.ep0Enabled.1, ho],
      by rw [m.inEn, h.listed.ep0Enabled.2, ho], m.outCnt, m.inCnt, .inr ⟨hr, own, cnt, lock⟩,
      fun hw => ⟨noIn hw, m.inWritten hw⟩, m.mono, m.canonical, m.inside⟩ ctx

end Sys2Proof.Machine
end

