-- ==== Sys2Proof/Laws/Frames.lean ====
section
/-! SUPPORT. What the Control Transfer Handler leaves alone (41_control_transfer.md): every operation but the
deferred action touches only the EP0 entries, CTX, SETUP_LOCK, STALL_CAUSE and the EP0IN buffer; what token
dispatch can do, said once. -/

namespace Sys2Proof.Machine

/-- t agrees with s on everything but the EP0 entries' OWN, STALL and CNT, CTX, SETUP_LOCK, STALL_CAUSE and BUF. -/
structure Ep0Frame (s t : State) : Prop where
  params : t.params = s.params
  devState : t.devState = s.devState
  devAddr : t.devAddr = s.devAddr
  activeCfg : t.activeCfg = s.activeCfg
  lineCoding : t.lineCoding = s.lineCoding
  txPending : t.txPending = s.txPending
  txLen : t.txLen = s.txLen
  pendReset : t.pendReset = s.pendReset
  pendError : t.pendError = s.pendError
  tokq : t.tokq = s.tokq
  sieIfReset : t.sieIfReset = s.sieIfReset
  sieIfError : t.sieIfError = s.sieIfError
  sieFifo : t.sieFifo = s.sieFifo
  led : t.led = s.led
  faulted : t.faulted = s.faulted
  refused : t.refused = s.refused
  result : t.result = s.result
  hostSees : t.hostSees = s.hostSees
  answer : t.answer = s.answer
  agenda : t.agenda = s.agenda
  slot : t.slot = s.slot
  outEn : t.bd.ep0Out.en = s.bd.ep0Out.en
  inEn : t.bd.ep0In.en = s.bd.ep0In.en
  ep1In : t.bd.ep1In = s.bd.ep1In
  ep2Out : t.bd.ep2Out = s.bd.ep2Out
  ep2In : t.bd.ep2In = s.bd.ep2In

theorem Ep0Frame.refl (s : State) : Ep0Frame s s := by constructor <;> rfl

theorem Ep0Frame.trans {s t u : State} (h : Ep0Frame s t) (k : Ep0Frame t u) : Ep0Frame s u :=
  ⟨k.params.trans h.params, k.devState.trans h.devState, k.devAddr.trans h.devAddr, k.activeCfg.trans
    h.activeCfg, k.lineCoding.trans h.lineCoding, k.txPending.trans h.txPending, k.txLen.trans h.txLen,
    k.pendReset.trans h.pendReset, k.pendError.trans h.pendError, k.tokq.trans h.tokq, k.sieIfReset.trans
    h.sieIfReset, k.sieIfError.trans h.sieIfError, k.sieFifo.trans h.sieFifo, k.led.trans h.led,
    k.faulted.trans h.faulted, k.refused.trans h.refused, k.result.trans h.result, k.hostSees.trans
    h.hostSees, k.answer.trans h.answer, k.agenda.trans h.agenda, k.slot.trans h.slot, k.outEn.trans
    h.outEn, k.inEn.trans h.inEn, k.ep1In.trans h.ep1In, k.ep2Out.trans h.ep2Out, k.ep2In.trans h.ep2In⟩

theorem ep0Frame_setCtx (c : Ctx) (s : State) : Ep0Frame s (setCtx c s) := by constructor <;> rfl

theorem ep0Frame_setEp0Stall (v : Bool) (s : State) : Ep0Frame s (setEp0Stall v s) := by constructor <;> rfl

theorem ep0Frame_reclaim (s : State) : Ep0Frame s (reclaim .ep0In s) := by constructor <;> rfl

theorem ep0Frame_armRx (s : State) : Ep0Frame s (armRx .ep0Out s) := by
  unfold armRx; split
  · exact .refl s
  · constructor <;> rfl

theorem ep0Frame_armTx (data : List Byte) (s : State) : Ep0Frame s (armTx .ep0In data s) := by
  unfold armTx; split
  · constructor <;> rfl
  · exact .refl s

theorem ep0Frame_protocolStall (c : StallCause) (s : State) : Ep0Frame s (protocolStall c s) :=
  have h : Ep0Frame s { setCtx Ctx.idle (reclaim .ep0In (setEp0Stall true s)) with stallCause := c } := by
    constructor <;> rfl
  h.trans (ep0Frame_armRx _)

theorem ep0Frame_applyNoData (a : Action) (s : State) : Ep0Frame s (applyNoData a s) :=
  (ep0Frame_setCtx _ s).trans (ep0Frame_armTx _ _)

theorem ep0Frame_armNextIn {s t : State} {b : Bool} (h : armNextIn s = .ok (t, b)) : Ep0Frame s t := by
  unfold armNextIn at h
  simp only [bind, Except.bind] at h
  repeat' split at h
  all_goals cases h
  all_goals first | exact (ep0Frame_armTx _ _).trans (ep0Frame_setCtx _ _) | exact .refl _

theorem ep0Frame_applyResult {r : RequestResult} {s t : State} (h : applyResult r s = .ok t) : Ep0Frame s t := by
  cases r with
  | stall c => cases h; exact ep0Frame_protocolStall ..
  | noData a => cases h; exact ep0Frame_applyNoData ..
  | dataOut n a => cases h; exact ep0Frame_setCtx ..
  | dataIn bs =>
    simp only [applyResult, applyDataIn, bind, Except.bind] at h
    split at h
    · cases h; exact ep0Frame_applyNoData ..
    · split at h
      · cases h
      · rename_i v hv
        cases h
        exact (ep0Frame_setCtx _ _).trans (ep0Frame_armNextIn hv)

theorem ep0Frame_abortTransfer (s : State) : Ep0Frame s (abortTransfer s) := by constructor <;> rfl

theorem ep0Frame_endSetup (s : State) : Ep0Frame s (endSetup s) :=
  have h : Ep0Frame (armRx .ep0Out s) (endSetup s) := by constructor <;> rfl
  (ep0Frame_armRx s).trans h

theorem ep0Frame_setupStage {S : SetupWord} {rule : State → Except Fault RequestResult} {s t : State}
    (h : setupStage S rule s = .ok t) : Ep0Frame s t := by
  simp only [setupStage, bind, Except.bind] at h
  repeat' split at h
  all_goals cases h
  rename_i h2
  exact (((ep0Frame_abortTransfer _).trans (ep0Frame_setCtx _ _)).trans (ep0Frame_applyResult h2)).trans (ep0Frame_endSetup _)

theorem ep0Frame_malformedSetup (s : State) : Ep0Frame s (malformedSetup s) :=
  ((ep0Frame_abortTransfer s).trans (ep0Frame_protocolStall _ _)).trans (ep0Frame_endSetup _)

/-- An IN completion: the frame, or the status stage's deferred action (41_control_transfer.md R150-R152). -/
theorem inCompletion_cases {s t : State} (h : inCompletion s = .ok t) :
    Ep0Frame s t ∨ (s.ctx.stage = Stage.code .statusIn ∧ t = setCtx Ctx.idle (applyAction s.ctx.action s)) := by
  simp only [inCompletion, bind, Except.bind] at h
  split at h
  · cases h
  · rename_i g hg
    have hc : s.ctx.stage = g.code := by
      unfold readStage at hg
      split at hg
      · rename_i hs; cases hg; exact (stage_ofCode_iff _ _).mp hs
      · cases hg
    cases g with
    | statusIn => cases h; exact .inr ⟨hc, rfl⟩
    | dataIn =>
      dsimp only at h
      split at h
      · cases h
      · rename_i v hv
        obtain ⟨u, b⟩ := v
        cases h
        refine .inl ((ep0Frame_armNextIn hv).trans ?_)
        split
        · exact .refl _
        · exact ep0Frame_setCtx _ _
    | _ => cases h; exact .inl (.refl _)

theorem ep0Frame_outDataCompletion {s t : State} (h : outDataCompletion s = .ok t) : Ep0Frame s t := by
  simp only [outDataCompletion, bind, Except.bind] at h
  split at h
  · cases h
  · split at h
    · cases h
    · split at h
      · cases h
        exact ((ep0Frame_setCtx _ _).trans (ep0Frame_armTx _ _)).trans (ep0Frame_armRx _)
      · split at h
        · cases h
          exact (ep0Frame_setCtx _ _).trans (ep0Frame_protocolStall _ _)
        · cases h
          exact (ep0Frame_setCtx _ _).trans (ep0Frame_armRx _)

theorem ep0Frame_outCompletion {s t : State} (h : outCompletion s = .ok t) : Ep0Frame s t := by
  simp only [outCompletion, bind, Except.bind] at h
  split at h
  · cases h
  · rename_i g _
    cases g with
    | dataOut => exact ep0Frame_outDataCompletion h
    | statusOut => cases h; exact (ep0Frame_setCtx _ _).trans (ep0Frame_armRx _)
    | dataIn => cases h; exact ((ep0Frame_reclaim _).trans (ep0Frame_setCtx _ _)).trans (ep0Frame_armRx _)
    | idle => cases h; exact ep0Frame_armRx _
    | statusIn => cases h; exact ep0Frame_armRx _

/-- What the processing of a record can do (40_device_state.md R128): the frame, or an EP0IN record that ends a
status stage with its action. -/
theorem dispatchToken_cases {r : TokenRecord} {s t : State} (h : dispatchToken r s = .ok t) :
    Ep0Frame s t ∨ (tokenKind r = some .ep0In ∧ s.ctx.stage = Stage.code .statusIn ∧
      t = setCtx Ctx.idle (applyAction s.ctx.action s)) := by
  simp only [dispatchToken] at h
  split at h
  · cases h
  · simp only [tokenEp0Setup, bind, Except.bind] at h
    repeat' split at h
    all_goals first
      | (cases h; done)
      | exact .inl (ep0Frame_setupStage h)
      | (cases h; exact .inl (ep0Frame_malformedSetup _))
  · simp only [tokenEp0Out, bind, Except.bind] at h
    repeat' split at h
    all_goals first
      | (cases h; done)
      | exact .inl (ep0Frame_outCompletion h)
  · rename_i hk
    simp only [tokenEp0In, bind, Except.bind] at h
    repeat' split at h
    all_goals first
      | (cases h; done)
      | exact (inCompletion_cases h).imp_right fun h => ⟨hk, h⟩
  all_goals
    simp only [tokenEp1In, tokenEp2Out, tokenEp2In, bind, Except.bind] at h
    split at h
    · cases h
    · cases h; exact .inl (.refl _)

end Sys2Proof.Machine
end

