-- ==== Sys2Proof/Laws/Commands.lean ====
section
/-! SUPPORT. What the shared operations behind commands and environment steps can do, each said once: taking a
fault, the bulk-transfer sequencer (45_bulk_sequencer.md), the application (46_application.md), POLL
(40_device_state.md R126) and the SIE's steps (44_endpoint_buffers.md). -/

namespace Sys2Proof.Machine

/-- A committed step is its effect, or the mark of the fault it met (60_exceptions.md R250). -/
theorem commit_cases {s t : State} {r : Except Fault State} (h : commit s r = .next t) :
    r = .ok t ∨ ∃ f, r = .error f ∧ t = takeFault f s := by
  cases r with
  | ok u => cases h; exact .inl rfl
  | error f => cases h; exact .inr ⟨f, rfl, rfl⟩

theorem readDevState_cases {s : State} {d : DevState} (h : readDevState s = .ok d) : s.devState = d.code := by
  unfold readDevState at h
  split at h
  · rename_i hs; cases h; exact (devState_ofCode_iff _ _).mp hs
  · cases h

theorem readStage_cases {s : State} {g : Stage} (h : readStage s = .ok g) : s.ctx.stage = g.code := by
  unfold readStage at h
  split at h
  · rename_i hs; cases h; exact (stage_ofCode_iff _ _).mp hs
  · cases h

/-- READ_AVAILABLE: nothing, or the bytes of a received packet and EP2OUT armed (45_bulk_sequencer.md R221). -/
theorem readAvailable_cases {n : Nat} {s t : State} {dest : List Byte} (h : readAvailable n s = .ok (t, dest)) :
    (t = s ∧ dest = []) ∨
    (s.devState = DevState.code .configured ∧ s.bd.ep2Out.own = .fw ∧ t = armRx .ep2Out s ∧
      memRead s (.buffer .ep2Out) (min n s.bd.ep2Out.cnt.toNat) = .ok dest) := by
  simp only [readAvailable, bind, Except.bind] at h
  split at h
  · cases h
  · rename_i d hd
    split at h
    · cases h; exact .inl ⟨rfl, rfl⟩
    · rename_i hc
      split at h
      · cases h
      · rename_i bs hb
        cases h
        rw [not_or, not_not] at hc
        refine .inr ⟨?_, ?_, rfl, hb⟩
        · rw [readDevState_cases hd, hc.1]
        · simpa using hc.2

/-- WRITE_BYTES: nothing, or at most EP2_MPS bytes staged (45_bulk_sequencer.md R222). -/
theorem writeBytes_cases {data : List Byte} {s t : State} {n : Nat} (h : writeBytes data s = .ok (t, n)) :
    (t = s ∧ n = 0) ∨
    (s.devState = DevState.code .configured ∧ s.txPending = false ∧ data ≠ [] ∧ n = min data.length s.params.ep2Mps ∧
      t = { memWrite s .txBuf (data.take n) with txLen := BitVec.ofNat 7 n, txPending := true }) := by
  simp only [writeBytes, bind, Except.bind] at h
  split at h
  · cases h
  · rename_i d hd
    split at h
    · cases h; exact .inl ⟨rfl, rfl⟩
    · rename_i hc
      cases h
      rw [not_or, not_or, not_not] at hc
      exact .inr ⟨by rw [readDevState_cases hd, hc.1], by simpa using hc.2.1, hc.2.2, rfl, rfl⟩

/-- SERVICE_TX: nothing, or the staged packet armed on EP2IN (45_bulk_sequencer.md R223). -/
theorem serviceTx_cases {s t : State} (h : serviceTx s = .ok t) :
    t = s ∨
    ∃ data, s.devState = DevState.code .configured ∧ s.txPending = true ∧ s.bd.ep2In.own = .fw ∧
      memRead s .txBuf s.txLen.toNat = .ok data ∧ t = { armTx .ep2In data s with txPending := false } := by
  simp only [serviceTx, bind, Except.bind] at h
  split at h
  · cases h
  · rename_i d hd
    split at h
    · rename_i hc
      split at h
      · cases h
      · rename_i data hm
        cases h
        exact .inr ⟨data, by rw [readDevState_cases hd, hc.1], hc.2.1, hc.2.2, hm, rfl⟩
    · cases h; exact .inl rfl

/-- An application byte: nothing, or a LED value and WRITE_BYTES of one byte (46_application.md R231, R232). -/
theorem appByte_cases {b : Byte} {s t : State} (h : appByte b s = .ok t) :
    t = s ∨ ∃ led r n, writeBytes [r] { s with led := led } = .ok (t, n) := by
  have key : ∀ {led r}, respond led r s = .ok t → ∃ n, writeBytes [r] { s with led := led } = .ok (t, n) := by
    intro led r h
    simp only [respond, bind, Except.bind] at h
    split at h
    · cases h
    · rename_i v hv; obtain ⟨u, n⟩ := v; cases h; exact ⟨n, hv⟩
  unfold appByte at h
  split at h
  · obtain ⟨n, h⟩ := key h; exact .inr ⟨_, _, n, h⟩
  · obtain ⟨n, h⟩ := key h; exact .inr ⟨_, _, n, h⟩
  · obtain ⟨n, h⟩ := key h; exact .inr ⟨_, _, n, h⟩
  · cases h; exact .inl rfl

/-- APP_CMD: nothing, or a packet read and its first byte acted on (46_application.md R232). -/
theorem appStep_cases {s t : State} (h : appStep s = .ok t) :
    t = s ∨ ∃ u dest, readAvailable s.params.appReadMax s = .ok (u, dest) ∧ (t = u ∨ ∃ b, appByte b u = .ok t) := by
  simp only [appStep, bind, Except.bind] at h
  split at h
  · cases h; exact .inl rfl
  · split at h
    · cases h
    · rename_i v hv
      obtain ⟨u, dest⟩ := v
      refine .inr ⟨u, dest, hv, ?_⟩
      cases dest with
      | nil => cases h; exact .inl rfl
      | cons b _ => exact .inr ⟨b, h⟩

/-- POLL: bus reset processing, an error cleared, the first record dispatched, or nothing (40_device_state.md R126). -/
theorem pollStep_cases {s t : State} (h : pollStep s = .ok t) :
    (s.pendReset = true ∧ t = busReset s) ∨
    (s.pendReset = false ∧ s.pendError = true ∧ t = { s with pendError := false }) ∨
    (s.pendReset = false ∧ s.pendError = false ∧ ∃ r rest, s.tokq = r :: rest ∧
      dispatchToken r { s with tokq := rest } = .ok t) ∨
    (s.pendReset = false ∧ s.pendError = false ∧ s.tokq = [] ∧ t = s) := by
  unfold pollStep at h
  split at h
  · rename_i h1; cases h; exact .inl ⟨h1, rfl⟩
  · rename_i h1
    split at h
    · rename_i h2; cases h; exact .inr (.inl ⟨by simpa using h1, h2, rfl⟩)
    · rename_i h2
      split at h
      · rename_i r rest hq
        exact .inr (.inr (.inl ⟨by simpa using h1, by simpa using h2, r, rest, hq, h⟩))
      · rename_i hq
        cases h
        exact .inr (.inr (.inr ⟨by simpa using h1, by simpa using h2, hq, rfl⟩))

theorem plainResult_cases {r : Except Fault State} {t : State} (h : plainResult r = .ok t) :
    ∃ u, r = .ok u ∧ t = setResult 0 false [] u := by
  cases r with
  | ok u => cases h; exact ⟨u, rfl, rfl⟩
  | error f => cases h

/-! ## The SIE's steps -/

theorem sieError_cases {s t : State} (h : sieError s = .ok t) : t = s ∨ t = { s with sieIfError := true } := by
  simp only [sieError, bind, Except.bind] at h
  split at h
  · cases h
  · cases h
    split
    · exact .inr rfl
    · exact .inl rfl

/-- SIE_SETUP: the packet landed, or only an answer (44_endpoint_buffers.md R208, R211). -/
theorem sieSetup_cases {bytes : List Byte} {s t : State} (h : sieSetup bytes s = .ok t) :
    (bytes.length ≤ s.params.ep0Mps ∧ s.setupEnabled bytes = true ∧
      t = { complete .ep0Out (BitVec.ofNat 11 bytes.length) setupRecord (memWrite s (.buffer .ep0Out) bytes) with
            setupLock := true }) ∨
    ∃ d, s.devState = DevState.code d ∧ t = { s with answer := some (s.setupAnswer d) } := by
  unfold sieSetup at h
  split at h
  · rename_i he
    cases h
    exact .inl ⟨of_decide_eq_true (Bool.and_eq_true_iff.mp he).2, he, rfl⟩
  · simp only [bind, Except.bind] at h
    split at h
    · cases h
    · rename_i d hd; cases h; exact .inr ⟨d, readDevState_cases hd, rfl⟩

/-- SIE_OUT: a transport error, the packet landed, or only an answer (44_endpoint_buffers.md R209, R211, R213). -/
theorem sieOut_cases {e : OutEntry} {bytes : List Byte} {s t : State} (h : sieOut e bytes s = .ok t) :
    (t = s ∨ t = { s with sieIfError := true }) ∨
    (bytes.length ≤ bufCap s.params (outEntry e) ∧ s.outEnabled e bytes = true ∧
      t = complete (outEntry e) (BitVec.ofNat 11 bytes.length) (outRecord e) (memWrite s (.buffer (outEntry e)) bytes)) ∨
    ∃ d, s.devState = DevState.code d ∧ t = { s with answer := some (s.dataAnswer d (outEntry e)) } := by
  unfold sieOut at h
  split at h
  · exact .inl (sieError_cases h)
  · rename_i hl
    split at h
    · rename_i he; cases h; exact .inr (.inl ⟨by omega, he, rfl⟩)
    · simp only [bind, Except.bind] at h
      split at h
      · cases h
      · rename_i d hd; cases h; exact .inr (.inr ⟨d, readDevState_cases hd, rfl⟩)

/-- SIE_IN: the packet sent, or only an answer (44_endpoint_buffers.md R210, R211). -/
theorem sieIn_cases {e : InEntry} {s t : State} (h : sieIn e s = .ok t) :
    (∃ packet, s.inEnabled e = true ∧
      memRead s (.buffer (inEntry e)) (s.bd.get (inEntry e)).cnt.toNat = .ok packet ∧
      t = { complete (inEntry e) (s.bd.get (inEntry e)).cnt (inRecord e) s with hostSees := s.hostSees ++ [packet] }) ∨
    ∃ d, s.devState = DevState.code d ∧ t = { s with answer := some (s.dataAnswer d (inEntry e)) } := by
  unfold sieIn at h
  split at h
  · rename_i he
    simp only [bind, Except.bind] at h
    split at h
    · cases h
    · rename_i p hp; cases h; exact .inl ⟨p, he, hp, rfl⟩
  · simp only [bind, Except.bind] at h
    split at h
    · cases h
    · rename_i d hd; cases h; exact .inr ⟨d, readDevState_cases hd, rfl⟩

end Sys2Proof.Machine
end

