-- ==== Sys2Proof/Laws/DeviceState.lean ====
section
/-! SUPPORT. That the Device State Machine's effects, the bus events and CAPTURE keep the invariants
(40_device_state.md R121-R125, 44_endpoint_buffers.md R212, R213, 60_exceptions.md R244-R246). -/

namespace Sys2Proof.Machine

/-- A change of DEV_STATE between two states in which the device is not operational. -/
theorem Inv.quietState {s : State} (h : Inv s) (hs : s.isOperational = false) (d : DevState) (hd : d.operational = false) :
    Inv { s with devState := d.code } := by
  have ho : ({ s with devState := d.code } : State).isOperational = false := by
    rw [isOperational_code (d := d) rfl, hd]
  have hc : s.isConfigured = false := by
    cases hcc : s.isConfigured
    · rfl
    · rw [operational_of_configured hcc] at hs; exact absurd hs (by decide)
  have hc' : ({ s with devState := d.code } : State).isConfigured = false := by
    cases hcc : ({ s with devState := d.code } : State).isConfigured
    · rfl
    · rw [operational_of_configured hcc] at ho; exact absurd ho (by decide)
  have hka := h.stateKnown
  obtain ⟨g, _, hg⟩ := readDevState_of_known hka
  have hgo : g.operational = false := by rw [← isOperational_code hg, hs]
  have ha : s.isAddressed = false := by
    cases haa : s.isAddressed
    · rfl
    · rw [isAddressed_code hg] at haa
      rcases haa with rfl | rfl <;> exact absurd hgo (by decide)
  have ha' : ({ s with devState := d.code } : State).isAddressed = false := by
    cases haa : ({ s with devState := d.code } : State).isAddressed
    · rfl
    · rw [isAddressed_code (s := { s with devState := d.code }) (d := d) rfl] at haa
      rcases haa with rfl | rfl <;> exact absurd hd (by decide)
  have hr : s.records = [] := by
    cases hrr : s.records with
    | nil => rfl
    | cons x l =>
      have := h.records.operational (by rw [hrr]; exact List.cons_ne_nil _ _)
      rw [hs] at this
      exact absurd this (by decide)
  obtain ⟨a, u, k, ⟨l1, l2, l3, l4, l5, l6, l7, l8, l9⟩, ⟨r1, r2, r3, r4, r5, r6, r7, r8, r9, r10⟩,
    ⟨x1, x2, x3, x4, x5⟩, b, m⟩ := h
  refine ⟨a, u, ?_, ⟨?_, ?_, ?_, l4, l5, l6, l7, ?_, l9⟩, ⟨r1, ?_, r3, r4, r5, r6, r7, r8, r9, r10⟩,
    ⟨x1, ?_, x3, x4, x5⟩, ⟨b.1, b.2, b.3, b.4, b.5, b.6⟩, ⟨m.1, m.2, m.3⟩⟩
  · show (DevState.ofCode d.code).isSome = true; cases d <;> rfl
  · rw [ho, ← hs]; exact l1
  · rw [hc', ← hc]; exact l2
  · rw [hc', ← hc]; exact l3
  · rw [ha', ← ha]; exact l8
  · intro hne
    exact absurd hr hne
  · cases hact : s.ctx.action with
    | noAction => simp only [Action.applicable]
    | setLineCoding => simp only [Action.applicable]
    | setAddress z => rw [hact] at x2; rw [Action.applicable, hs] at x2; exact absurd x2.1 (by decide)
    | setConfig z => rw [hact] at x2; rw [Action.applicable, ha] at x2; exact absurd x2.1 (by decide)

/-- A state with no control transfer, nothing staged, no records, and the entries as DEV_STATE asks. -/
theorem Inv.fresh {s t : State} (h : Inv s) (params : t.params = s.params) (buf : t.buf = s.buf)
    (faulted : t.faulted = none) (ctx : t.ctx = Ctx.idle) (tx : t.txPending = false) (txLen : t.txLen = 0)
    (recs : t.records = []) (lock : t.setupLock = false) (known : (DevState.ofCode t.devState).isSome = true)
    (notAddressed : t.isAddressed = false) (addr : t.devAddr = 0) (cfg : t.activeCfg = 0)
    (out : t.bd.ep0Out = BdStat.zero ∧ t.isOperational = false ∨
      t.bd.ep0Out = { own := .hw, en := true, stall := false, cnt := BitVec.ofNat 11 s.params.ep0Mps } ∧ t.isOperational = true)
    (inn : t.bd.ep0In = { own := .fw, en := t.isOperational, stall := false, cnt := 0 })
    (e1 : t.bd.ep1In = BdStat.zero) (e2 : t.bd.ep2Out = BdStat.zero) (e3 : t.bd.ep2In = BdStat.zero) : Inv t := by
  have hc : t.isConfigured = false := by
    unfold State.isAddressed at notAddressed
    unfold State.isConfigured
    exact (Bool.or_eq_false_iff.mp notAddressed).2
  have z := admitted_sizes h.admitted
  have hq : t.tokq = [] ∧ t.sieFifo = [] := by simpa [State.records] using recs
  refine ⟨params ▸ h.admitted, faulted, known, ⟨?_, ?_, ?_, ?_, ?_, ?_, ?_, ?_, ?_⟩,
    ⟨?_, ?_, ?_, ?_, ?_, ?_, ?_, ?_, ?_, ?_⟩, ⟨?_, ?_, ?_, ?_, ?_⟩, ⟨?_, ?_, ?_, ?_, ?_, ?_⟩, ⟨?_, ?_, ?_⟩⟩
  · rcases out with ⟨ho, hp⟩ | ⟨ho, hp⟩ <;> rw [ho, inn, hp] <;> exact ⟨rfl, rfl⟩
  · rw [e1, e2, e3, hc]; exact ⟨rfl, rfl, rfl⟩
  · rw [cfg, hc]; rfl
  · rw [e1, e2, e3]; exact ⟨rfl, rfl, rfl⟩
  · intro e
    rw [params]
    cases e
    · rcases out with ⟨ho, _⟩ | ⟨ho, _⟩ <;> simp only [PerEntry.get, ho]
      · exact Nat.zero_le _
      · rw [z.cnt_toNat .ep0Out (by rw [z.bufCap_eq]; exact le_refl _), z.bufCap_eq]; exact le_refl _
    · simp only [PerEntry.get, inn]; exact Nat.zero_le _
    · simp only [PerEntry.get, e1]; exact Nat.zero_le _
    · simp only [PerEntry.get, e2]; exact Nat.zero_le _
    · simp only [PerEntry.get, e3]; exact Nat.zero_le _
  · intro _ hen _
    rcases out with ⟨ho, _⟩ | ⟨ho, _⟩
    · rw [ho] at hen; exact absurd hen (by decide)
    · rw [ho]
  · intro e hen
    cases e
    · rcases out with ⟨ho, _⟩ | ⟨ho, _⟩
      · simp only [PerEntry.get, ho]; rfl
      · simp only [PerEntry.get, ho] at hen; exact absurd hen (by decide)
    · simp only [PerEntry.get, inn]
    · simp only [PerEntry.get, e1]; rfl
    · simp only [PerEntry.get, e2]; rfl
    · simp only [PerEntry.get, e3]; rfl
  · rw [addr, notAddressed]; decide
  · intro _; rw [lock, recs]; simp
  · rw [recs]; simp
  · rw [recs]; simp
  · exact fun _ => hq.2
  · rw [hq.1]; exact Nat.zero_le _
  · rw [hq.2]; exact Nat.zero_le _
  · rw [recs]; simp
  · rw [recs]; simp
  · rw [recs]; simp
  · rw [recs]; simp
  · rw [recs]; exact List.Pairwise.nil
  · rw [ctx]; decide
  · rw [ctx]; simp only [Ctx.idle, Action.applicable]
  · rw [ctx]; intro h; exact absurd h (by decide)
  · rw [ctx]; intro h; exact absurd h (by decide)
  · rw [ctx]; intro h; exact absurd h (by decide)
  · rcases out with ⟨ho, _⟩ | ⟨ho, _⟩
    · rw [ho]; intro _ i hi; exact absurd hi (Nat.not_lt_zero i)
    · rw [ho]; intro h; cases h
  · rw [inn]; intro h; cases h
  · rw [e1]; intro h; exact absurd h (by decide)
  · rw [e2]; intro _ i hi; exact absurd hi (Nat.not_lt_zero i)
  · rw [e3]; intro h; exact absurd h (by decide)
  · rw [tx]; intro h; exact absurd h (by decide)
  · rw [buf]; exact h.memory.canonical
  · rw [buf, params]; exact h.memory.inside
  · rw [txLen]; exact Nat.zero_le _

theorem Inv.attachDevice {s t : State} (h : Inv s) (ht : attachDevice s = .ok t) : Inv t := by
  obtain ⟨d, hd, hc⟩ := readDevState_of_known h.stateKnown
  simp only [Machine.attachDevice, hd, bind, Except.bind] at ht
  cases ht
  split
  · rename_i he
    exact h.quietState (by rw [isOperational_code hc, he]; rfl) .attached rfl
  · exact h

theorem Inv.powerDevice {s t : State} (h : Inv s) (ht : powerDevice s = .ok t) : Inv t := by
  obtain ⟨d, hd, hc⟩ := readDevState_of_known h.stateKnown
  simp only [Machine.powerDevice, hd, bind, Except.bind] at ht
  cases ht
  split
  · rename_i he
    exact h.quietState (by rw [isOperational_code hc, he]; rfl) .powered rfl
  · exact h

theorem Inv.detachDevice {s : State} (h : Inv s) : Inv (detachDevice s) :=
  h.fresh rfl rfl h.unfaulted rfl rfl rfl rfl rfl rfl rfl rfl rfl (.inl ⟨rfl, rfl⟩) rfl rfl rfl rfl

/-- Bus reset processing with a reset pending (40_device_state.md R125). -/
theorem Inv.busReset {s : State} (h : Inv s) (hp : s.pendReset = true) : Inv (busReset s) := by
  have hf : s.sieFifo = [] := h.records.heldInReset (by simp [State.resetBusy, hp])
  exact h.fresh rfl rfl h.unfaulted rfl rfl rfl (by simp [Machine.busReset, State.records, hf]) rfl rfl rfl rfl rfl
    (.inr ⟨rfl, rfl⟩) rfl rfl rfl rfl

/-- A bus reset seen by the SIE: nothing uncaptured is left (44_endpoint_buffers.md R212). -/
theorem Inv.sieReset {s t : State} (h : Inv s) (ht : sieReset s = .ok t) : Inv t := by
  obtain ⟨d, hd, hc⟩ := readDevState_of_known h.stateKnown
  simp only [Machine.sieReset, hd, bind, Except.bind] at ht
  cases ht
  split
  swap
  · exact h
  have hsub : ∀ x, x ∈ s.tokq → x ∈ s.records := fun x hx => List.mem_append_left _ hx
  have hsl : List.Sublist s.tokq s.records := List.sublist_append_left _ _
  have hr : ({ s with sieIfReset := true, sieFifo := [], setupLock := false } : State).records = s.tokq := by
    simp [State.records]
  obtain ⟨a, u, k, ⟨l1, l2, l3, l4, l5, l6, l7, l8, l9⟩, ⟨r1, r2, r3, r4, r5, r6, r7, r8, r9, r10⟩,
    ⟨x1, x2, x3, x4, x5⟩, b, m⟩ := h
  refine ⟨a, u, k, ⟨l1, l2, l3, l4, l5, ?_, l7, l8, ?_⟩, ⟨?_, ?_, ?_, ?_, ?_, ?_, ?_, ?_, ?_, ?_⟩,
    ⟨x1, ?_, x3, x4, ?_⟩, ⟨b.1, b.2, b.3, b.4, b.5, b.6⟩, ⟨m.1, m.2, m.3⟩⟩
  · intro hb; exact absurd hb (by simp [State.resetBusy])
  · intro hb; exact absurd hb (by simp [State.resetBusy])
  · rw [hr]; exact fun x hx => r1 x (hsub x hx)
  · rw [hr]
    intro hne
    refine r2 (fun he => hne ?_)
    have := (List.append_eq_nil_iff.mp he).1
    exact this
  · exact fun _ => rfl
  · exact r4
  · exact Nat.zero_le _
  · rw [hr]; exact le_trans (hsl.filter _).length_le r6
  · rw [hr]
    intro hany
    obtain ⟨x, hx, hx'⟩ := List.any_eq_true.mp hany
    exact r7 (List.any_eq_true.mpr ⟨x, hsub x hx, hx'⟩)
  · rw [hr]; exact le_trans (hsl.filter _).length_le r8
  · rw [hr]
    intro hany
    obtain ⟨x, hx, hx'⟩ := List.any_eq_true.mp hany
    exact r9 (List.any_eq_true.mpr ⟨x, hsub x hx, hx'⟩)
  · rw [hr]; exact r10.sublist hsl
  · exact x2
  · intro hst
    refine ⟨(x5 hst).1, ?_⟩
    rw [hr]
    refine List.any_eq_false.mpr (fun x hx => ?_)
    exact List.any_eq_false.mp (x5 hst).2 x (hsub x hx)

theorem Inv.sieError {s t : State} (h : Inv s) (ht : sieError s = .ok t) : Inv t := by
  rcases sieError_cases ht with rfl | rfl
  · exact h
  · exact h.congr ⟨rfl, rfl, rfl, rfl, rfl, rfl, rfl, rfl, rfl, rfl, rfl, rfl, rfl, rfl, rfl⟩

/-- CAPTURE: a reset stays pending, an error is in no invariant, a record keeps its place in the order
(60_exceptions.md R244-R246). -/
theorem Inv.capture {s : State} (h : Inv s) : Inv (capture s) := by
  unfold Machine.capture
  split
  · rename_i hi
    have hb : s.resetBusy = true := by simp [State.resetBusy, hi]
    have hf := h.records.heldInReset hb
    obtain ⟨a, u, k, ⟨l1, l2, l3, l4, l5, l6, l7, l8, l9⟩, ⟨r1, r2, r3, r4, r5, r6, r7, r8, r9, r10⟩,
      ⟨x1, x2, x3, x4, x5⟩, b, m⟩ := h
    refine ⟨a, u, k, ⟨l1, l2, l3, l4, l5, ?_, l7, l8, ?_⟩, ⟨r1, r2, fun _ => hf, r4, r5, r6, r7, r8, r9, r10⟩,
      ⟨x1, x2, x3, x4, x5⟩, ⟨b.1, b.2, b.3, b.4, b.5, b.6⟩, ⟨m.1, m.2, m.3⟩⟩
    · intro hb; exact absurd hb (by simp [State.resetBusy])
    · intro hb; exact absurd hb (by simp [State.resetBusy])
  · split
    · exact h.congr ⟨rfl, rfl, rfl, rfl, rfl, rfl, rfl, rfl, rfl, rfl, rfl, rfl, rfl, rfl, rfl⟩
    · split
      · exact h
      · rename_i t rest hq
        split
        · exact h
        · rename_i hfull
          have hlt : s.tokq.length < s.params.tokqDepth := by simpa [State.tokqFull] using hfull
          have hr : ({ s with sieFifo := rest, tokq := s.tokq ++ [t] } : State).records = s.records := by
            simp [State.records, hq]
          obtain ⟨a, u, k, ⟨l1, l2, l3, l4, l5, l6, l7, l8, l9⟩, ⟨r1, r2, r3, r4, r5, r6, r7, r8, r9, r10⟩,
            ⟨x1, x2, x3, x4, x5⟩, b, m⟩ := h
          refine ⟨a, u, k, ⟨l1, l2, l3, l4, l5, ?_, l7, l8, ?_⟩, ⟨?_, ?_, ?_, ?_, ?_, ?_, ?_, ?_, ?_, ?_⟩,
            ⟨x1, x2, x3, x4, ?_⟩, ⟨b.1, b.2, b.3, b.4, b.5, b.6⟩, ⟨m.1, m.2, m.3⟩⟩
          · rw [hr]; exact l6
          · rw [hr]; exact l9
          · rw [hr]; exact r1
          · rw [hr]; exact r2
          · intro hb
            have := r3 hb
            rw [hq] at this
            exact absurd this (List.cons_ne_nil _ _)
          · simpa using hlt
          · rw [hq] at r5
            simp only [List.length_cons] at r5
            exact le_trans (Nat.le_succ _) r5
          · rw [hr]; exact r6
          · rw [hr]; exact r7
          · rw [hr]; exact r8
          · rw [hr]; exact r9
          · rw [hr]; exact r10
          · rw [hr]; exact x5

end Sys2Proof.Machine
end

