-- ==== Sys2Proof/Laws/DataPath.lean ====
section
/-! SUPPORT. That the data endpoints' operations keep the invariants and meet no model fault: ARM_RX and ARM_TX of a
data entry (44_endpoint_buffers.md R201, R202), READ_AVAILABLE, WRITE_BYTES and SERVICE_TX (45_bulk_sequencer.md),
and the application on top of them (46_application.md). -/

namespace Sys2Proof.Machine

/-- t is s but for the data entries' OWN and CNT, the staged packet, and bytes of BUF. -/
structure DataStep (s t : State) : Prop where
  params : t.params = s.params
  devState : t.devState = s.devState
  devAddr : t.devAddr = s.devAddr
  activeCfg : t.activeCfg = s.activeCfg
  ctx : t.ctx = s.ctx
  pendReset : t.pendReset = s.pendReset
  tokq : t.tokq = s.tokq
  sieIfReset : t.sieIfReset = s.sieIfReset
  sieFifo : t.sieFifo = s.sieFifo
  setupLock : t.setupLock = s.setupLock
  faulted : t.faulted = s.faulted
  ep0Out : t.bd.ep0Out = s.bd.ep0Out
  ep0In : t.bd.ep0In = s.bd.ep0In
  enabled : ∀ e, (t.bd.get e).en = (s.bd.get e).en
  stall : ∀ e, (t.bd.get e).stall = (s.bd.get e).stall
  fits : ∀ e, (t.bd.get e).cnt.toNat ≤ bufCap s.params e
  disabled : ∀ e, (t.bd.get e).en = false → (t.bd.get e).own = .fw
  mono : ∀ a, (s.buf.read a).isSome = true → (t.buf.read a).isSome = true
  canonical : t.buf.wf
  inside : ∀ c ∈ t.buf, c.1 < bufSize s.params
  ep1In : t.bd.ep1In.own = .hw → t.written (.buffer .ep1In) t.bd.ep1In.cnt.toNat
  ep2Out : t.bd.ep2Out.own = .fw → t.written (.buffer .ep2Out) t.bd.ep2Out.cnt.toNat
  ep2In : t.bd.ep2In.own = .hw → t.written (.buffer .ep2In) t.bd.ep2In.cnt.toNat
  staged : t.txPending = true → t.written .txBuf t.txLen.toNat
  txLen : t.txLen.toNat ≤ s.params.ep2Mps

theorem Inv.dataStep {s t : State} (h : Inv s) (c : DataStep s t) : Inv t := by
  obtain ⟨cp, cs, ca, cc, cx, cpr, cq, cir, cif, cl, cf, c0, c1, cen, cst, cfit, cdis, cm, cwf, cin, w1, w2, w3, w4, ctl⟩ := c
  have hr : t.records = s.records := by simp [State.records, cq, cif]
  have hb : t.resetBusy = s.resetBusy := by simp [State.resetBusy, cpr, cir]
  have hw : ∀ a n, s.written a n → t.written a n := by
    intro a n hs i hi; rw [cp]; exact cm _ (hs i hi)
  have ho := isOperational_congr cs
  have hc := isConfigured_congr cs
  have hd := isAddressed_congr cs
  have e1 := cen .ep1In
  have e2 := cen .ep2Out
  have e3 := cen .ep2In
  have s1 := cst .ep1In
  have s2 := cst .ep2Out
  have s3 := cst .ep2In
  simp only [PerEntry.get] at e1 e2 e3 s1 s2 s3
  obtain ⟨a, u, k, ⟨l1, l2, l3, l4, l5, l6, l7, l8, l9⟩, ⟨r1, r2, r3, r4, r5, r6, r7, r8, r9, r10⟩,
    ⟨x1, x2, x3, x4, x5⟩, ⟨b1, b2, b3, b4, b5, b6⟩, ⟨m1, m2, m3⟩⟩ := h
  refine ⟨cp ▸ a, cf ▸ u, cs ▸ k, ⟨?_, ?_, ?_, ?_, cp ▸ cfit, ?_, cdis, ?_, ?_⟩,
    ⟨?_, ?_, ?_, ?_, ?_, ?_, ?_, ?_, ?_, ?_⟩, ⟨?_, ?_, ?_, ?_, ?_⟩,
    ⟨?_, ?_, w1, w2, w3, w4⟩, ⟨cwf, cp ▸ cin, cp ▸ ctl⟩⟩
  · rw [c0, c1, ho]; exact l1
  · rw [e1, e2, e3, hc]; exact l2
  · rw [cc, hc, cp]; exact l3
  · rw [s1, s2, s3]; exact l4
  · rw [hb, c0, hr]; exact l6
  · rw [ca, hd]; exact l8
  · rw [hb, cl, hr]; exact l9
  · rw [hr]; exact r1
  · rw [hr, ho]; exact r2
  · rw [hb, cif]; exact r3
  · rw [cq, cp]; exact r4
  · rw [cif, cp]; exact r5
  · rw [hr]; exact r6
  · rw [hr, c0]; exact r7
  · rw [hr]; exact r8
  · rw [hr, c1]; exact r9
  · rw [hr]; exact r10
  · rw [cx]; exact x1
  · rw [cx]; exact (Action.applicable_congr cs cp _).mpr x2
  · rw [cx]; exact x3
  · rw [cx]; exact x4
  · rw [cx, c1, hr]; exact x5
  · rw [c0]; exact fun hown => hw _ _ (b1 hown)
  · rw [c1]; exact fun hown => hw _ _ (b2 hown)

/-- A DataStep that changes no entry and no buffer but the staged packet. -/
theorem Inv.dataSame {s : State} (h : Inv s) : DataStep s s := by
  refine ⟨rfl, rfl, rfl, rfl, rfl, rfl, rfl, rfl, rfl, rfl, rfl, rfl, rfl, fun _ => rfl, fun _ => rfl,
    h.listed.countFits, h.listed.disabledOwned, fun _ h => h, h.memory.canonical, h.memory.inside,
    h.buffers.ep1In, h.buffers.ep2Out, h.buffers.ep2In, h.buffers.staged, h.memory.staged⟩

theorem Inv.dataArmRx {s : State} (h : Inv s) : DataStep s (armRx .ep2Out s) := by
  have z := admitted_sizes h.admitted
  unfold armRx
  split
  · exact h.dataSame
  · rename_i hc
    rw [not_or] at hc
    have hen : s.bd.ep2Out.en = true := by simpa [PerEntry.get] using hc.2
    have d := h.dataSame
    refine ⟨rfl, rfl, rfl, rfl, rfl, rfl, rfl, rfl, rfl, rfl, rfl, rfl, rfl, ?_, ?_, ?_, ?_, fun _ h => h, d.canonical,
      d.inside, d.ep1In, ?_, d.ep2In, d.staged, d.txLen⟩
    · intro e; cases e <;> rfl
    · intro e; cases e <;> rfl
    · intro e
      cases e
      case ep2Out =>
        show (BitVec.ofNat 11 (bufCap s.params .ep2Out)).toNat ≤ _
        rw [z.cnt_toNat .ep2Out (le_refl _)]
      case ep0Out => exact d.fits .ep0Out
      case ep0In => exact d.fits .ep0In
      case ep1In => exact d.fits .ep1In
      case ep2In => exact d.fits .ep2In
    · intro e
      cases e
      case ep2Out => intro hf; exact absurd (hen.symm.trans hf) (by decide)
      case ep0Out => exact d.disabled .ep0Out
      case ep0In => exact d.disabled .ep0In
      case ep1In => exact d.disabled .ep1In
      case ep2In => exact d.disabled .ep2In
    · intro hf; exact absurd hf (by simp [setBd, PerEntry.set])

theorem Inv.dataArmTx {s : State} (h : Inv s) (e : Entry) (he : e = .ep1In ∨ e = .ep2In) (data : List Byte) :
    DataStep s (armTx e data s) := by
  have z := admitted_sizes h.admitted
  by_cases hr : txReady e s = true
  swap
  · unfold armTx; rw [if_neg hr]; exact h.dataSame
  have d := h.dataSame
  have hlen : (data.take (bufCap s.params e)).length = min data.length (bufCap s.params e) := by
    rw [List.length_take, Nat.min_comm]
  have hcnt : ((armTx e data s).bd.get e).cnt.toNat = min data.length (bufCap s.params e) := by
    rw [armTx_bd, perEntry_get_set, if_pos rfl, armedTx, if_pos ((txReady_iff e s).mp hr)]
    exact z.cnt_toNat e (Nat.min_le_right _ _)
  have hbuf : (armTx e data s).buf = s.buf.writeBytes (adr s.params e) (data.take (bufCap s.params e)) := by
    rw [armTx_buf, if_pos hr]
  have hbd : ∀ e', e' ≠ e → (armTx e data s).bd.get e' = s.bd.get e' := by
    intro e' hne; rw [armTx_bd, perEntry_get_set_ne _ _ hne]
  have hen : ((armTx e data s).bd.get e).en = (s.bd.get e).en := by
    rw [armTx_bd, perEntry_get_set, if_pos rfl, armedTx, if_pos ((txReady_iff e s).mp hr)]
  have hst : ((armTx e data s).bd.get e).stall = (s.bd.get e).stall := by
    rw [armTx_bd, perEntry_get_set, if_pos rfl, armedTx, if_pos ((txReady_iff e s).mp hr)]
  have hmono : ∀ a, (s.buf.read a).isSome = true → ((armTx e data s).buf.read a).isSome = true := by
    intro a ha; rw [hbuf]; exact Memory.isSome_read_writeBytes _ _ _ _ ha
  have hw : ∀ a n, s.written a n → (armTx e data s).written a n := by
    intro a n hs i hi; rw [armTx_params]; exact hmono _ (hs i hi)
  have hnew : (armTx e data s).written (.buffer e) ((armTx e data s).bd.get e).cnt.toNat := by
    intro i hi
    rw [hcnt] at hi
    rw [hbuf, armTx_params]
    exact Memory.isSome_read_written _ _ _ _ (by rw [hlen]; exact hi)
  have hE : ∀ P : Entry → Prop, P e → (∀ e', e' ≠ e → P e') → ∀ e', P e' := by
    intro P h1 h2 e'
    by_cases hc : e' = e
    · rw [hc]; exact h1
    · exact h2 e' hc
  refine ⟨by simp, by simp, by simp, by simp, by simp, by simp, by simp, by simp, by simp, by simp, by simp, ?_, ?_,
    ?_, ?_, ?_, ?_, hmono, ?_, ?_, ?_, ?_, ?_, ?_, ?_⟩
  · exact hbd .ep0Out (by rcases he with rfl | rfl <;> decide)
  · exact hbd .ep0In (by rcases he with rfl | rfl <;> decide)
  · exact hE _ hen fun e' hne => by rw [hbd e' hne]
  · exact hE _ hst fun e' hne => by rw [hbd e' hne]
  · exact hE _ (by rw [hcnt]; exact Nat.min_le_right _ _) fun e' hne => by rw [hbd e' hne]; exact d.fits e'
  · refine hE _ (fun hf => ?_) fun e' hne => by rw [hbd e' hne]; exact d.disabled e'
    rw [hen, ((txReady_iff e s).mp hr).2] at hf
    exact absurd hf (by decide)
  · rw [hbuf]; exact Memory.wf_writeBytes _ _ d.canonical
  · intro c hc
    rw [hbuf] at hc
    rcases Memory.mem_writeBytes _ hc with hc | hc
    · have : adr s.params e + bufCap s.params e ≤ bufSize s.params := z.area_inside (.buffer e)
      omega
    · exact d.inside c hc
  · rcases he with rfl | rfl
    · exact fun _ => hnew
    · rw [show (armTx .ep2In data s).bd.ep1In = s.bd.ep1In from hbd .ep1In (by decide)]
      exact fun ho => hw _ _ (d.ep1In ho)
  · rw [show (armTx e data s).bd.ep2Out = s.bd.ep2Out from hbd .ep2Out (by rcases he with rfl | rfl <;> decide)]
    exact fun ho => hw _ _ (d.ep2Out ho)
  · rcases he with rfl | rfl
    · rw [show (armTx .ep1In data s).bd.ep2In = s.bd.ep2In from hbd .ep2In (by decide)]
      exact fun ho => hw _ _ (d.ep2In ho)
    · exact fun _ => hnew
  · rw [armTx_txPending, armTx_txLen]; exact fun ho => hw _ _ (d.staged ho)
  · rw [armTx_txLen]; exact d.txLen

theorem Inv.armRx {s : State} (h : Inv s) : Inv (Machine.armRx .ep2Out s) := h.dataStep h.dataArmRx

theorem Inv.armTx {s : State} (h : Inv s) (e : Entry) (he : e = .ep1In ∨ e = .ep2In) (data : List Byte) :
    Inv (Machine.armTx e data s) := h.dataStep (h.dataArmTx e he data)

/-- READ_AVAILABLE meets no fault, since a received packet is in the buffer (45_bulk_sequencer.md R221). -/
theorem Inv.readAvailable {s : State} (h : Inv s) (n : Nat) : ∃ t dest, readAvailable n s = .ok (t, dest) ∧ Inv t := by
  obtain ⟨d, hd, hc⟩ := readDevState_of_known h.stateKnown
  simp only [Machine.readAvailable, hd, bind, Except.bind]
  split
  · exact ⟨_, _, rfl, h⟩
  · rename_i hn
    rw [not_or] at hn
    have hfw : s.bd.ep2Out.own = .fw := by simpa using hn.2
    have hfit : s.bd.ep2Out.cnt.toNat ≤ bufCap s.params .ep2Out := h.listed.countFits .ep2Out
    obtain ⟨bs, hb, _⟩ := memRead_of_written (s := s) (area := .buffer .ep2Out) (n := min n s.bd.ep2Out.cnt.toNat)
      (le_trans (Nat.min_le_right _ _) hfit)
      (fun i hi => h.buffers.ep2Out hfw i (lt_of_lt_of_le hi (Nat.min_le_right _ _)))
    rw [hb]
    exact ⟨_, _, rfl, h.armRx⟩

/-- WRITE_BYTES meets no fault (45_bulk_sequencer.md R222). -/
theorem Inv.writeBytes {s : State} (h : Inv s) (data : List Byte) : ∃ t n, writeBytes data s = .ok (t, n) ∧ Inv t := by
  obtain ⟨d, hd, hc⟩ := readDevState_of_known h.stateKnown
  have z := admitted_sizes h.admitted
  have z2 := z.ep2
  simp only [Machine.writeBytes, hd, bind, Except.bind]
  split
  · exact ⟨_, _, rfl, h⟩
  · refine ⟨_, _, rfl, h.dataStep ?_⟩
    have dd := h.dataSame
    have hn : (BitVec.ofNat 7 (min data.length s.params.ep2Mps)).toNat = min data.length s.params.ep2Mps :=
      toNat_ofNat_le (Nat.min_le_right _ _) (by omega)
    have hlen : (data.take (min data.length s.params.ep2Mps)).length = min data.length s.params.ep2Mps := by
      rw [List.length_take]; omega
    have hmono : ∀ a, (s.buf.read a).isSome = true →
        ((s.buf.writeBytes (txBufAdr s.params) (data.take (min data.length s.params.ep2Mps))).read a).isSome = true :=
      fun a ha => Memory.isSome_read_writeBytes _ _ _ _ ha
    refine ⟨rfl, rfl, rfl, rfl, rfl, rfl, rfl, rfl, rfl, rfl, rfl, rfl, rfl, fun _ => rfl, fun _ => rfl, dd.fits,
      dd.disabled, hmono, Memory.wf_writeBytes _ _ dd.canonical, ?_, fun ho i hi => hmono _ (dd.ep1In ho i hi),
      fun ho i hi => hmono _ (dd.ep2Out ho i hi), fun ho i hi => hmono _ (dd.ep2In ho i hi), ?_, ?_⟩
    · intro c hc
      rcases Memory.mem_writeBytes _ hc with hc | hc
      · have := z.area_inside .txBuf
        simp only [areaBase, areaSize] at this hc
        omega
      · exact dd.inside c hc
    · intro _ i hi
      simp only [hn] at hi
      exact Memory.isSome_read_written _ _ _ _ (by rw [hlen]; exact hi)
    · simp only [hn]; exact Nat.min_le_right _ _

/-- SERVICE_TX meets no fault, since a staged packet is in TX_BUF (45_bulk_sequencer.md R223). -/
theorem Inv.serviceTx {s : State} (h : Inv s) : ∃ t, serviceTx s = .ok t ∧ Inv t := by
  obtain ⟨d, hd, hc⟩ := readDevState_of_known h.stateKnown
  simp only [Machine.serviceTx, hd, bind, Except.bind]
  split
  · rename_i hn
    obtain ⟨bs, hb, _⟩ := memRead_of_written (s := s) (area := .txBuf) (n := s.txLen.toNat) h.memory.staged
      (h.buffers.staged hn.2.1)
    rw [hb]
    refine ⟨_, rfl, h.dataStep ?_⟩
    have dd := h.dataArmTx .ep2In (.inr rfl) bs
    obtain ⟨a1, a2, a3, a4, a5, a6, a7, a8, a9, a10, a11, a12, a13, a14, a15, a16, a17, a18, a19, a20, a21, a22, a23,
      _, a25⟩ := dd
    exact ⟨a1, a2, a3, a4, a5, a6, a7, a8, a9, a10, a11, a12, a13, a14, a15, a16, a17, a18, a19, a20, a21, a22, a23,
      fun hf => absurd hf (by simp), a25⟩
  · exact ⟨_, rfl, h⟩

/-- The LED is in no invariant. -/
theorem Inv.led {s : State} (h : Inv s) (v : Bool) : Inv { s with led := v } :=
  h.congr ⟨rfl, rfl, rfl, rfl, rfl, rfl, rfl, rfl, rfl, rfl, rfl, rfl, rfl, rfl, rfl⟩

/-- A result handed to the caller is in no invariant. -/
theorem Inv.setResult {s : State} (h : Inv s) (n : Nat) (b : Bool) (bytes : List Byte) :
    Inv (Machine.setResult n b bytes s) :=
  h.congr ⟨rfl, rfl, rfl, rfl, rfl, rfl, rfl, rfl, rfl, rfl, rfl, rfl, rfl, rfl, rfl⟩

/-- Nor is the REFUSED mark. -/
theorem Inv.refuseCommand {s : State} (h : Inv s) (r : CommandRefusal) : Inv (Machine.refuseCommand r s) :=
  h.congr ⟨rfl, rfl, rfl, rfl, rfl, rfl, rfl, rfl, rfl, rfl, rfl, rfl, rfl, rfl, rfl⟩

theorem Inv.respond {s : State} (h : Inv s) (led : Bool) (r : Byte) : ∃ t, respond led r s = .ok t ∧ Inv t := by
  obtain ⟨t, n, ht, hi⟩ := (h.led led).writeBytes [r]
  exact ⟨t, by simp only [Machine.respond, ht, bind, Except.bind], hi⟩

theorem Inv.appByte {s : State} (h : Inv s) (b : Byte) : ∃ t, appByte b s = .ok t ∧ Inv t := by
  unfold Machine.appByte
  split
  · exact h.respond ..
  · exact h.respond ..
  · exact h.respond ..
  · exact ⟨s, rfl, h⟩

/-- APP_CMD meets no fault (46_application.md R232). -/
theorem Inv.appStep {s : State} (h : Inv s) : ∃ t, appStep s = .ok t ∧ Inv t := by
  simp only [Machine.appStep]
  split
  · exact ⟨s, rfl, h⟩
  · obtain ⟨u, dest, hu, hi⟩ := h.readAvailable s.params.appReadMax
    simp only [hu, bind, Except.bind]
    cases dest with
    | nil => exact ⟨u, rfl, hi⟩
    | cons b _ => exact hi.appByte b

end Sys2Proof.Machine
end

