-- ==== Sys2Proof/Laws/Effect.lean ====
section
/-! SUPPORT. What exec can do, said once for all instructions: the next state of each is the mark of a fault or a
refusal, or its effect through the shared operations. -/

namespace Sys2Proof.Machine

/-- The next states exec can answer from s, by instruction. -/
inductive Effect (s : State) : Instr → State → Prop
  | fault (i f) : Effect s i (takeFault f s)
  | refuse (i r) : Effect s i (refuseCommand r s)
  | setup (i S rule t) : encode i = .setup S → setupStage S rule s = .ok t → Effect s i t
  | pollReset : s.pendReset = true → Effect s .poll (setResult 0 false [] (busReset s))
  | pollErr : s.pendReset = false → s.pendError = true → Effect s .poll (setResult 0 false [] { s with pendError
      := false })
  | pollNone : s.pendReset = false → s.pendError = false → s.tokq = [] → Effect s .poll (setResult 0 false [] s)
  | pollTok (r rest u) : s.pendReset = false → s.pendError = false → s.tokq = r :: rest → dispatchToken r { s
      with tokq := rest } = .ok u →
      Effect s .poll (setResult 0 false [] u)
  | token (k : TokenKind) (t) : dispatchToken k.record s = .ok t → Effect s k.instr t
  | attach : s.devState = 0 → Effect s .attach (setResult 0 false [] { s with devState := 1 })
  | attachNo : s.devState ≠ 0 → Effect s .attach (setResult 0 false [] s)
  | power : s.devState = 1 → Effect s .power { s with devState := 2 }
  | powerNo : s.devState ≠ 1 → Effect s .power s
  | detach : Effect s .detach (detachDevice s)
  | armRx : Effect s (.armRx .ep2Out) (setResult 0 false [] (armRx .ep2Out s))
  | armTx (e data) : (e = .ep1In ∨ e = .ep2In) → Effect s (.armTx e data) (setResult (armTxCount e data s)
      (armTxBusy e s) [] (armTx e data s))
  | readAv (n t dest) : readAvailable n.toNat s = .ok (t, dest) → Effect s (.readAvailable n) (setResult
      dest.length false dest t)
  | writeB (data t n) : writeBytes data s = .ok (t, n) → Effect s (.writeBytes data) (setResult n false [] t)
  | servTx (t) : serviceTx s = .ok t → Effect s .serviceTx (setResult 0 false [] t)
  | appCmd (t) : appStep s = .ok t → Effect s .appCmd (setResult 0 false [] t)
  | appB (i t b) : (i = .appLedOn ∨ i = .appLedOff ∨ (i = .appLedStatus ∧ t.led = s.led)) → appByte b s = .ok t
      → Effect s i t
  | appNone (b) : Effect s (.appUnrecognised b) s
  | sieReset (d : DevState) : s.devState = d.code → Effect s .sieReset (if d.onPoweredBus && !s.resetBusy then { s with
      sieIfReset := true, sieFifo := [], setupLock := false } else s)
  | sieError (t) : sieError s = .ok t → Effect s .sieError t
  | sieSetup (b t) : s.setupOffered b = true → sieSetup b s = .ok t → Effect s (.sieSetup b) t
  | sieOut (e b t) : sieOut e b s = .ok t → Effect s (.sieOut e b) t
  | sieIn (e t) : sieIn e s = .ok t → Effect s (.sieIn e) t

theorem respond_led {led : Bool} {r : Byte} {s t : State} (h : respond led r s = .ok t) : t.led = led := by
  simp only [respond, bind, Except.bind] at h
  split at h
  · cases h
  · rename_i v hv
    obtain ⟨u, n⟩ := v
    cases h
    rcases writeBytes_cases hv with ⟨rfl, _⟩ | ⟨_, _, _, _, rfl⟩ <;> rfl

/-- Every next state of exec is one of them. -/
theorem exec_effect {i : Instr} {s t : State} (h : exec i s = .next t) : Effect s i t := by
  cases i <;> simp only [exec] at h
  case poll =>
    rcases commit_cases h with h | ⟨f, _, rfl⟩
    · obtain ⟨u, hu, rfl⟩ := plainResult_cases h
      rcases pollStep_cases hu with ⟨h1, rfl⟩ | ⟨h1, h2, rfl⟩ | ⟨h1, h2, r, rest, h3, h4⟩ | ⟨h1, h2, h3, rfl⟩
      · exact .pollReset h1
      · exact .pollErr h1 h2
      · exact .pollTok r rest u h1 h2 h3 h4
      · exact .pollNone h1 h2 h3
    · exact .fault _ _
  case attach =>
    rcases commit_cases h with h | ⟨f, _, rfl⟩
    · obtain ⟨u, hu, rfl⟩ := plainResult_cases h
      simp only [attachDevice, bind, Except.bind] at hu
      split at hu
      · cases hu
      · rename_i d hd
        have := readDevState_cases hd
        cases hu
        split
        · rename_i hdd; subst hdd; exact .attach this
        · refine .attachNo ?_; rw [this]; cases d <;> simp_all [DevState.code]
    · exact .fault _ _
  case power =>
    rcases commit_cases h with h | ⟨f, _, rfl⟩
    · simp only [powerDevice, bind, Except.bind] at h
      split at h
      · cases h
      · rename_i d hd
        have := readDevState_cases hd
        cases h
        split
        · rename_i hdd; subst hdd; exact .power this
        · refine .powerNo ?_; rw [this]; cases d <;> simp_all [DevState.code]
    · exact .fault _ _
  case detach => cases h; exact .detach
  case armRx e => cases e <;> cases h <;> first | exact .refuse _ _ | exact .armRx
  case armTx e d => cases e <;> cases h <;> first | exact .refuse _ _ | exact .armTx _ _ (by simp)
  case readAvailable n =>
    rcases commit_cases h with h | ⟨f, _, rfl⟩
    · simp only [bind, Except.bind] at h
      split at h
      · cases h
      · cases h; exact .readAv _ _ _ ‹_›
    · exact .fault _ _
  case writeBytes d =>
    rcases commit_cases h with h | ⟨f, _, rfl⟩
    · simp only [bind, Except.bind] at h
      split at h
      · cases h
      · cases h; exact .writeB _ _ _ ‹_›
    · exact .fault _ _
  case serviceTx =>
    rcases commit_cases h with h | ⟨f, _, rfl⟩
    · obtain ⟨u, hu, rfl⟩ := plainResult_cases h; exact .servTx _ hu
    · exact .fault _ _
  case appCmd =>
    rcases commit_cases h with h | ⟨f, _, rfl⟩
    · obtain ⟨u, hu, rfl⟩ := plainResult_cases h; exact .appCmd _ hu
    · exact .fault _ _
  case cmdReserved => cases h; exact .refuse _ _
  case sieReset =>
    rcases commit_cases h with h | ⟨f, _, rfl⟩
    · simp only [sieReset, bind, Except.bind] at h
      split at h
      · cases h
      · cases h; exact .sieReset _ (readDevState_cases ‹_›)
    · exact .fault _ _
  case sieError =>
    rcases commit_cases h with h | ⟨f, _, rfl⟩
    · exact .sieError _ h
    · exact .fault _ _
  case sieSetup =>
    unfold execSieSetup at h
    split at h
    · rename_i ho
      rcases commit_cases h with h | ⟨f, _, rfl⟩
      · exact .sieSetup _ _ ho h
      · exact .fault _ _
    · cases h
  case sieOut =>
    rcases commit_cases h with h | ⟨f, _, rfl⟩
    · exact .sieOut _ _ _ h
    · exact .fault _ _
  case sieIn =>
    rcases commit_cases h with h | ⟨f, _, rfl⟩
    · exact .sieIn _ _ h
    · exact .fault _ _
  case tokenEp0Setup =>
    rcases commit_cases h with h | ⟨f, _, rfl⟩
    · exact .token .ep0Setup _ h
    · exact .fault _ _
  case tokenEp0Out =>
    rcases commit_cases h with h | ⟨f, _, rfl⟩
    · exact .token .ep0Out _ h
    · exact .fault _ _
  case tokenEp0In =>
    rcases commit_cases h with h | ⟨f, _, rfl⟩
    · exact .token .ep0In _ h
    · exact .fault _ _
  case tokenEp1In =>
    rcases commit_cases h with h | ⟨f, _, rfl⟩
    · exact .token .ep1In _ h
    · exact .fault _ _
  case tokenEp2Out =>
    rcases commit_cases h with h | ⟨f, _, rfl⟩
    · exact .token .ep2Out _ h
    · exact .fault _ _
  case tokenEp2In =>
    rcases commit_cases h with h | ⟨f, _, rfl⟩
    · exact .token .ep2In _ h
    · exact .fault _ _
  case appLedOn =>
    rcases commit_cases h with h | ⟨f, _, rfl⟩
    · exact .appB _ _ 0x4F (by simp) h
    · exact .fault _ _
  case appLedOff =>
    rcases commit_cases h with h | ⟨f, _, rfl⟩
    · exact .appB _ _ 0x46 (by simp) h
    · exact .fault _ _
  case appLedStatus =>
    rcases commit_cases h with h | ⟨f, _, rfl⟩
    · exact .appB _ _ 0x53 (by simp [respond_led h]) h
    · exact .fault _ _
  case appUnrecognised b =>
    rcases commit_cases h with h | ⟨f, _, rfl⟩
    · cases h; exact .appNone b
    · exact .fault _ _
  case stdUnsupported =>
    unfold execStdUnsupported at h
    rcases commit_cases h with h | ⟨f, _, rfl⟩
    · exact .setup _ _ _ _ rfl h
    · exact .fault _ _
  case reservedType =>
    unfold execReservedType at h
    rcases commit_cases h with h | ⟨f, _, rfl⟩
    · exact .setup _ _ _ _ rfl h
    · exact .fault _ _
  all_goals
    rcases commit_cases h with h | ⟨f, _, rfl⟩
    · exact .setup _ _ _ _ rfl h
    · exact .fault _ _

end Sys2Proof.Machine
end

