-- ==== Sys2Proof/Laws/Encoding.lean ====
section
/-! SUPPORT. The fields of an assembled SETUP packet and command word, and that a packet is its fields
(30_encoding.md R91, R92, R96). -/

namespace Sys2Proof

theorem requestKey_setupWord (bm req : Byte) (v x l : Word16) : requestKey (setupWord bm req v x l) = req ++ bm := by
  unfold requestKey setupWord; ext i hi; simp; grind

theorem bmRequestType_setupWord (bm req : Byte) (v x l : Word16) : bmRequestType (setupWord bm req v x l) = bm := by
  unfold bmRequestType setupWord; ext i hi; simp; grind

theorem bRequest_setupWord (bm req : Byte) (v x l : Word16) : bRequest (setupWord bm req v x l) = req := by
  unfold bRequest setupWord; ext i hi; simp; grind

theorem wValue_setupWord (bm req : Byte) (v x l : Word16) : wValue (setupWord bm req v x l) = v := by
  unfold wValue setupWord; ext i hi; simp; grind

theorem wIndex_setupWord (bm req : Byte) (v x l : Word16) : wIndex (setupWord bm req v x l) = x := by
  unfold wIndex setupWord; ext i hi; simp; grind

theorem wLength_setupWord (bm req : Byte) (v x l : Word16) : wLength (setupWord bm req v x l) = l := by
  unfold wLength setupWord; ext i hi; simp; grind

theorem recipient_setupWord (dir : BitVec 1) (type : BitVec 2) (recip : BitVec 5) (req : Byte) (v x l : Word16) :
    recipient (setupWord (requestType dir type recip) req v x l) = recip := by
  unfold recipient setupWord requestType; ext i hi; simp; grind

theorem direction_setupWord (dir : BitVec 1) (type : BitVec 2) (recip : BitVec 5) (req : Byte) (v x l : Word16) :
    direction (setupWord (requestType dir type recip) req v x l) = dir := by
  unfold direction setupWord requestType; ext i hi; simp; grind

/-- A packet is its five fields. -/
theorem setupWord_fields (S : SetupWord) :
    setupWord (bmRequestType S) (bRequest S) (wValue S) (wIndex S) (wLength S) = S := by
  unfold setupWord bmRequestType bRequest wValue wIndex wLength; ext i hi; simp; grind

theorem requestKey_fields (S : SetupWord) : requestKey S = bRequest S ++ bmRequestType S := by
  unfold requestKey bmRequestType bRequest; ext i hi; simp; grind

theorem bmRequestType_fields (S : SetupWord) :
    bmRequestType S = requestType (direction S) (S.extractLsb' 5 2) (recipient S) := by
  unfold bmRequestType requestType direction recipient; ext i hi; simp; grind

/-- The bytes of a packet read back as the packet (20_memory.md R66). -/
theorem littleEndian_setupBytes (S : SetupWord) : BitVec.ofNat 64 (littleEndian (setupBytes S)) = S := by
  apply BitVec.eq_of_toNat_eq
  have h := S.isLt
  simp only [setupBytes, littleEndian, BitVec.extractLsb'_toNat, BitVec.toNat_ofNat, Nat.shiftRight_eq_div_pow]
  omega

theorem commandOp_commandWord (op e : BitVec 4) (len : Word16) : commandOp (commandWord op e len) = op := by
  unfold commandOp commandWord; ext i hi; simp; grind

theorem commandEntry_commandWord (op e : BitVec 4) (len : Word16) : commandEntry (commandWord op e len) = e := by
  unfold commandEntry commandWord; ext i hi; simp; grind

theorem commandLen_commandWord (op e : BitVec 4) (len : Word16) : commandLen (commandWord op e len) = len := by
  unfold commandLen commandWord; ext i hi; simp; grind

theorem commandTop_commandWord (op e : BitVec 4) (len : Word16) : commandTop (commandWord op e len) = 0 := by
  unfold commandTop commandWord; ext i hi; simp; grind

theorem commandOp_append (rest : BitVec 28) (op : BitVec 4) : commandOp (rest ++ op) = op := by
  unfold commandOp; ext i hi; simp; grind

theorem commandRest_append (rest : BitVec 28) (op : BitVec 4) : (rest ++ op).extractLsb' 4 28 = rest := by
  ext i hi; simp; grind

/-- A command word whose top byte is 0 is its fields. -/
theorem commandWord_fields (C : Word32) (h : commandTop C = 0) :
    commandWord (commandOp C) (commandEntry C) (commandLen C) = C := by
  have hc : commandTop C ++ commandLen C ++ commandEntry C ++ commandOp C = C := by
    unfold commandTop commandOp commandEntry commandLen; ext i hi; simp; grind
  unfold commandWord
  rw [h] at hc
  exact hc

theorem entryOfIndex_index (e : Entry) : entryOfIndex e.index = some e := by cases e <;> decide

end Sys2Proof
end

