-- ==== Sys2Proof/Laws/PerInstr.lean ====
section
/-! SUPPORT. Per instruction: the encoder writes each instruction in the format of its row of
spec/opcode_table.json, with the bits the row fixes. -/

namespace Sys2Proof.Laws.TableRow

/-- The five formats an opcode-table row can have (30_encoding.md R90). -/
inductive Format where
  | setup
  | command
  | sie
  | token
  | appByte
  deriving DecidableEq, Repr

/-- What a row of spec/opcode_table.json fixes: its format, and its match and mask. -/
structure Row where
  format : Format
  matchBits : BitVec 32
  mask : BitVec 32
  deriving DecidableEq, Repr

/-- The row of each instruction, as spec/opcode_table.json has it (CMD_RESERVED has no single match; its OP is
stated by Instr.wellFormed). -/
def row : Instr → Row
  | .getStatus _ _ _ _ => ⟨.setup, 0x0080, 0xFFE0⟩
  | .setAddress _ _ _ => ⟨.setup, 0x0500, 0xFFFF⟩
  | .getDescriptor _ _ _ => ⟨.setup, 0x0680, 0xFFFF⟩
  | .getConfiguration _ _ _ => ⟨.setup, 0x0880, 0xFFFF⟩
  | .setConfiguration _ _ _ => ⟨.setup, 0x0900, 0xFFFF⟩
  | .getInterface _ _ _ => ⟨.setup, 0x0A81, 0xFFFF⟩
  | .setInterface _ _ _ => ⟨.setup, 0x0B01, 0xFFFF⟩
  | .stdUnsupported _ _ _ _ _ _ => ⟨.setup, 0x0000, 0x0060⟩
  | .setLineCoding _ _ _ => ⟨.setup, 0x2021, 0xFFFF⟩
  | .getLineCoding _ _ _ => ⟨.setup, 0x21A1, 0xFFFF⟩
  | .setControlLineState _ _ _ => ⟨.setup, 0x2221, 0xFFFF⟩
  | .classOther _ _ _ _ _ _ => ⟨.setup, 0x0020, 0x0060⟩
  | .vendor _ _ _ _ _ _ => ⟨.setup, 0x0040, 0x0060⟩
  | .reservedType _ _ _ _ _ _ => ⟨.setup, 0x0060, 0x0060⟩
  | .poll => ⟨.command, 0x00000001, 0xFFFFFFFF⟩
  | .attach => ⟨.command, 0x00000002, 0xFFFFFFFF⟩
  | .armRx _ => ⟨.command, 0x00000003, 0xFFFFFF0F⟩
  | .armTx _ _ => ⟨.command, 0x00000004, 0xFF00000F⟩
  | .readAvailable _ => ⟨.command, 0x00000005, 0xFF0000FF⟩
  | .writeBytes _ => ⟨.command, 0x00000006, 0xFF0000FF⟩
  | .serviceTx => ⟨.command, 0x00000007, 0xFFFFFFFF⟩
  | .appCmd => ⟨.command, 0x00000008, 0xFFFFFFFF⟩
  | .cmdReserved _ _ _ => ⟨.command, 0x0, 0x0⟩
  | .sieReset => ⟨.sie, 0x0, 0x7⟩
  | .sieSetup _ => ⟨.sie, 0x1, 0x7⟩
  | .sieOut _ _ => ⟨.sie, 0x2, 0x7⟩
  | .sieIn _ => ⟨.sie, 0x3, 0x7⟩
  | .sieError => ⟨.sie, 0x4, 0x7⟩
  | .power => ⟨.sie, 0x5, 0x7⟩
  | .detach => ⟨.sie, 0x6, 0x7⟩
  | .tokenEp0Setup => ⟨.token, 0x40, 0xFF⟩
  | .tokenEp0Out => ⟨.token, 0x00, 0xFF⟩
  | .tokenEp0In => ⟨.token, 0x30, 0xFF⟩
  | .tokenEp1In => ⟨.token, 0x31, 0xFF⟩
  | .tokenEp2Out => ⟨.token, 0x02, 0xFF⟩
  | .tokenEp2In => ⟨.token, 0x32, 0xFF⟩
  | .appLedOn => ⟨.appByte, 0x4F, 0xFF⟩
  | .appLedOff => ⟨.appByte, 0x46, 0xFF⟩
  | .appLedStatus => ⟨.appByte, 0x53, 0xFF⟩
  | .appUnrecognised _ => ⟨.appByte, 0x00, 0x00⟩

/-- The format of a wire form. -/
def format : Wire → Format
  | .setup _ => .setup
  | .command _ _ => .command
  | .token _ => .token
  | .sie _ _ _ => .sie
  | .appByte _ => .appByte

/-- The bits of a wire form that a row's match and mask speak of: the request key of a SETUP packet, the whole word
or record or byte otherwise. -/
def fixedBits : Wire → BitVec 32
  | .setup S => (requestKey S).setWidth 32
  | .command C _ => C
  | .token t => t.setWidth 32
  | .sie kind _ _ => kind.setWidth 32
  | .appByte b => b.setWidth 32

/-- The encoder writes i as its opcode-table row says. -/
def Statement (i : Instr) : Prop :=
  format (encode i) = (row i).format ∧ fixedBits (encode i) &&& (row i).mask = (row i).matchBits

theorem keyBits (bm req : Byte) (v x l : Word16) :
    (requestKey (setupWord bm req v x l)).setWidth 32 &&& 0xFFFF = (req ++ bm).setWidth 32 := by
  rw [requestKey_setupWord]
  ext i hi
  interval_cases i <;> simp

theorem statusBits (recip : BitVec 5) (v x l : Word16) :
    (requestKey (setupWord (requestType 1 0 recip) 0x00 v x l)).setWidth 32 &&& 0xFFE0 = 0x0080#32 := by
  rw [requestKey_setupWord]
  revert recip
  decide

theorem typeBits (dir : BitVec 1) (type : BitVec 2) (recip : BitVec 5) (req : Byte) (v x l : Word16) :
    (requestKey (setupWord (requestType dir type recip) req v x l)).setWidth 32 &&& 0x60 = type.setWidth 32 <<< 5 := by
  rw [requestKey_setupWord, requestType]
  ext i hi
  interval_cases i <;> simp <;> grind

theorem opBits (op : BitVec 4) (len : Word16) : commandWord op 0 len &&& 0xFF0000FF = op.setWidth 32 := by
  unfold commandWord
  ext i hi
  interval_cases i <;> simp <;> grind

theorem entryBits (op e : BitVec 4) (len : Word16) : commandWord op e len &&& 0xFF00000F = op.setWidth 32 := by
  unfold commandWord
  ext i hi
  interval_cases i <;> simp <;> grind

theorem armBits (e : Entry) : commandWord 3 e.index 0 &&& 0xFFFFFF0F = 3#32 := by cases e <;> rfl

theorem getStatus a0 a1 a2 a3 : Statement (.getStatus a0 a1 a2 a3) :=
  ⟨rfl, statusBits ..⟩

theorem setAddress a0 a1 a2 : Statement (.setAddress a0 a1 a2) :=
  ⟨rfl, keyBits ..⟩

theorem getDescriptor a0 a1 a2 : Statement (.getDescriptor a0 a1 a2) :=
  ⟨rfl, keyBits ..⟩

theorem getConfiguration a0 a1 a2 : Statement (.getConfiguration a0 a1 a2) :=
  ⟨rfl, keyBits ..⟩

theorem setConfiguration a0 a1 a2 : Statement (.setConfiguration a0 a1 a2) :=
  ⟨rfl, keyBits ..⟩

theorem getInterface a0 a1 a2 : Statement (.getInterface a0 a1 a2) :=
  ⟨rfl, keyBits ..⟩

theorem setInterface a0 a1 a2 : Statement (.setInterface a0 a1 a2) :=
  ⟨rfl, keyBits ..⟩

theorem stdUnsupported a0 a1 a2 a3 a4 a5 : Statement (.stdUnsupported a0 a1 a2 a3 a4 a5) :=
  ⟨rfl, typeBits ..⟩

theorem setLineCoding a0 a1 a2 : Statement (.setLineCoding a0 a1 a2) :=
  ⟨rfl, keyBits ..⟩

theorem getLineCoding a0 a1 a2 : Statement (.getLineCoding a0 a1 a2) :=
  ⟨rfl, keyBits ..⟩

theorem setControlLineState a0 a1 a2 : Statement (.setControlLineState a0 a1 a2) :=
  ⟨rfl, keyBits ..⟩

theorem classOther a0 a1 a2 a3 a4 a5 : Statement (.classOther a0 a1 a2 a3 a4 a5) :=
  ⟨rfl, typeBits ..⟩

theorem vendor a0 a1 a2 a3 a4 a5 : Statement (.vendor a0 a1 a2 a3 a4 a5) :=
  ⟨rfl, typeBits ..⟩

theorem reservedType a0 a1 a2 a3 a4 a5 : Statement (.reservedType a0 a1 a2 a3 a4 a5) :=
  ⟨rfl, typeBits ..⟩

theorem poll : Statement (.poll) :=
  ⟨rfl, rfl⟩

theorem attach : Statement (.attach) :=
  ⟨rfl, rfl⟩

theorem armRx a0 : Statement (.armRx a0) :=
  ⟨rfl, armBits ..⟩

theorem armTx a0 a1 : Statement (.armTx a0 a1) :=
  ⟨rfl, entryBits ..⟩

theorem readAvailable a0 : Statement (.readAvailable a0) :=
  ⟨rfl, opBits ..⟩

theorem writeBytes a0 : Statement (.writeBytes a0) :=
  ⟨rfl, opBits ..⟩

theorem serviceTx : Statement (.serviceTx) :=
  ⟨rfl, rfl⟩

theorem appCmd : Statement (.appCmd) :=
  ⟨rfl, rfl⟩

theorem cmdReserved a0 a1 a2 : Statement (.cmdReserved a0 a1 a2) :=
  ⟨rfl, BitVec.and_zero ..⟩

theorem sieReset : Statement (.sieReset) :=
  ⟨rfl, rfl⟩

theorem sieSetup a0 : Statement (.sieSetup a0) :=
  ⟨rfl, (by decide : (1#3).setWidth 32 &&& 0x7#32 = 1#32)⟩

theorem sieOut a0 a1 : Statement (.sieOut a0 a1) :=
  ⟨rfl, (by decide : (2#3).setWidth 32 &&& 0x7#32 = 2#32)⟩

theorem sieIn a0 : Statement (.sieIn a0) :=
  ⟨rfl, (by decide : (3#3).setWidth 32 &&& 0x7#32 = 3#32)⟩

theorem sieError : Statement (.sieError) :=
  ⟨rfl, rfl⟩

theorem power : Statement (.power) :=
  ⟨rfl, rfl⟩

theorem detach : Statement (.detach) :=
  ⟨rfl, rfl⟩

theorem tokenEp0Setup : Statement (.tokenEp0Setup) :=
  ⟨rfl, rfl⟩

theorem tokenEp0Out : Statement (.tokenEp0Out) :=
  ⟨rfl, rfl⟩

theorem tokenEp0In : Statement (.tokenEp0In) :=
  ⟨rfl, rfl⟩

theorem tokenEp1In : Statement (.tokenEp1In) :=
  ⟨rfl, rfl⟩

theorem tokenEp2Out : Statement (.tokenEp2Out) :=
  ⟨rfl, rfl⟩

theorem tokenEp2In : Statement (.tokenEp2In) :=
  ⟨rfl, rfl⟩

theorem appLedOn : Statement (.appLedOn) :=
  ⟨rfl, rfl⟩

theorem appLedOff : Statement (.appLedOff) :=
  ⟨rfl, rfl⟩

theorem appLedStatus : Statement (.appLedStatus) :=
  ⟨rfl, rfl⟩

theorem appUnrecognised a0 : Statement (.appUnrecognised a0) :=
  ⟨rfl, BitVec.and_zero ..⟩

end Sys2Proof.Laws.TableRow
end

