-- ==== Sys2Proof/Laws/Sie.lean ====
section
/-! SUPPORT. That the SIE's transactions keep the invariants and meet no model fault (44_endpoint_buffers.md
R208-R214): what completing a transaction leaves, said once for every entry and record. -/

namespace Sys2Proof.Machine

/-- t is s after a transaction on the entry e that pushes the record r. -/
structure Completion (e : Entry) (r : TokenRecord) (s t : State) : Prop where
  params : t.params = s.params
  devState : t.devState = s.devState
  devAddr : t.devAddr = s.devAddr
  activeCfg : t.activeCfg = s.activeCfg
  ctx : t.ctx = s.ctx
  txPending : t.txPending = s.txPending
  txLen : t.txLen = s.txLen
  pendReset : t.pendReset = s.pendReset
  tokq : t.tokq = s.tokq
  sieIfReset : t.sieIfReset = s.sieIfReset
  sieFifo : t.sieFifo = s.sieFifo ++ [r]
  faulted : t.faulted = s.faulted
  quiet : s.resetBusy = false
  enabled : (s.bd.get e).en = true
  armed : (s.bd.get e).own = .hw
  room : s.sieFifo.length < s.params.sieFifoDepth
  known : (tokenKind r).isSome = true
  isOut : ep0OutRecord r = true ↔ e = .ep0Out
  isIn : ep0InRecord r = true ↔ e = .ep0In
  lock : if r = TokenKind.ep0Setup.record then t.setupLock = true else t.setupLock = s.setupLock
  noLock : e = .ep0In → s.setupLock = false
  others : ∀ e', e' ≠ e → t.bd.get e' = s.bd.get e'
  own : (t.bd.get e).own = .fw
  en : (t.bd.get e).en = true
  stall : (t.bd.get e).stall = (s.bd.get e).stall
  fits : (t.bd.get e).cnt.toNat ≤ bufCap s.params e
  received : e = .ep0Out ∨ e = .ep2Out → t.written (.buffer e) (t.bd.get e).cnt.toNat
  mono : ∀ a, (s.buf.read a).isSome = true → (t.buf.read a).isSome = true
  canonical : t.buf.wf
  inside : ∀ c ∈ t.buf, c.1 < bufSize s.params

theorem Inv.enabledOperational {s : State} (h : Inv s) {e : Entry} (he : (s.bd.get e).en = true) :
    s.isOperational = true := by
  have l := h.listed
  cases e
  · rw [← l.ep0Enabled.1]; exact he
  · rw [← l.ep0Enabled.2]; exact he
  · exact operational_of_configured (l.dataEnabled.1 ▸ he)
  · exact operational_of_configured (l.dataEnabled.2.1 ▸ he)
  · exact operational_of_configured (l.dataEnabled.2.2 ▸ he)

theorem setup_isOut {r : TokenRecord} (h : r = TokenKind.ep0Setup.record) : ep0OutRecord r = true := by
  rw [h]; exact ep0OutRecord_setup

theorem Inv.completion {e : Entry} {r : TokenRecord} {s t : State} (h : Inv s) (c : Completion e r s t) : Inv t := by
  have hop := h.enabledOperational c.enabled
  obtain ⟨cp, cs, ca, cc, cx, ctp, ctl, cpr, cq, cir, cif, cf, cquiet, cen0, carm, croom, cknown, cisO, cisI, clock,
    cnolock, coth, cown, cen, cst, cfit, crecv, cm, cwf, cin⟩ := c
  have hr : t.records = s.records ++ [r] := by simp [State.records, cq, cif]
  have hb : t.resetBusy = s.resetBusy := by simp [State.resetBusy, cpr, cir]
  have hw : ∀ a n, s.written a n → t.written a n := by
    intro a n hs i hi; rw [cp]; exact cm _ (hs i hi)
  have ho := isOperational_congr cs
  have hc := isConfigured_congr cs
  have hd := isAddressed_congr cs
  have hE : ∀ P : Entry → Prop, P e → (∀ e', e' ≠ e → P e') → ∀ e', P e' := by
    intro P h1 h2 e'
    by_cases hh : e' = e
    · rw [hh]; exact h1
    · exact h2 e' hh
  have hen : ∀ e', (t.bd.get e').en = (s.bd.get e').en :=
    hE _ (by rw [cen, cen0]) fun e' hne => by rw [coth e' hne]
  have hst : ∀ e', (t.bd.get e').stall = (s.bd.get e').stall :=
    hE _ cst fun e' hne => by rw [coth e' hne]
  have hfw : ∀ e', (s.bd.get e').own = .fw → (t.bd.get e').own = .fw :=
    hE _ (fun _ => cown) fun e' hne => by rw [coth e' hne]; exact id
  have hhw : ∀ e', (t.bd.get e').own = .hw → e' ≠ e ∧ (s.bd.get e').own = .hw := by
    refine hE _ (fun hh => ?_) fun e' hne => ?_
    · rw [cown] at hh; cases hh
    · rw [coth e' hne]; exact fun hh => ⟨hne, hh⟩
  have n0 := hen .ep0Out
  have n1 := hen .ep0In
  have n2 := hen .ep1In
  have n3 := hen .ep2Out
  have n4 := hen .ep2In
  have s2 := hst .ep1In
  have s3 := hst .ep2Out
  have s4 := hst .ep2In
  simp only [PerEntry.get] at n0 n1 n2 n3 n4 s2 s3 s4
  obtain ⟨a, u, k, ⟨l1, l2, l3, l4, l5, l6, l7, l8, l9⟩, ⟨r1, r2, r3, r4, r5, r6, r7, r8, r9, r10⟩,
    ⟨x1, x2, x3, x4, x5⟩, ⟨b1, b2, b3, b4, b5, b6⟩, ⟨m1, m2, m3⟩⟩ := h
  have hnoOut : e = .ep0Out → s.records.filter ep0OutRecord = [] := by
    rintro rfl
    refine List.filter_eq_nil_iff.mpr fun x hx hxo => ?_
    have := r7 (List.any_eq_true.mpr ⟨x, hx, hxo⟩)
    rw [show (s.bd.get .ep0Out).own = s.bd.ep0Out.own from rfl, this] at carm
    cases carm
  have hnoIn : e = .ep0In → s.records.filter ep0InRecord = [] := by
    rintro rfl
    refine List.filter_eq_nil_iff.mpr fun x hx hxo => ?_
    have := r9 (List.any_eq_true.mpr ⟨x, hx, hxo⟩)
    rw [show (s.bd.get .ep0In).own = s.bd.ep0In.own from rfl, this] at carm
    cases carm
  refine ⟨cp ▸ a, cf ▸ u, cs ▸ k, ⟨?_, ?_, ?_, ?_, ?_, ?_, ?_, ?_, ?_⟩,
    ⟨?_, ?_, ?_, ?_, ?_, ?_, ?_, ?_, ?_, ?_⟩, ⟨?_, ?_, ?_, ?_, ?_⟩, ⟨?_, ?_, ?_, ?_, ?_, ?_⟩, ⟨cwf, cp ▸ cin, ?_⟩⟩
  · rw [n0, n1, ho]; exact l1
  · rw [n2, n3, n4, hc]; exact l2
  · rw [cc, hc, cp]; exact l3
  · rw [s2, s3, s4]; exact l4
  · rw [cp]; exact hE _ cfit fun e' hne => by rw [coth e' hne]; exact l5 e'
  · intro hbz hen' hall
    rw [hr, List.all_append, Bool.and_eq_true] at hall
    have hrf : ep0OutRecord r = false := by simpa using hall.2
    have hne : Entry.ep0Out ≠ e := by
      intro hh
      rw [cisO.mpr hh.symm] at hrf
      exact absurd hrf (by decide)
    have : t.bd.ep0Out = s.bd.ep0Out := coth .ep0Out hne
    rw [this]
    exact l6 (hb ▸ hbz) (n0 ▸ hen') hall.1
  · intro e' hen'
    rw [hen e'] at hen'
    exact hfw e' (l7 e' hen')
  · rw [ca, hd]; exact l8
  · intro hbz
    have l9' := l9 (hb ▸ hbz)
    rw [hr, List.mem_append, List.mem_singleton]
    by_cases hrs : r = TokenKind.ep0Setup.record
    · rw [if_pos hrs] at clock
      exact ⟨fun _ => .inr hrs.symm, fun _ => clock⟩
    · rw [if_neg hrs] at clock
      rw [clock, l9']
      exact ⟨.inl, fun hh => hh.resolve_right fun hh => hrs hh.symm⟩
  · intro x hx
    rw [hr, List.mem_append, List.mem_singleton] at hx
    rcases hx with hx | rfl
    · exact r1 x hx
    · exact cknown
  · exact fun _ => by rw [ho]; exact hop
  · intro hbz; rw [hb, cquiet] at hbz; exact absurd hbz (by decide)
  · rw [cq, cp]; exact r4
  · rw [cif, cp, List.length_append]; exact croom
  · rw [hr, List.filter_append, List.length_append]
    by_cases hro : ep0OutRecord r = true
    · rw [hnoOut (cisO.mp hro), List.filter_cons_of_pos hro]; exact le_refl _
    · rw [List.filter_cons_of_neg hro]; exact r6
  · intro hany
    rw [hr, List.any_append, Bool.or_eq_true] at hany
    rcases hany with hany | hany
    · exact hfw .ep0Out (r7 hany)
    · have : ep0OutRecord r = true := by simpa using hany
      have he := cisO.mp this
      rw [he] at cown
      exact cown
  · rw [hr, List.filter_append, List.length_append]
    by_cases hri : ep0InRecord r = true
    · rw [hnoIn (cisI.mp hri), List.filter_cons_of_pos hri]; exact le_refl _
    · rw [List.filter_cons_of_neg hri]; exact r8
  · intro hany
    rw [hr, List.any_append, Bool.or_eq_true] at hany
    rcases hany with hany | hany
    · exact hfw .ep0In (r9 hany)
    · have : ep0InRecord r = true := by simpa using hany
      have he := cisI.mp this
      rw [he] at cown
      exact cown
  · rw [hr, List.pairwise_append]
    refine ⟨r10, List.pairwise_singleton _ _, fun x hx y hy hxs => ?_⟩
    rw [List.mem_singleton] at hy
    rw [hy]
    cases hri : ep0InRecord r
    · rfl
    · have := (l9 cquiet).mpr (hxs ▸ hx)
      rw [cnolock (cisI.mp hri)] at this
      exact absurd this (by decide)
  · rw [cx]; exact x1
  · rw [cx]; exact (Action.applicable_congr cs cp _).mpr x2
  · rw [cx]; exact x3
  · rw [cx]; exact x4
  · intro hst'
    rw [cx] at hst'
    obtain ⟨hown, hno⟩ := x5 hst'
    refine ⟨hfw .ep0In hown, ?_⟩
    rw [hr, List.any_append, hno, Bool.false_or]
    cases hri : ep0InRecord r
    · simp [hri]
    · have he := cisI.mp hri
      rw [he] at carm
      rw [show (s.bd.get .ep0In).own = s.bd.ep0In.own from rfl, hown] at carm
      cases carm
  · intro hown
    by_cases he : Entry.ep0Out = e
    · subst he; exact crecv (.inl rfl)
    · have : t.bd.ep0Out = s.bd.ep0Out := coth .ep0Out he
      rw [this] at hown ⊢
      exact hw _ _ (b1 hown)
  · intro hown
    obtain ⟨hne, hs⟩ := hhw .ep0In hown
    have : t.bd.ep0In = s.bd.ep0In := coth .ep0In hne
    rw [this]
    exact hw _ _ (b2 hs)
  · intro hown
    obtain ⟨hne, hs⟩ := hhw .ep1In hown
    have : t.bd.ep1In = s.bd.ep1In := coth .ep1In hne
    rw [this]
    exact hw _ _ (b3 hs)
  · intro hown
    by_cases he : Entry.ep2Out = e
    · subst he; exact crecv (.inr rfl)
    · have : t.bd.ep2Out = s.bd.ep2Out := coth .ep2Out he
      rw [this] at hown ⊢
      exact hw _ _ (b4 hown)
  · intro hown
    obtain ⟨hne, hs⟩ := hhw .ep2In hown
    have : t.bd.ep2In = s.bd.ep2In := coth .ep2In hne
    rw [this]
    exact hw _ _ (b5 hs)
  · rw [ctp, ctl]; exact fun hp => hw _ _ (b6 hp)
  · rw [ctl, cp]; exact m3

/-- A recorded answer is in no invariant. -/
theorem Inv.answer {s : State} (h : Inv s) (a : Handshake) : Inv { s with answer := some a } :=
  h.congr ⟨rfl, rfl, rfl, rfl, rfl, rfl, rfl, rfl, rfl, rfl, rfl, rfl, rfl, rfl, rfl⟩

theorem Inv.knowsState {s : State} (h : Inv s) : ∃ d, readDevState s = .ok d := by
  obtain ⟨d, hd, _⟩ := readDevState_of_known h.stateKnown
  exact ⟨d, hd⟩

theorem Inv.sieError_ok {s : State} (h : Inv s) : ∃ t, Machine.sieError s = .ok t ∧ Inv t := by
  obtain ⟨d, hd⟩ := h.knowsState
  have hs : Machine.sieError s = .ok (if d.onPoweredBus && !s.errorBusy then { s with sieIfError := true } else s) := by
    simp only [Machine.sieError, hd, bind, Except.bind]
  exact ⟨_, hs, h.sieError hs⟩

/-- Bytes that fit an OUT entry's buffer, once written, keep BUF in order and are all there. -/
theorem memWrite_buffer {s : State} (h : Inv s) (e : Entry) (bytes : List Byte) (hl : bytes.length ≤ bufCap s.params e) :
    (∀ a, (s.buf.read a).isSome = true → ((memWrite s (.buffer e) bytes).buf.read a).isSome = true) ∧
    (memWrite s (.buffer e) bytes).buf.wf ∧
    (∀ c ∈ (memWrite s (.buffer e) bytes).buf, c.1 < bufSize s.params) ∧
    (∀ i < bytes.length, ((memWrite s (.buffer e) bytes).buf.read (adr s.params e + i)).isSome = true) ∧
    (BitVec.ofNat 11 bytes.length).toNat = bytes.length := by
  have z := admitted_sizes h.admitted
  refine ⟨fun a ha => Memory.isSome_read_writeBytes _ _ _ _ ha, Memory.wf_writeBytes _ _ h.memory.canonical, ?_,
    fun i hi => Memory.isSome_read_written _ _ _ _ hi, z.cnt_toNat e hl⟩
  intro c hc
  rcases Memory.mem_writeBytes _ hc with hc | hc
  · have : adr s.params e + bufCap s.params e ≤ bufSize s.params := z.area_inside (.buffer e)
    simp only [areaBase] at hc
    omega
  · exact h.memory.inside c hc

/-- SIE_SETUP (44_endpoint_buffers.md R208). -/
theorem Inv.sieSetup {s : State} (h : Inv s) (bytes : List Byte) : ∃ t, sieSetup bytes s = .ok t ∧ Inv t := by
  unfold Machine.sieSetup
  split
  · rename_i he
    refine ⟨_, rfl, h.completion (e := .ep0Out) (r := setupRecord) ?_⟩
    simp only [State.setupEnabled, State.fifoFull, Bool.and_eq_true, beq_iff_eq, Bool.not_eq_true', decide_eq_true_eq,
      decide_eq_false_iff_not, not_le] at he
    obtain ⟨⟨⟨⟨⟨h1, h2⟩, h3⟩, h4⟩, h5⟩, h6⟩ := he
    have hl : bytes.length ≤ bufCap s.params .ep0Out := by
      rw [(admitted_sizes h.admitted).bufCap_eq]; exact h6
    obtain ⟨w1, w2, w3, w4, w5⟩ := memWrite_buffer h .ep0Out bytes hl
    refine ⟨rfl, rfl, rfl, rfl, rfl, rfl, rfl, rfl, rfl, rfl, rfl, rfl, h1, h2, h3, h5, by decide, by decide, by decide,
      rfl, fun hh => absurd hh (by decide), ?_, rfl, h2, rfl, ?_, ?_, w1, w2, w3⟩
    · intro e' hne
      exact perEntry_get_set_ne _ _ hne
    · show (BitVec.ofNat 11 bytes.length).toNat ≤ _
      rw [w5]; exact hl
    · intro _ i hi
      refine w4 i ?_
      have hi : i < (BitVec.ofNat 11 bytes.length).toNat := hi
      rwa [w5] at hi
  · obtain ⟨d, hd⟩ := h.knowsState
    simp only [hd, bind, Except.bind]
    exact ⟨_, rfl, h.answer _⟩

/-- What the enabling condition of a data transaction says (44_endpoint_buffers.md R209, R210). -/
theorem dataEnabled_cases {s : State} {e : Entry} (h : s.dataEnabled e = true) :
    s.resetBusy = false ∧ (s.bd.get e).en = true ∧ (s.bd.get e).own = .hw ∧ (s.bd.get e).stall = false ∧
    s.sieFifo.length < s.params.sieFifoDepth ∧ s.lockHolds e = false := by
  simp only [State.dataEnabled, State.fifoFull, Bool.and_eq_true, beq_iff_eq, Bool.not_eq_true', decide_eq_false_iff_not,
    not_le] at h
  obtain ⟨⟨⟨⟨⟨h1, h2⟩, h3⟩, h4⟩, h5⟩, h6⟩ := h
  exact ⟨h1, h2, h3, h4, h5, h6⟩

/-- SIE_OUT (44_endpoint_buffers.md R209). -/
theorem Inv.sieOut {s : State} (h : Inv s) (e : OutEntry) (bytes : List Byte) : ∃ t, sieOut e bytes s = .ok t ∧ Inv t := by
  unfold Machine.sieOut
  split
  · exact h.sieError_ok
  · rename_i hl
    split
    · rename_i he
      refine ⟨_, rfl, h.completion (e := outEntry e) (r := outRecord e) ?_⟩
      obtain ⟨h1, h2, h3, _, h5, h6⟩ := dataEnabled_cases (Bool.and_eq_true_iff.mp he).1
      obtain ⟨w1, w2, w3, w4, w5⟩ := memWrite_buffer h (outEntry e) bytes (Nat.not_lt.mp hl)
      refine ⟨rfl, rfl, rfl, rfl, rfl, rfl, rfl, rfl, rfl, rfl, rfl, rfl, h1, h2, h3, h5, by cases e <;> decide,
        by cases e <;> decide, by cases e <;> decide, ?_, by cases e <;> exact fun hh => absurd hh (by decide), ?_, ?_, ?_,
        ?_, ?_, ?_, w1, w2, w3⟩
      · rw [if_neg (by cases e <;> decide)]; rfl
      · intro e' hne
        exact perEntry_get_set_ne _ _ hne
      · cases e <;> rfl
      · cases e <;> exact h2
      · cases e <;> rfl
      · have : ((complete (outEntry e) (BitVec.ofNat 11 bytes.length) (outRecord e)
            (memWrite s (.buffer (outEntry e)) bytes)).bd.get (outEntry e)).cnt = BitVec.ofNat 11 bytes.length := by
          cases e <;> rfl
        rw [this, w5]; exact Nat.not_lt.mp hl
      · intro _ i hi
        refine w4 i ?_
        have : ((complete (outEntry e) (BitVec.ofNat 11 bytes.length) (outRecord e)
            (memWrite s (.buffer (outEntry e)) bytes)).bd.get (outEntry e)).cnt = BitVec.ofNat 11 bytes.length := by
          cases e <;> rfl
        rwa [this, w5] at hi
    · obtain ⟨d, hd⟩ := h.knowsState
      simp only [hd, bind, Except.bind]
      exact ⟨_, rfl, h.answer _⟩

/-- SIE_IN meets no fault, since an armed packet is in the buffer (44_endpoint_buffers.md R210). -/
theorem Inv.sieIn {s : State} (h : Inv s) (e : InEntry) : ∃ t, sieIn e s = .ok t ∧ Inv t := by
  unfold Machine.sieIn
  split
  · rename_i he
    obtain ⟨h1, h2, h3, _, h5, h6⟩ := dataEnabled_cases he
    have hfit := h.listed.countFits (inEntry e)
    have hwr : s.written (.buffer (inEntry e)) (s.bd.get (inEntry e)).cnt.toNat := by
      cases e
      · exact h.buffers.ep0In h3
      · exact h.buffers.ep1In h3
      · exact h.buffers.ep2In h3
    obtain ⟨bs, hb, _⟩ := memRead_of_written (s := s) (area := .buffer (inEntry e)) hfit hwr
    simp only [hb, bind, Except.bind]
    refine ⟨_, rfl, h.completion (e := inEntry e) (r := inRecord e) ?_⟩
    refine ⟨rfl, rfl, rfl, rfl, rfl, rfl, rfl, rfl, rfl, rfl, rfl, rfl, h1, h2, h3, h5, by cases e <;> decide,
      by cases e <;> decide, by cases e <;> decide, ?_, ?_, ?_, ?_, ?_, ?_, ?_, ?_, fun _ h => h, h.memory.canonical,
      h.memory.inside⟩
    · rw [if_neg (by cases e <;> decide)]; rfl
    · cases e
      · exact fun _ => h6
      · exact fun hh => absurd hh (by decide)
      · exact fun hh => absurd hh (by decide)
    · intro e' hne
      exact perEntry_get_set_ne _ _ hne
    · cases e <;> rfl
    · cases e <;> exact h2
    · cases e <;> rfl
    · cases e <;> exact hfit
    · cases e <;> exact fun hh => absurd hh (by decide)
  · obtain ⟨d, hd⟩ := h.knowsState
    simp only [hd, bind, Except.bind]
    exact ⟨_, rfl, h.answer _⟩

end Sys2Proof.Machine
end

