-- ==== Sys2Proof/Laws/Requests.lean ====
section
/-! SUPPORT. The request rules under the invariants (42_standard_requests.md, 43_cdc_class_requests.md): none meets a
model fault, and the action a rule defers is one that may be applied. -/

namespace Sys2Proof.Machine

/-- A result the Control Transfer Handler can apply in state s. -/
def RequestResult.good (s : State) : RequestResult → Prop
  | .stall _ => True
  | .noData a => Action.applicable s a
  | .dataIn _ => True
  | .dataOut n a => n = 7 ∧ Action.applicable s a

theorem forward_good (S : SetupWord) (s : State) : (forward S s).good s := by
  unfold forward
  split
  · trivial
  · split <;> trivial
  · split <;> trivial

theorem servedLength_eq {p : Params} (h : admitted p = true) (d : DescSelector) :
    servedLength p d = (descBytes p.desc d).length := by
  have z := admitted_sizes h
  cases d with
  | dev => exact z.dev.symm
  | cfg => exact z.conf.symm
  | str0 => rfl
  | str1 => rfl
  | str2 => rfl

/-- GET_DESCRIPTOR reads a served descriptor whole (42_standard_requests.md R173). -/
theorem descRead_served {p : Params} (h : admitted p = true) (d : DescSelector) :
    descRead p d 0 (servedLength p d) = .ok (descBytes p.desc d) := by
  unfold descRead
  rw [servedLength_eq h, Nat.zero_add, if_pos (le_refl _), List.drop_zero, List.take_length]

theorem requestRule_ok {s : State} (S : SetupWord) (ha : admitted s.params = true) (ho : s.isOperational = true) :
    ∃ r, requestRule S s = .ok r ∧ r.good s := by
  have hk : (DevState.ofCode s.devState).isSome = true := by
    unfold State.isOperational at ho
    split at ho
    · rename_i hd; rw [hd]; rfl
    · exact absurd ho (by decide)
  obtain ⟨d, hd, hc⟩ := readDevState_of_known hk
  have hop := isOperational_code hc
  unfold requestRule
  split
  · unfold getStatusRule
    split
    · exact ⟨_, rfl, trivial⟩
    · simp only [hd, bind, Except.bind]
      refine ⟨_, rfl, ?_⟩
      unfold interfaceStatus
      split
      · trivial
      · split <;> trivial
    · simp only [hd, bind, Except.bind]
      refine ⟨_, rfl, ?_⟩
      unfold endpointStatus
      split
      · trivial
      · split <;> trivial
    · exact ⟨_, rfl, trivial⟩
  · unfold setAddressRule
    split
    · exact ⟨_, rfl, trivial⟩
    · split
      · exact ⟨_, rfl, trivial⟩
      · simp only [hd, bind, Except.bind]
        refine ⟨_, rfl, ?_⟩
        split
        · rename_i hda
          refine ⟨ho, ?_⟩
          rw [Bool.eq_false_iff, ne_eq, isConfigured_code hc]
          rcases hda with rfl | rfl <;> decide
        · trivial
  · unfold getDescriptorRule
    split
    · simp only [descRead_served ha, bind, Except.bind]
      exact ⟨_, rfl, trivial⟩
    · exact ⟨_, rfl, trivial⟩
  · exact ⟨_, rfl, trivial⟩
  · unfold setConfigurationRule
    dsimp only
    split
    · exact ⟨_, rfl, trivial⟩
    · split
      · exact ⟨_, rfl, trivial⟩
      · simp only [hd, bind, Except.bind]
        refine ⟨_, rfl, ?_⟩
        split
        · trivial
        · rename_i hda
          split
          · trivial
          · rename_i hcv
            refine ⟨?_, ?_⟩
            · rw [isAddressed_code hc]
              by_cases h4 : d = .address
              · exact .inl h4
              · exact .inr (by by_contra h5; exact hda ⟨h4, h5⟩)
            · by_cases h0 : (wValue S).extractLsb' 0 8 = 0
              · exact .inl h0
              · exact .inr (by by_contra h1; exact hcv ⟨h0, h1⟩)
  · unfold getInterfaceRule
    simp only [hd, bind, Except.bind]
    refine ⟨_, rfl, ?_⟩
    split
    · trivial
    · split <;> trivial
  · unfold setInterfaceRule
    split
    · exact ⟨_, rfl, trivial⟩
    · simp only [hd, bind, Except.bind]
      refine ⟨_, rfl, ?_⟩
      split
      · trivial
      · split
        · trivial
        · split <;> trivial
  · exact ⟨_, rfl, trivial⟩
  · refine ⟨_, rfl, ?_⟩
    split
    · exact forward_good S s
    · split
      · trivial
      · exact ⟨rfl, trivial⟩
  · refine ⟨_, rfl, ?_⟩
    split
    · exact forward_good S s
    · trivial
  · refine ⟨_, rfl, ?_⟩
    split
    · exact forward_good S s
    · split <;> trivial
  · exact ⟨_, rfl, forward_good S s⟩
  · exact ⟨_, rfl, forward_good S s⟩
  · exact ⟨_, rfl, trivial⟩

end Sys2Proof.Machine
end

