-- ==== Sys2Proof/Laws/Tokens.lean ====
section
/-! SUPPORT. That processing a record keeps the invariants and meets no model fault (40_device_state.md R128,
41_control_transfer.md): the SETUP stage, the IN and OUT completions, and the deferred actions. -/

namespace Sys2Proof.Machine

/-! ## The control context along the way -/

theorem ContextInOrder.congr {s t : State} (h : ContextInOrder s) (params : t.params = s.params)
    (devState : t.devState = s.devState) (ctx : t.ctx = s.ctx) (own : t.bd.ep0In.own = s.bd.ep0In.own)
    (recs : t.records = s.records) : ContextInOrder t := by
  obtain ⟨x1, x2, x3, x4, x5⟩ := h
  refine ⟨?_, ?_, ?_, ?_, ?_⟩
  · rw [ctx]; exact x1
  · rw [ctx]; exact (Action.applicable_congr devState params _).mpr x2
  · rw [ctx]; exact x3
  · rw [ctx]; exact x4
  · rw [ctx, own, recs]; exact x5

/-- Outside the data stages only the action matters. -/
theorem ContextInOrder.noData {t : State} (g : Stage) (hg : t.ctx.stage = g.code) (h1 : g ≠ .dataIn) (h2 : g ≠ .dataOut)
    (ha : Action.applicable t t.ctx.action) : ContextInOrder t := by
  refine ⟨?_, ha, ?_, ?_, ?_⟩
  · rw [hg]; cases g <;> rfl
  · rw [hg]; intro h; exact absurd h (by revert h1; cases g <;> decide)
  · rw [hg]; intro h; exact absurd h (by revert h2; cases g <;> decide)
  · rw [hg]; intro h; exact absurd h (by revert h2; cases g <;> decide)

theorem ContextInOrder.idle {t : State} (h : t.ctx = Ctx.idle) : ContextInOrder t :=
  .noData .idle (by rw [h]; rfl) (by decide) (by decide) (by rw [h]; trivial)

theorem Ep0Mid.records {r : TokenRecord} {s u : State} (m : Ep0Mid r s u) : s.records = r :: u.records := by
  simp [State.records, m.tokq, m.sieFifo]

theorem Ep0Mid.sameRecords {r : TokenRecord} {s u v : State} (m : Ep0Mid r s u) (n : Ep0Mid r s v) :
    v.records = u.records := by
  have := m.records.symm.trans n.records
  exact (List.cons.inj this).2.symm

theorem Ep0Mid.protocolStall {r : TokenRecord} {s u : State} (m : Ep0Mid r s u) (z : Sizes s.params) (c : StallCause) :
    Ep0Mid r s (Machine.protocolStall c u) :=
  Ep0Mid.armRx ((((m.setEp0Stall true).reclaim).setCtx Ctx.idle).stallCause c) z

theorem protocolStall_ctx (c : StallCause) (u : State) : (protocolStall c u).ctx = Ctx.idle := by
  simp [protocolStall]

theorem protocolStall_inOwn (c : StallCause) (u : State) : (protocolStall c u).bd.ep0In.own = .fw := by
  unfold protocolStall; rw [armRx_ep0In]; rfl

theorem protocolStall_lock (c : StallCause) (u : State) : (protocolStall c u).setupLock = u.setupLock := by
  simp [protocolStall]

theorem protocolStall_outOwn (c : StallCause) (u : State) (h : u.bd.ep0Out.en = true) :
    (protocolStall c u).bd.ep0Out.own = .hw := armRx_own _ h

/-! ## Control reads -/

/-- arm_next_in() inside a response: no fault, and the rest of the response stays in step (41_control_transfer.md R149). -/
theorem armNextIn_ok {r : TokenRecord} {s u : State} (m : Ep0Mid r s u) (z : Sizes s.params)
    (left : u.ctx.off.toNat + u.ctx.remain.toNat = u.ctx.resp.length ∧ u.ctx.resp.length < 65536) :
    ∃ v b, armNextIn u = .ok (v, b) ∧ Ep0Mid r s v ∧ v.ctx.stage = u.ctx.stage ∧ v.ctx.action = u.ctx.action ∧
      v.setupLock = u.setupLock ∧ v.bd.ep0Out = u.bd.ep0Out ∧
      (v.ctx.off.toNat + v.ctx.remain.toNat = v.ctx.resp.length ∧ v.ctx.resp.length < 65536) := by
  have hz := z.ep0
  unfold armNextIn
  simp only [bind, Except.bind]
  split
  · have hk : min u.params.ep0Mps u.ctx.remain.toNat ≤ u.ctx.remain.toNat := Nat.min_le_right _ _
    generalize hkk : min u.params.ep0Mps u.ctx.remain.toNat = k at hk
    have hs : respSlice u.ctx k = .ok ((u.ctx.resp.drop u.ctx.off.toNat).take k) := by
      unfold respSlice; rw [if_pos (by omega)]
    simp only [hs]
    refine ⟨_, _, rfl, (m.armTx z _).setCtx _, by simp, by simp, by simp, by rw [setCtx_bd, armTx_ep0Out], ?_⟩
    have hr := u.ctx.remain.isLt
    have ho := u.ctx.off.isLt
    have hkm : k ≤ 64 := by
      rw [← hkk]
      refine le_trans (Nat.min_le_left _ _) ?_
      rw [m.params]; omega
    simp only [setCtx_ctx, armTx_ctx, BitVec.toNat_add, BitVec.toNat_sub, BitVec.toNat_ofNat]
    omega
  · split
    · exact ⟨_, _, rfl, (m.armTx z _).setCtx _, by simp, by simp, by simp, by rw [setCtx_bd, armTx_ep0Out], by
        simpa using left⟩
    · exact ⟨_, _, rfl, m, rfl, rfl, rfl, rfl, left⟩

/-! ## The SETUP stage -/

/-- What a SETUP stage has in hand once the transfer in progress has been aborted. -/
structure SetupMid (r : TokenRecord) (s u : State) : Prop where
  mid : Ep0Mid r s u
  action : u.ctx.action = .noAction
  inOwn : u.bd.ep0In.own = .fw
  noIn : u.records.any ep0InRecord = false

/-- Applying a good result meets no fault and leaves the context in order (41_control_transfer.md R144-R148). -/
theorem applyResult_ok {r : TokenRecord} {s u : State} (m : SetupMid r s u) (z : Sizes s.params) (res : RequestResult)
    (good : res.good u) : ∃ v, applyResult res u = .ok v ∧ Ep0Mid r s v ∧ ContextInOrder v := by
  obtain ⟨m, hact, hown, hno⟩ := m
  have hnd : ∀ a, Action.applicable u a → Ep0Mid r s (applyNoData a u) ∧ ContextInOrder (applyNoData a u) := by
    intro a ha
    refine ⟨(m.setCtx _).armTx z _, .noData .statusIn (by simp [applyNoData]) (by decide) (by decide) ?_⟩
    have h1 : (applyNoData a u).ctx.action = a := by simp [applyNoData]
    rw [h1]
    exact (Action.applicable_congr (by simp [applyNoData]) (by simp [applyNoData]) _).mpr ha
  cases res with
  | stall c => exact ⟨_, rfl, m.protocolStall z c, .idle (protocolStall_ctx c u)⟩
  | noData a => exact ⟨_, rfl, (hnd a good).1, (hnd a good).2⟩
  | dataOut n a =>
    obtain ⟨rfl, ha⟩ := good
    refine ⟨_, rfl, m.setCtx _, ⟨?_, ?_, ?_, ?_, ?_⟩⟩
    · show (Stage.ofCode (Stage.code .dataOut)).isSome = true; rfl
    · exact (Action.applicable_congr rfl rfl _).mpr ha
    · intro h; exact absurd (show Stage.code .dataOut = Stage.code .dataIn from h) (by decide)
    · intro _; rfl
    · exact fun _ => ⟨hown, hno⟩
  | dataIn bytes =>
    simp only [applyResult, applyDataIn, bind, Except.bind]
    split
    · exact ⟨_, rfl, (hnd .noAction trivial).1, (hnd .noAction trivial).2⟩
    · have hl : (bytes.take (wLength u.ctx.setup).toNat).length < 65536 := by
        refine lt_of_le_of_lt (List.length_take_le _ _) ?_
        exact (wLength u.ctx.setup).isLt
      generalize bytes.take (wLength u.ctx.setup).toNat = resp at hl
      have left : (0#16).toNat + (BitVec.ofNat 16 resp.length).toNat = resp.length ∧ resp.length < 65536 := by
        refine ⟨?_, hl⟩
        show 0 + (BitVec.ofNat 16 resp.length).toNat = resp.length
        rw [Nat.zero_add, BitVec.toNat_ofNat, Nat.mod_eq_of_lt hl]
      obtain ⟨v, b, hv, hm, h1, h2, _, _, h5⟩ := armNextIn_ok (m.setCtx
        { u.ctx with
          resp := resp
          off := 0
          remain := BitVec.ofNat 16 resp.length
          zlpPend := zlpPending u.params resp.length (wLength u.ctx.setup).toNat
          stage := Stage.code .dataIn }) z left
      simp only [hv]
      have h1 : v.ctx.stage = Stage.code .dataIn := h1
      have h2 : v.ctx.action = .noAction := h2.trans hact
      refine ⟨v, rfl, hm, ⟨?_, ?_, ?_, ?_, ?_⟩⟩
      · rw [h1]; rfl
      · rw [h2]; trivial
      · exact fun _ => h5
      · rw [h1]; intro h; exact absurd h (by decide)
      · rw [h1]; intro h; exact absurd h (by decide)

/-- Nothing of EP0IN is waiting behind a SETUP record (44_endpoint_buffers.md R214). -/
theorem Inv.noInBehindSetup {s : State} (h : Inv s) {rest : List TokenRecord}
    (hq : s.tokq = TokenKind.ep0Setup.record :: rest) :
    ({ s with tokq := rest } : State).records.any ep0InRecord = false := by
  have hp := h.records.noInAfterSetup
  have hr : s.records = TokenKind.ep0Setup.record :: (rest ++ s.sieFifo) := by simp [State.records, hq]
  rw [hr] at hp
  refine List.any_eq_false.mpr fun x hx => ?_
  rw [(List.pairwise_cons.mp hp).1 x hx rfl]
  decide

theorem Inv.abortMid {s : State} (h : Inv s) {rest : List TokenRecord} (hq : s.tokq = TokenKind.ep0Setup.record :: rest) :
    SetupMid TokenKind.ep0Setup.record s (abortTransfer { s with tokq := rest }) :=
  ⟨(((((Ep0Mid.start h hq).setCtx Ctx.idle).reclaim).setEp0Stall false).stallCause .none), rfl, rfl,
    h.noInBehindSetup hq⟩

/-- The end of SETUP processing (41_control_transfer.md R141). -/
theorem Inv.afterSetup {s v : State} (h : Inv s) (m : Ep0Mid TokenKind.ep0Setup.record s v) (ctx : ContextInOrder v)
    (noIn : v.records.any ep0InRecord = false) : Inv (endSetup v) := by
  have z := admitted_sizes h.admitted
  have m' : Ep0Mid TokenKind.ep0Setup.record s (endSetup v) := (m.armRx z).setupLock false
  refine h.after_ep0Out m' ep0OutRecord_setup (armRx_own _ m.outEn) (by rw [if_pos rfl]; rfl) (fun _ => ?_) ?_
  · rw [m.sameRecords m']; exact noIn
  · refine ctx.congr ?_ ?_ ?_ ?_ (m.sameRecords m')
    · simp [endSetup]
    · simp [endSetup]
    · simp [endSetup]
    · show (Machine.armRx Entry.ep0Out v).bd.ep0In.own = _; rw [armRx_ep0In]

/-- A SETUP record: no fault, whatever the packet (41_control_transfer.md R141, R142). -/
theorem Inv.tokenEp0Setup {s : State} (h : Inv s) {rest : List TokenRecord}
    (hq : s.tokq = TokenKind.ep0Setup.record :: rest) :
    ∃ t, tokenEp0Setup { s with tokq := rest } = .ok t ∧ Inv t := by
  have z := admitted_sizes h.admitted
  have hop := h.records_cons hq
  have hany : s.records.any ep0OutRecord = true := by
    rw [State.records, hq]; simp [ep0OutRecord_setup]
  have hown : s.bd.ep0Out.own = .fw := h.records.ep0OutOwned hany
  obtain ⟨d, hd, hc⟩ := readDevState_of_known h.stateKnown
  have hdo : d.operational = true := by rw [← isOperational_code hc]; exact hop
  have hd' : readDevState ({ s with tokq := rest } : State) = .ok d := hd
  have m := h.abortMid hq
  simp only [Machine.tokenEp0Setup, checkOperational, checkOwned, hd', hdo, bind, Except.bind, PerEntry.get, hown,
    reduceCtorEq, if_false, if_true]
  split
  · refine ⟨_, rfl, h.afterSetup (m.mid.protocolStall z .malformed) (.idle (protocolStall_ctx _ _)) ?_⟩
    rw [m.mid.sameRecords (m.mid.protocolStall z .malformed)]
    exact m.noIn
  · rename_i h8
    have h8 : s.bd.ep0Out.cnt = 8 := by simpa using h8
    have hw := h.buffers.ep0Out hown
    rw [h8] at hw
    obtain ⟨bs, hb, _⟩ := memRead_of_written (s := { s with tokq := rest }) (area := .buffer .ep0Out) (n := 8)
      (z.bufCap_le .ep0Out).1 hw
    simp only [hb]
    generalize BitVec.ofNat 64 (littleEndian bs) = S
    have ml : SetupMid TokenKind.ep0Setup.record s (latchSetup S (abortTransfer { s with tokq := rest })) :=
      ⟨m.mid.setCtx _, m.action, m.inOwn, m.noIn⟩
    obtain ⟨res, hres, hgood⟩ := requestRule_ok S (s := latchSetup S (abortTransfer { s with tokq := rest }))
      h.admitted hop
    obtain ⟨v, hv, hm, hcx⟩ := applyResult_ok ml z res hgood
    simp only [setupStage, hres, hv, bind, Except.bind]
    refine ⟨_, rfl, h.afterSetup hm hcx ?_⟩
    rw [ml.mid.sameRecords hm]
    exact ml.noIn

/-! ## Deferred actions -/

/-- Address apply in an operational device that is not configured (40_device_state.md R129). -/
theorem Inv.addressApply {s : State} (h : Inv s) (ho : s.isOperational = true) (hc : s.isConfigured = false)
    (hx : s.ctx = Ctx.idle) (a : BitVec 7) : Inv (addressApply a s) := by
  obtain ⟨g, hg, hgo, hgc, hga⟩ : ∃ g : DevState, (Machine.addressApply a s).devState = g.code ∧ g.operational = true ∧
      g ≠ .configured ∧ (a ≠ 0 ↔ g = .address) := by
    by_cases h0 : a = 0
    · exact ⟨.default, by simp [Machine.addressApply, h0], rfl, by decide, by simp [h0]⟩
    · exact ⟨.address, by rw [Machine.addressApply]; exact if_neg h0, rfl, by decide, fun _ => rfl, fun _ => h0⟩
  have ho' : (Machine.addressApply a s).isOperational = true := by rw [isOperational_code hg]; exact hgo
  have hc' : (Machine.addressApply a s).isConfigured = false := by
    rw [Bool.eq_false_iff, ne_eq, isConfigured_code hg]; exact hgc
  have ha' : (Machine.addressApply a s).isAddressed = true ↔ a ≠ 0 := by
    rw [isAddressed_code hg, hga]
    exact ⟨fun h => h.resolve_right hgc, .inl⟩
  obtain ⟨a0, u, k, ⟨l1, l2, l3, l4, l5, l6, l7, l8, l9⟩, ⟨r1, r2, r3, r4, r5, r6, r7, r8, r9, r10⟩, _, b, m⟩ := h
  refine ⟨a0, u, ?_, ⟨?_, ?_, ?_, l4, l5, l6, l7, ha'.symm, l9⟩, ⟨r1, ?_, r3, r4, r5, r6, r7, r8, r9, r10⟩, .idle hx,
    ⟨b.1, b.2, b.3, b.4, b.5, b.6⟩, ⟨m.1, m.2, m.3⟩⟩
  · rw [hg]; cases g <;> rfl
  · rw [ho', ← ho]; exact l1
  · rw [hc', ← hc]; exact l2
  · rw [hc', ← hc]; exact l3
  · exact fun _ => ho'

/-- Deconfigure and configure in an addressed device: the data entries fresh, nothing staged (40_device_state.md R130,
R131). -/
theorem Inv.reconfigured {s t : State} (h : Inv s) (ho : s.isAddressed = true) (hx : s.ctx = Ctx.idle) (on : Bool)
    (params : t.params = s.params) (devState : t.devState = if on then DevState.code .configured else DevState.code .address)
    (devAddr : t.devAddr = s.devAddr) (cfg : t.activeCfg = if on then s.params.cfgValue else 0) (ctx : t.ctx = s.ctx)
    (tx : t.txPending = false) (txLen : t.txLen = 0) (pr : t.pendReset = s.pendReset) (q : t.tokq = s.tokq)
    (ir : t.sieIfReset = s.sieIfReset) (f : t.sieFifo = s.sieFifo) (l : t.setupLock = s.setupLock) (b : t.buf = s.buf)
    (fl : t.faulted = s.faulted) (e0 : t.bd.ep0Out = s.bd.ep0Out) (e1 : t.bd.ep0In = s.bd.ep0In)
    (d1 : t.bd.ep1In = { own := .fw, en := on, stall := false, cnt := 0 })
    (d2 : t.bd.ep2Out = if on then { own := .hw, en := true, stall := false, cnt := BitVec.ofNat 11 (bufCap s.params .ep2Out) }
      else BdStat.zero)
    (d3 : t.bd.ep2In = { own := .fw, en := on, stall := false, cnt := 0 }) : Inv t := by
  have z := admitted_sizes h.admitted
  obtain ⟨g, hg⟩ : ∃ g : DevState, t.devState = g.code ∧ g.operational = true ∧ (g = .configured ↔ on = true) ∧
      (g = .address ∨ g = .configured) := by
    cases on
    · exact ⟨.address, devState, rfl, by decide, .inl rfl⟩
    · exact ⟨.configured, devState, rfl, by decide, .inr rfl⟩
  obtain ⟨hg, hgo, hgc, hga⟩ := hg
  have ho' : t.isOperational = true := by rw [isOperational_code hg]; exact hgo
  have hc' : t.isConfigured = on := by
    rw [Bool.eq_iff_iff, isConfigured_code hg]; exact hgc
  have ha' : t.isAddressed = true := by rw [isAddressed_code hg]; exact hga
  have hop : s.isOperational = true := by
    obtain ⟨c, _, hc⟩ := readDevState_of_known h.stateKnown
    rw [isAddressed_code hc] at ho
    rw [isOperational_code hc]
    rcases ho with rfl | rfl <;> rfl
  have hr : t.records = s.records := by simp [State.records, q, f]
  have hb : t.resetBusy = s.resetBusy := by simp [State.resetBusy, pr, ir]
  have hw : ∀ a n, s.written a n → t.written a n := by
    intro a n hs i hi; rw [params, b]; exact hs i hi
  have hz : ∀ a, t.written a 0 := fun a i hi => absurd hi (Nat.not_lt_zero i)
  obtain ⟨a0, u, k, ⟨l1, l2, l3, l4, l5, l6, l7, l8, l9⟩, ⟨r1, r2, r3, r4, r5, r6, r7, r8, r9, r10⟩, _,
    ⟨b1, b2, b3, b4, b5, b6⟩, ⟨m1, m2, m3⟩⟩ := h
  refine ⟨params ▸ a0, fl ▸ u, ?_, ⟨?_, ?_, ?_, ?_, ?_, ?_, ?_, ?_, ?_⟩,
    ⟨?_, ?_, ?_, ?_, ?_, ?_, ?_, ?_, ?_, ?_⟩, .idle (ctx.trans hx), ⟨?_, ?_, ?_, ?_, ?_, ?_⟩, ⟨?_, ?_, ?_⟩⟩
  · rw [hg]; cases g <;> rfl
  · rw [e0, e1, ho', ← hop]; exact l1
  · rw [d1, d2, d3, hc']; cases on <;> exact ⟨rfl, rfl, rfl⟩
  · rw [cfg, hc', params]
  · rw [d1, d2, d3]; cases on <;> exact ⟨rfl, rfl, rfl⟩
  · intro e
    rw [params]
    cases e
    case ep0Out => simp only [PerEntry.get, e0]; exact l5 .ep0Out
    case ep0In => simp only [PerEntry.get, e1]; exact l5 .ep0In
    case ep1In => simp only [PerEntry.get, d1]; exact Nat.zero_le _
    case ep2In => simp only [PerEntry.get, d3]; exact Nat.zero_le _
    case ep2Out =>
      simp only [PerEntry.get, d2]
      cases on
      · exact Nat.zero_le _
      · show (BitVec.ofNat 11 (bufCap s.params .ep2Out)).toNat ≤ _
        rw [z.cnt_toNat .ep2Out (le_refl _)]
  · rw [hb, e0, hr]; exact l6
  · intro e
    cases e
    case ep0Out => simp only [PerEntry.get, e0]; exact l7 .ep0Out
    case ep0In => simp only [PerEntry.get, e1]; exact l7 .ep0In
    case ep1In => simp only [PerEntry.get, d1]; exact fun _ => trivial
    case ep2In => simp only [PerEntry.get, d3]; exact fun _ => trivial
    case ep2Out =>
      simp only [PerEntry.get, d2]
      cases on
      · exact fun _ => rfl
      · exact fun hh => absurd hh (by simp)
  · rw [devAddr, l8, ho, ha']
  · rw [hb, l, hr]; exact l9
  · rw [hr]; exact r1
  · exact fun _ => ho'
  · rw [hb, f]; exact r3
  · rw [q, params]; exact r4
  · rw [f, params]; exact r5
  · rw [hr]; exact r6
  · rw [hr, e0]; exact r7
  · rw [hr]; exact r8
  · rw [hr, e1]; exact r9
  · rw [hr]; exact r10
  · rw [e0]; exact fun hh => hw _ _ (b1 hh)
  · rw [e1]; exact fun hh => hw _ _ (b2 hh)
  · rw [d1]; exact fun hh => absurd hh (by simp)
  · rw [d2]
    cases on
    · exact fun _ => hz _
    · exact fun hh => absurd hh (by simp)
  · rw [d3]; exact fun hh => absurd hh (by simp)
  · rw [tx]; exact fun hh => absurd hh (by decide)
  · rw [b]; exact m1
  · rw [b, params]; exact m2
  · rw [txLen]; exact Nat.zero_le _

/-- An applicable action, once CTX is Idle again (41_control_transfer.md R151, R158). -/
theorem Inv.applyAction {s : State} (h : Inv { s with ctx := Ctx.idle }) (a : Action) (ha : Action.applicable s a) :
    Inv (setCtx Ctx.idle (applyAction a s)) := by
  cases a with
  | noAction => exact h
  | setLineCoding =>
    exact h.congr ⟨rfl, rfl, rfl, rfl, rfl, rfl, rfl, rfl, rfl, rfl, rfl, rfl, rfl, rfl, rfl⟩
  | setAddress a => exact h.addressApply ha.1 ha.2 rfl a
  | setConfig c =>
    obtain ⟨hadd, _⟩ := ha
    simp only [Machine.applyAction]
    split
    · exact h.reconfigured hadd rfl false rfl rfl rfl rfl rfl rfl rfl rfl rfl rfl rfl rfl rfl rfl rfl rfl rfl rfl rfl
    · exact h.reconfigured hadd rfl true rfl rfl rfl rfl rfl rfl rfl rfl rfl rfl rfl rfl rfl rfl rfl rfl rfl rfl rfl

/-! ## IN and OUT completions -/

/-- An EP0IN record is the only one of its kind, and the block owns the entry (44_endpoint_buffers.md R214). -/
theorem Inv.ep0InAlone {s : State} (h : Inv s) {rest : List TokenRecord} (hq : s.tokq = TokenKind.ep0In.record :: rest) :
    s.bd.ep0In.own = .fw ∧ ({ s with tokq := rest } : State).records.any ep0InRecord = false := by
  have hr : s.records = TokenKind.ep0In.record :: (rest ++ s.sieFifo) := by simp [State.records, hq]
  have hin : ep0InRecord TokenKind.ep0In.record = true := by decide
  refine ⟨h.records.ep0InOwned (by rw [hr, List.any_cons, hin]; rfl), ?_⟩
  have h1 := h.records.oneEp0In
  rw [hr, List.filter_cons_of_pos hin, List.length_cons] at h1
  refine List.any_eq_false.mpr fun x hx hxi => ?_
  have : x ∈ (rest ++ s.sieFifo).filter ep0InRecord := List.mem_filter.mpr ⟨hx, hxi⟩
  have := List.length_pos_of_mem this
  omega

/-- With EP0IN the SIE's, no EP0IN record is waiting, before or after a record is taken. -/
theorem Inv.noInWhileArmed {s : State} (h : Inv s) {r : TokenRecord} {rest : List TokenRecord} (hq : s.tokq = r :: rest)
    (hw : s.bd.ep0In.own = .hw) : ({ s with tokq := rest } : State).records.any ep0InRecord = false := by
  refine List.any_eq_false.mpr fun x hx hxi => ?_
  have : s.records.any ep0InRecord = true := by
    refine List.any_eq_true.mpr ⟨x, ?_, hxi⟩
    have : s.records = r :: (rest ++ s.sieFifo) := by simp [State.records, hq]
    rw [this]; exact List.mem_cons_of_mem _ hx
  rw [h.records.ep0InOwned this] at hw
  cases hw

/-- A record that is none of EP0OUT's leaves the invariants once it is gone. -/
theorem Inv.pop {s : State} (h : Inv s) {r : TokenRecord} {rest : List TokenRecord} (hq : s.tokq = r :: rest)
    (hr : ep0OutRecord r = false) : Inv { s with tokq := rest } := by
  have m := Ep0Mid.start h hq
  refine h.after_ep0In m hr rfl rfl rfl (fun hw => h.noInWhileArmed hq hw) ?_
  obtain ⟨x1, x2, x3, x4, x5⟩ := h.context
  refine ⟨x1, x2, x3, x4, fun hst => ⟨(x5 hst).1, ?_⟩⟩
  refine List.any_eq_false.mpr fun x hx hxi => ?_
  have : s.records.any ep0InRecord = true := by
    refine List.any_eq_true.mpr ⟨x, ?_, hxi⟩
    rw [m.records]; exact List.mem_cons_of_mem _ hx
  rw [(x5 hst).2] at this
  cases this

/-- IN completion: no fault (41_control_transfer.md R150-R152). -/
theorem Inv.inCompletion {s : State} (h : Inv s) {rest : List TokenRecord} (hq : s.tokq = TokenKind.ep0In.record :: rest) :
    ∃ t, inCompletion { s with tokq := rest } = .ok t ∧ Inv t := by
  have z := admitted_sizes h.admitted
  obtain ⟨hown, hno⟩ := h.ep0InAlone hq
  have m := Ep0Mid.start h hq
  have hp := h.pop hq (by decide)
  obtain ⟨g, hg⟩ := Option.isSome_iff_exists.mp h.context.stageKnown
  have hgc : s.ctx.stage = g.code := (stage_ofCode_iff _ _).mp hg
  simp only [Machine.inCompletion, readStage_code (s := { s with tokq := rest }) hgc, bind, Except.bind]
  cases g with
  | idle => exact ⟨_, rfl, hp⟩
  | dataOut => exact ⟨_, rfl, hp⟩
  | statusOut => exact ⟨_, rfl, hp⟩
  | statusIn =>
    refine ⟨_, rfl, Inv.applyAction ?_ _ h.context.applicable⟩
    refine h.after_ep0In (m.setCtx Ctx.idle) (by decide) rfl rfl rfl (fun hw => ?_) (.idle rfl)
    have hw : s.bd.ep0In.own = .hw := hw
    rw [hown] at hw
    cases hw
  | dataIn =>
    obtain ⟨v, b, hv, hm, h1, h2, h3, h4, h5⟩ := armNextIn_ok m z (h.context.responseLeft hgc)
    simp only [hv]
    have fr := ep0Frame_armNextIn hv
    have ha : Action.applicable v v.ctx.action := by
      rw [h2]; exact (Action.applicable_congr fr.devState fr.params _).mpr h.context.applicable
    have hgv : v.ctx.stage = Stage.code .dataIn := h1.trans hgc
    refine ⟨_, rfl, ?_⟩
    split
    · refine h.after_ep0In hm (by decide) (by rw [h4]) (by rw [h4]) h3 (fun _ => ?_) ⟨?_, ha, fun _ => h5, ?_, ?_⟩
      · rw [m.sameRecords hm]; exact hno
      · rw [hgv]; rfl
      · rw [hgv]; intro h; exact absurd h (by decide)
      · rw [hgv]; intro h; exact absurd h (by decide)
    · refine h.after_ep0In (hm.setCtx _) (by decide) (by rw [setCtx_bd, h4]) (by rw [setCtx_bd, h4]) h3 (fun _ => ?_)
        (.noData .statusOut rfl (by decide) (by decide) ?_)
      · rw [m.sameRecords (hm.setCtx _)]; exact hno
      · exact (Action.applicable_congr rfl rfl _).mpr ha

/-- The bytes of the OUT data stage stay in step with OUTCNT and REMAIN (41_control_transfer.md R153). -/
theorem storeOutData_ok {c : Ctx} {data : List Byte} (h7 : c.outCnt.toNat + c.remain.toNat = 7)
    (hd : data.length ≤ c.remain.toNat) :
    ∃ c', storeOutData c data = .ok c' ∧ c'.stage = c.stage ∧ c'.action = c.action ∧
      c'.outCnt.toNat + c'.remain.toNat = 7 := by
  unfold storeOutData
  rw [if_pos (by omega)]
  refine ⟨_, rfl, rfl, rfl, ?_⟩
  have h1 := c.outCnt.isLt
  have h2 := c.remain.isLt
  simp only [BitVec.toNat_add, BitVec.toNat_sub, BitVec.toNat_ofNat]
  omega

/-- OUT completion: no fault (41_control_transfer.md R153-R156). -/
theorem Inv.outCompletion {s : State} (h : Inv s) {rest : List TokenRecord} (hq : s.tokq = TokenKind.ep0Out.record :: rest) :
    ∃ t, outCompletion { s with tokq := rest } = .ok t ∧ Inv t := by
  have z := admitted_sizes h.admitted
  have m := Ep0Mid.start h hq
  have hro : ep0OutRecord TokenKind.ep0Out.record = true := by decide
  have hown : s.bd.ep0Out.own = .fw := h.records.ep0OutOwned (by rw [State.records, hq]; simp [hro])
  have hlock : ∀ v : State, v.setupLock = s.setupLock →
      v.setupLock = if TokenKind.ep0Out.record = TokenKind.ep0Setup.record then false else s.setupLock := by
    intro v hv; rw [if_neg (by decide)]; exact hv
  have finish : ∀ u : State, Ep0Mid TokenKind.ep0Out.record s u → u.setupLock = s.setupLock →
      (u.bd.ep0In.own = .hw → u.records.any ep0InRecord = false) → ContextInOrder u → Inv (Machine.armRx Entry.ep0Out u) := by
    intro u mu hl hn hc
    have mr := mu.armRx z
    refine h.after_ep0Out mr hro (armRx_own _ mu.outEn) (hlock _ (by rw [armRx_setupLock, hl])) ?_ ?_
    · rw [armRx_ep0In, mu.sameRecords mr]; exact hn
    · exact hc.congr (by simp) (by simp) (by simp) (by rw [armRx_ep0In]) (mu.sameRecords mr)
  have hn0 := fun hw => h.noInWhileArmed hq hw
  obtain ⟨g, hg⟩ := Option.isSome_iff_exists.mp h.context.stageKnown
  have hgc : s.ctx.stage = g.code := (stage_ofCode_iff _ _).mp hg
  simp only [Machine.outCompletion, readStage_code (s := { s with tokq := rest }) hgc, bind, Except.bind]
  cases g with
  | idle => exact ⟨_, rfl, finish _ m rfl hn0 (.noData .idle hgc (by decide) (by decide) h.context.applicable)⟩
  | statusIn => exact ⟨_, rfl, finish _ m rfl hn0 (.noData .statusIn hgc (by decide) (by decide) h.context.applicable)⟩
  | statusOut => exact ⟨_, rfl, finish _ (m.setCtx _) rfl hn0 (.idle rfl)⟩
  | dataIn => exact ⟨_, rfl, finish _ (m.reclaim.setCtx _) rfl (fun hw => by cases hw) (.idle rfl)⟩
  | dataOut =>
    obtain ⟨hin, hnoin⟩ := h.context.outDataIn hgc
    have hnorest : ({ s with tokq := rest } : State).records.any ep0InRecord = false := by
      refine List.any_eq_false.mpr fun x hx hxi => ?_
      have : s.records.any ep0InRecord = true := by
        refine List.any_eq_true.mpr ⟨x, ?_, hxi⟩
        rw [m.records]; exact List.mem_cons_of_mem _ hx
      rw [hnoin] at this
      cases this
    have hfit := h.listed.countFits .ep0Out
    obtain ⟨bs, hb, hbl⟩ := memRead_of_written (s := { s with tokq := rest }) (area := .buffer .ep0Out)
      (n := min s.bd.ep0Out.cnt.toNat s.ctx.remain.toNat) (le_trans (Nat.min_le_left _ _) hfit)
      (fun i hi => h.buffers.ep0Out hown i (lt_of_lt_of_le hi (Nat.min_le_left _ _)))
    obtain ⟨c, hc, hcs, hca, hc7⟩ := storeOutData_ok (data := bs) (h.context.outDataLeft hgc)
      (by rw [hbl]; exact Nat.min_le_right _ _)
    simp only [outDataCompletion, hb, hc, bind, Except.bind]
    have ha : Action.applicable s c.action := hca ▸ h.context.applicable
    split
    · refine ⟨_, rfl, finish _ ((m.setCtx _).armTx z []) (by simp) (fun _ => ?_)
        (.noData .statusIn (by simp) (by decide) (by decide) ?_)⟩
      · rw [m.sameRecords ((m.setCtx _).armTx z [])]; exact hnorest
      · rw [armTx_ctx]
        exact (Action.applicable_congr (by simp) (by simp) _).mpr ha
    · split
      · have mp := (m.setCtx c).protocolStall z .shortData
        refine ⟨_, rfl, h.after_ep0Out mp hro (protocolStall_outOwn _ _ m.outEn)
          (hlock _ (by rw [protocolStall_lock]; rfl)) (fun hw => ?_) (.idle (protocolStall_ctx _ _))⟩
        rw [protocolStall_inOwn] at hw
        cases hw
      · refine ⟨_, rfl, finish _ (m.setCtx c) rfl hn0 ⟨?_, (Action.applicable_congr rfl rfl _).mpr ha, ?_, fun _ => hc7,
          fun _ => ⟨hin, hnorest⟩⟩⟩
        · rw [setCtx_ctx, hcs, hgc]; rfl
        · rw [setCtx_ctx, hcs, hgc]; intro hh; exact absurd hh (by decide)

/-- Any record in TOKQ is processed without a fault (40_device_state.md R128). -/
theorem Inv.dispatchToken {s : State} (h : Inv s) {r : TokenRecord} {rest : List TokenRecord} (hq : s.tokq = r :: rest) :
    ∃ t, dispatchToken r { s with tokq := rest } = .ok t ∧ Inv t := by
  have hop := h.records_cons hq
  obtain ⟨d, hd, hc⟩ := readDevState_of_known h.stateKnown
  have hdo : d.operational = true := by rw [← isOperational_code hc]; exact hop
  have hd' : readDevState ({ s with tokq := rest } : State) = .ok d := hd
  obtain ⟨k, hk⟩ := Option.isSome_iff_exists.mp (h.records.known r (by rw [State.records, hq]; exact List.mem_cons_self ..))
  have hr : r = k.record := by
    revert hk; clear hq; revert r k; decide +revert
  subst hr
  simp only [Machine.dispatchToken, hk]
  cases k with
  | ep0Setup => exact h.tokenEp0Setup hq
  | ep0Out =>
    have hown : s.bd.ep0Out.own = .fw := h.records.ep0OutOwned (by rw [State.records, hq]; simp [show ep0OutRecord TokenKind.ep0Out.record = true by decide])
    simp only [tokenEp0Out, checkOperational, checkOwned, hd', hdo, bind, Except.bind, PerEntry.get, hown, reduceCtorEq,
      if_false, if_true]
    exact h.outCompletion hq
  | ep0In =>
    have hown := (h.ep0InAlone hq).1
    simp only [tokenEp0In, checkOperational, checkOwned, hd', hdo, bind, Except.bind, PerEntry.get, hown, reduceCtorEq,
      if_false, if_true]
    exact h.inCompletion hq
  | ep1In =>
    simp only [tokenEp1In, checkOperational, hd', hdo, bind, Except.bind, if_true]
    exact ⟨_, rfl, h.pop hq (by decide)⟩
  | ep2Out =>
    simp only [tokenEp2Out, checkOperational, hd', hdo, bind, Except.bind, if_true]
    exact ⟨_, rfl, h.pop hq (by decide)⟩
  | ep2In =>
    simp only [tokenEp2In, checkOperational, hd', hdo, bind, Except.bind, if_true]
    exact ⟨_, rfl, h.pop hq (by decide)⟩

/-- POLL meets no fault (40_device_state.md R126). -/
theorem Inv.pollStep {s : State} (h : Inv s) : ∃ t, pollStep s = .ok t ∧ Inv t := by
  unfold Machine.pollStep
  split
  · rename_i hp; exact ⟨_, rfl, h.busReset hp⟩
  · split
    · exact ⟨_, rfl, h.congr ⟨rfl, rfl, rfl, rfl, rfl, rfl, rfl, rfl, rfl, rfl, rfl, rfl, rfl, rfl, rfl⟩⟩
    · split
      · rename_i hq; exact h.dispatchToken hq
      · exact ⟨_, rfl, h⟩

end Sys2Proof.Machine
end

