-- ==== Sys2Proof/Tests/Slice0.lean ====
section
/-! SUPPORT. Tests: what WellFormed refuses, words written out from the encodings, single steps from the vectors
of 95_test_vectors.md, and for every statement of Certificates/Slice0 a state and operands that meet its hypotheses. -/

namespace Sys2Proof.Tests
open Sys2Proof.Machine Sys2Proof.Claims

/-! ## WellFormed: an ill-formed term for each check -/

theorem test_illFormed_stdUnsupported_row1 : (Instr.stdUnsupported 1 3 0x00 0 0 0).wellFormed = false := by decide
theorem test_illFormed_stdUnsupported_row2 : (Instr.stdUnsupported 0 0 0x05 0 0 0).wellFormed = false := by decide
theorem test_illFormed_stdUnsupported_row7 : (Instr.stdUnsupported 0 1 0x0B 0 0 0).wellFormed = false := by decide
theorem test_illFormed_classOther_row10 : (Instr.classOther 1 1 0x21 0 0 7).wellFormed = false := by decide
theorem test_illFormed_armTx_length (data : List Byte) (h : data.length = 65536) :
    (Instr.armTx .ep2In data).wellFormed = false := decide_eq_false (by omega)
theorem test_illFormed_writeBytes_length (data : List Byte) (h : data.length = 65536) :
    (Instr.writeBytes data).wellFormed = false := decide_eq_false (by omega)
theorem test_illFormed_cmdReserved_op : (Instr.cmdReserved 0x8 0 []).wellFormed = false := by decide
theorem test_illFormed_appUnrecognised : (Instr.appUnrecognised 0x4F).wellFormed = false := by decide

/-! ## Decoding: words written out bit by bit from spec/30_encoding.md -/

/-- Bytes of 95_test_vectors.md and of the examples of 42_standard_requests.md, byte 0 in bits 7:0. -/
theorem test_decode_standard_requests :
    decode (.setup 0x0002008100000082) = .ok (.getStatus 2 0 0x0081 2) ∧
    decode (.setup 0x0000000000050500) = .ok (.setAddress 5 0 0) ∧
    decode (.setup 0x0040000001000680) = .ok (.getDescriptor 0x0100 0 64) ∧
    decode (.setup 0x0001000000000880) = .ok (.getConfiguration 0 0 1) ∧
    decode (.setup 0x0000000000010900) = .ok (.setConfiguration 1 0 0) ∧
    decode (.setup 0x0001000100000A81) = .ok (.getInterface 0 1 1) ∧
    decode (.setup 0x0000000100000B01) = .ok (.setInterface 0 1 0) ∧
    decode (.setup 0x0000008200000102) = .ok (.stdUnsupported 0 2 0x01 0 0x82 0) := by decide

/-- The examples of 43_cdc_class_requests.md. -/
theorem test_decode_class_requests :
    decode (.setup 0x0007000000002021) = .ok (.setLineCoding 0 0 7) ∧
    decode (.setup 0x00070000000021A1) = .ok (.getLineCoding 0 0 7) ∧
    decode (.setup 0x0000000000032221) = .ok (.setControlLineState 3 0 0) ∧
    decode (.setup 0x0000000000002321) = .ok (.classOther 0 1 0x23 0 0 0) ∧
    decode (.setup 0x00040000000001C0) = .ok (.vendor 1 0 0x01 0 0 4) ∧
    decode (.setup 0x0000000000000060) = .ok (.reservedType 0 0 0x00 0 0 0) := by decide

/-- A known code with the wrong direction or recipient is no row of its own (30_encoding.md R93). -/
theorem test_decode_wrong_direction :
    decode (.setup 0x0012000001000600) = .ok (.stdUnsupported 0 0 0x06 0x0100 0 18) ∧
    decode (.setup 0x0000000000002120) = .ok (.classOther 0 0 0x21 0 0 0) := by decide

/-- The command words of 30_encoding.md R108. -/
theorem test_decode_commands :
    decode (.command 0x00000001 []) = .ok .poll ∧ decode (.command 0x00000002 []) = .ok .attach ∧
    decode (.command 0x00000033 []) = .ok (.armRx .ep2Out) ∧
    decode (.command 0x00000344 [0x41, 0x42, 0x43]) = .ok (.armTx .ep2In [0x41, 0x42, 0x43]) ∧
    decode (.command 0x00004005 []) = .ok (.readAvailable 64) ∧
    decode (.command 0x00000106 [0x4E]) = .ok (.writeBytes [0x4E]) ∧
    decode (.command 0x00000007 []) = .ok .serviceTx ∧ decode (.command 0x00000008 []) = .ok .appCmd ∧
    decode (.command 0x00000009 []) = .ok (.cmdReserved 9 0 []) := by decide

/-- Words the port refuses (60_exceptions.md R248 item 4). -/
theorem test_decode_bad_commands :
    decode (.command 0x01000001 []) = .error .badCommand ∧ decode (.command 0x00000053 []) = .error .badEntry ∧
    decode (.command 0x00000011 []) = .error .badCommand ∧ decode (.command 0x00000101 []) = .error .badCommand ∧
    decode (.command 0x00000206 [0x4E]) = .error .badCommand := by decide

/-- The kinds of 30_encoding.md R101. -/
theorem test_decode_sie_steps :
    decode (.sie 0 0 []) = .ok .sieReset ∧ decode (.sie 1 0 [0x80]) = .ok (.sieSetup [0x80]) ∧
    decode (.sie 2 2 [0x4F]) = .ok (.sieOut .ep2 [0x4F]) ∧ decode (.sie 3 1 []) = .ok (.sieIn .ep1) ∧
    decode (.sie 4 0 []) = .ok .sieError ∧ decode (.sie 5 0 []) = .ok .power ∧ decode (.sie 6 0 []) = .ok .detach ∧
    decode (.sie 7 0 []) = .error .notAStep ∧ decode (.sie 2 1 []) = .error .notAStep := by decide

/-- The records of 30_encoding.md R100; PID 3 and a PID that does not fit its entry are none of them. -/
theorem test_decode_token_records :
    decode (.token 0x40) = .ok .tokenEp0Setup ∧ decode (.token 0x00) = .ok .tokenEp0Out ∧
    decode (.token 0x30) = .ok .tokenEp0In ∧ decode (.token 0x31) = .ok .tokenEp1In ∧
    decode (.token 0x02) = .ok .tokenEp2Out ∧ decode (.token 0x32) = .ok .tokenEp2In ∧
    decode (.token 0x60) = .error .badToken ∧ decode (.token 0x42) = .error .badToken := by decide

/-- The bytes of 30_encoding.md R105; '1' is no command here (46_application.md R235). -/
theorem test_decode_application_bytes :
    decode (.appByte 0x4F) = .ok .appLedOn ∧ decode (.appByte 0x46) = .ok .appLedOff ∧
    decode (.appByte 0x53) = .ok .appLedStatus ∧ decode (.appByte 0x31) = .ok (.appUnrecognised 0x31) := by decide

/-! ## States: S_PON, S_DEF, S_ADR and S_CFG of 95_test_vectors.md, with a closed descriptor table -/

/-- A descriptor table like DESC_T: the bytes R276 fixes, zeros elsewhere but for the language IDs. -/
def tDesc : DescTable where
  dev := [18, 1, 0, 2, 2, 0, 0, 8, 0, 0, 0, 0, 0, 0, 1, 2, 0, 1]
  cfg :=
    [9, 2, 67, 0, 2, 1, 0, 0x80, 50] ++ [9, 4, 0, 0, 1, 2, 2, 1, 0] ++ [5, 0x24, 0, 0x10, 1] ++ [5, 0x24, 1, 0, 1]
    ++ [4, 0x24, 2, 2] ++ [5, 0x24, 6, 0, 1] ++ [7, 5, 0x81, 3, 8, 0, 10] ++ [9, 4, 1, 0, 2, 10, 0, 0, 0]
    ++ [7, 5, 2, 2, 64, 0, 0] ++ [7, 5, 0x82, 2, 64, 0, 0]
  str0 := [4, 3, 9, 4]
  str1 := [16, 3, 65, 0, 65, 0, 65, 0, 65, 0, 65, 0, 65, 0, 65, 0]
  str2 := [20, 3, 66, 0, 66, 0, 66, 0, 66, 0, 66, 0, 66, 0, 66, 0, 66, 0, 66, 0]

def tParams : Params := { Config.params with desc := tDesc }

/-- The default parameters with a hook that handles two packets. -/
def tHookParams : Params :=
  { tParams with appHook := [(0x00040000000001C0, .dataIn [0xAA, 0xBB, 0xCC, 0xDD, 0xEE]), (0x0000000000002321, .noData)] }

def tPowerOn : State := State.powerOn tParams
def tDefault : State := busReset { tPowerOn with devState := 2 }
def tAddress : State := { tDefault with devState := 4, devAddr := 5 }
def tConfigured : State := configure tAddress

/-- EP0OUT handed back with n bytes received. -/
def gotOut (n : BitVec 11) (s : State) : State :=
  { s with bd := { s.bd with ep0Out := { s.bd.ep0Out with own := .fw, cnt := n } } }

/-- EP2OUT handed back with the bytes received. -/
def gotData (bytes : List Byte) (s : State) : State :=
  { memWrite s (.buffer .ep2Out) bytes with
    bd := { s.bd with ep2Out := { s.bd.ep2Out with own := .fw, cnt := BitVec.ofNat 11 bytes.length } } }

/-- The next state meets a test. -/
def nextMeets (o : Host.Outcome State Fault Refusal) (f : State → Bool) : Bool :=
  match o with
  | .next t => f t
  | .fault _ => false
  | .refused _ => false

theorem test_default_parameters_admitted : admitted Config.params = true := by decide
theorem test_parameters_admitted : admitted tParams = true := by decide
theorem test_hook_parameters_admitted : admitted tHookParams = true := by decide
theorem test_bad_parameters :
    admitted { tParams with cfgValue := 0 } = false ∧ admitted { tParams with tokqDepth := 0 } = false ∧
    admitted { tParams with dataIf := 2 } = false ∧
    admitted { tParams with desc := { tDesc with str1 := [3, 3, 0] } } = false := by decide

/-- STAT words of S_DEF and S_CFG (95_test_vectors.md section 1). -/
theorem test_stat_words :
    tDefault.bd.ep0Out.word = 0x0803 ∧ tDefault.bd.ep0In.word = 0x0002 ∧ tConfigured.bd.ep1In.word = 0x0002 ∧
    tConfigured.bd.ep2Out.word = 0x4003 ∧ tConfigured.bd.ep2In.word = 0x0002 := by decide

/-- BD[4].CFG: EPNUM 2, DIR 1, TYPE 2, MPS 64 (10_state.md R26). -/
theorem test_cfg_word : bdCfg tParams .ep2In = 0x4052 ∧ bdCfg tParams .ep1In = 0x0871 := by decide

/-! ## Single steps -/

/-- S_DEF is reached from Powered by bus reset processing (95_test_vectors.md section 1). -/
theorem test_step_poll_reset :
    nextMeets (exec .poll { tPowerOn with devState := 2, pendReset := true })
      (fun t => t.devState == 3 && t.bd == tDefault.bd && t.pendReset == false) = true := by decide

/-- 41_control_transfer.md R141's example: RESP = DEV_DESC, EP0IN armed with its first 8 bytes. -/
theorem test_step_get_descriptor :
    nextMeets (exec (.getDescriptor 0x0100 0 18) (gotOut 8 tDefault))
      (fun t => t.ctx.stage == 1 && t.ctx.resp == tDesc.dev && t.bd.ep0In.word == 0x0803
        && t.buf.readBytes 8 8 == some [18, 1, 0, 2, 2, 0, 0, 8] && t.ctx.remain == 10) = true := by decide

/-- 42_standard_requests.md R173: string index 3 stalls with cause OUT_OF_RANGE, 4. -/
theorem test_step_get_descriptor_stall :
    nextMeets (exec (.getDescriptor 0x0303 0x0409 0xFF) (gotOut 8 tDefault))
      (fun t => t.stallCause.code == 4 && t.bd.ep0Out.word == 0x0807 && t.bd.ep0In.word == 0x0006) = true := by decide

/-- 42_standard_requests.md R172: SET_ADDRESS(5) waits in StatusIn, DEV_ADDR still 0. -/
theorem test_step_set_address :
    nextMeets (exec (.setAddress 5 0 0) (gotOut 8 tDefault))
      (fun t => t.ctx.stage == 3 && t.ctx.action == .setAddress 5 && t.devAddr == 0) = true := by decide

/-- W2: SET_CONFIGURATION in Default stalls with cause BAD_STATE, 3. -/
theorem test_step_set_configuration_default :
    nextMeets (exec (.setConfiguration 1 0 0) (gotOut 8 tDefault))
      (fun t => t.stallCause.code == 3 && t.devState == 3) = true := by decide

/-- 42_standard_requests.md R171: endpoint 0x81 in Address stalls with cause BAD_STATE. -/
theorem test_step_get_status_endpoint :
    nextMeets (exec (.getStatus 2 0 0x81 2) (gotOut 8 tAddress)) (fun t => t.stallCause.code == 3) = true := by decide

/-- 42_standard_requests.md R174: ACTIVE_CFG 1 in Configured. -/
theorem test_step_get_configuration :
    nextMeets (exec (.getConfiguration 0 0 1) (gotOut 8 tConfigured)) (fun t => t.ctx.resp == [1]) = true := by decide

/-- 43_cdc_class_requests.md R193: the reset line coding. -/
theorem test_step_get_line_coding :
    nextMeets (exec (.getLineCoding 0 0 7) (gotOut 8 tDefault))
      (fun t => t.ctx.resp == [0x80, 0x25, 0, 0, 0, 0, 8]) = true := by decide

/-- 43_cdc_class_requests.md R195: SEND_BREAK stalls with cause HOOK_UNHANDLED, 5. -/
theorem test_step_class_other :
    nextMeets (exec (.classOther 0 1 0x23 0 0 0) (gotOut 8 tDefault)) (fun t => t.stallCause.code == 5) = true := by decide

/-- 43_cdc_class_requests.md R196: the hook's five bytes are cut to wLength 4. -/
theorem test_step_vendor_hook :
    nextMeets (exec (.vendor 1 0 0x01 0 0 4) (gotOut 8 { tDefault with params := tHookParams }))
      (fun t => t.ctx.resp == [0xAA, 0xBB, 0xCC, 0xDD]) = true := by decide

/-- 41_control_transfer.md R153: the seven bytes of SET_LINE_CODING's data stage. -/
theorem test_step_token_ep0_out :
    nextMeets (exec .tokenEp0Out
        { memWrite (gotOut 7 tDefault) (.buffer .ep0Out) [0x00, 0xC2, 0x01, 0x00, 0x02, 0x01, 0x07] with
          ctx := { Ctx.idle with stage := 2, remain := 7, action := .setLineCoding } })
      (fun t => t.ctx.stage == 3 && t.ctx.outBuf == 0x0701020001C200 && t.bd.ep0In.own == .hw) = true := by decide

/-- 43_cdc_class_requests.md R192: RATE 115200, FORMAT 2, PARITY 1, DATABITS 7. -/
theorem test_step_token_ep0_in :
    nextMeets (exec .tokenEp0In
        { tDefault with ctx := { Ctx.idle with stage := 3, action := .setLineCoding, outBuf := 0x0701020001C200 } })
      (fun t => t.lineCoding == { rate := 115200, format := 2, parity := 1, dataBits := 7 } && t.ctx == Ctx.idle)
      = true := by decide

/-- 44_endpoint_buffers.md R202: three bytes in 0x58..0x5A, BD[4] = OWN HW, CNT 3, COUNT 3. -/
theorem test_step_arm_tx :
    nextMeets (exec (.armTx .ep2In [0x41, 0x42, 0x43]) tConfigured)
      (fun t => t.buf.readBytes 0x58 3 == some [0x41, 0x42, 0x43] && t.bd.ep2In.word == 0x0303
        && t.result == some { word := 3, bytes := [] }) = true := by decide

/-- 44_endpoint_buffers.md R202: an entry the SIE owns answers BUSY. -/
theorem test_step_arm_tx_busy :
    nextMeets (exec (.armTx .ep2In [0x41]) { tConfigured with bd := { tConfigured.bd with ep2In := tConfigured.bd.ep2Out } })
      (fun t => t.result == some { word := 0x10000, bytes := [] }) = true := by decide

/-- 44_endpoint_buffers.md R208: the packet in BUF[0..7], BD[0] = OWN FW, CNT 8, the lock and record 0x40. -/
theorem test_step_sie_setup :
    nextMeets (exec (.sieSetup [0x80, 6, 0, 1, 0, 0, 0x12, 0]) tDefault)
      (fun t => t.buf.readBytes 0 8 == some [0x80, 6, 0, 1, 0, 0, 0x12, 0] && t.bd.ep0Out.word == 0x0802 && t.setupLock
        && t.sieFifo == [0x40]) = true := by decide

/-- 60_exceptions.md R251: SIE_SETUP with more than EP0_MPS bytes is no step. -/
theorem test_step_sie_setup_too_long :
    (match exec (.sieSetup (List.replicate 9 0)) tDefault with
      | .refused .notAStep => true
      | .refused _ => false
      | .next _ => false
      | .fault _ => false) = true := by decide

/-- 44_endpoint_buffers.md R209: BUF[0x18] = 0x4F, BD[3] = OWN FW, CNT 1, record 0x02. -/
theorem test_step_sie_out :
    nextMeets (exec (.sieOut .ep2 [0x4F]) tConfigured)
      (fun t => t.buf.readBytes 0x18 1 == some [0x4F] && t.bd.ep2Out.word == 0x0102 && t.sieFifo == [0x02]) = true := by
  decide

/-- 44_endpoint_buffers.md R210: BUF[0x58] = 0x4E is output, OWN FW, CNT 1 stays. -/
theorem test_step_sie_in :
    nextMeets (exec (.sieIn .ep2)
        { tConfigured with
          buf := [(0x58, 0x4E)]
          bd := { tConfigured.bd with ep2In := { own := .hw, en := true, stall := false, cnt := 1 } } })
      (fun t => t.hostSees == [[0x4E]] && t.bd.ep2In.word == 0x0102 && t.sieFifo == [0x32]) = true := by decide

/-- 45_bulk_sequencer.md R221: of 4F 53, `read 1` gives 4F and drops the rest. -/
theorem test_step_read_available :
    nextMeets (exec (.readAvailable 1) (gotData [0x4F, 0x53] tConfigured))
      (fun t => t.result == some { word := 1, bytes := [0x4F] } && t.bd.ep2Out.word == 0x4003) = true := by decide

/-- W9: a write of 100 bytes stages 64. -/
theorem test_step_write_bytes :
    nextMeets (exec (.writeBytes (List.replicate 100 0x55)) tConfigured)
      (fun t => t.result == some { word := 64, bytes := [] } && t.txLen == 64 && t.txPending
        && t.buf.readBytes 0x98 64 == some (List.replicate 64 0x55)) = true := by decide

/-- 45_bulk_sequencer.md R223's example. -/
theorem test_step_service_tx :
    nextMeets (exec .serviceTx { tConfigured with buf := [(0x98, 0x4E)], txPending := true, txLen := 1 })
      (fun t => t.buf.readBytes 0x58 1 == some [0x4E] && t.bd.ep2In.word == 0x0103 && !t.txPending) = true := by decide

/-- 46_application.md R232's example: 4F turns LED on and stages 4E. -/
theorem test_step_app_cmd :
    nextMeets (exec .appCmd (gotData [0x4F] tConfigured))
      (fun t => t.led && t.txPending && t.buf.readBytes 0x98 1 == some [0x4E]) = true := by decide

/-- W7: the byte 5A is consumed with no reply. -/
theorem test_step_app_cmd_unmapped :
    nextMeets (exec .appCmd (gotData [0x5A] tConfigured))
      (fun t => !t.led && !t.txPending && t.bd.ep2Out.word == 0x4003) = true := by decide

/-- 60_exceptions.md R250: a record outside the operational states. -/
theorem test_step_stale_token :
    nextMeets (exec .poll { tPowerOn with tokq := [0x31] })
      (fun t => t.faulted == some .staleToken && t.tokq == [0x31]) = true := by decide

/-- An opcode-table word laid where the next step fetches it is what the next step runs. -/
theorem test_fetch_word_command :
    nextMeets (step (tPowerOn.withFetchWord 32 0x00000002)) (fun t => t.devState == 1) = true := by decide
theorem test_fetch_word_setup :
    nextMeets (step (tPowerOn.withFetchWord 64 0x0000000000050500)) (fun t => t.ctx.action == .setAddress 5) = true := by
  decide

/-! ## Witnesses: states and operands that meet the hypotheses of the statements -/

theorem ready_of {s : State} (p : s.params = tParams)
    (h : s.isOperational = true ∧ s.bd.ep0Out.en = true ∧ s.bd.ep0In.en = true ∧ s.bd.ep0Out.own = .fw) : SetupReady s :=
  ⟨by rw [p]; decide, h.1, h.2.1, h.2.2.1, h.2.2.2⟩

theorem test_ready_default : SetupReady (gotOut 8 tDefault) := ready_of rfl (by decide)
theorem test_ready_address : SetupReady (gotOut 8 tAddress) := ready_of rfl (by decide)
theorem test_ready_configured : SetupReady (gotOut 8 tConfigured) := ready_of rfl (by decide)
theorem test_ready_short : SetupReady (gotOut 7 tDefault) := ready_of rfl (by decide)
theorem test_ready_hook : SetupReady (gotOut 8 { tDefault with params := tHookParams }) :=
  ⟨by decide, by decide, by decide, by decide, by decide⟩

theorem test_witness_StepRunsTheDecodedInstruction :
    let s := { tPowerOn with agenda := [.command 0x00000002 []] }
    admitted s.params = true ∧ s.faulted = none ∧ agentWire (.command 0x00000002 []) = some (.command 0x00000002 []) ∧
      decode (.command 0x00000002 []) = .ok .attach := by decide
theorem test_witness_StepRunsTheDecodedInstruction_sie :
    agentWire (.sie 5 0 []) = some (.sie 5 0 []) ∧ decode (.sie 5 0 []) = .ok .power := by decide

/-- One state for each branch of CAPTURE, the last with TOKQ one short of full. -/
theorem test_witness_CaptureTakesResetThenErrorThenToken :
    (let s := { tPowerOn with agenda := [.capture], sieIfReset := true }
     admitted s.params = true ∧ s.faulted = none ∧ s.sieIfReset = true) ∧
    (let s := { tPowerOn with agenda := [.capture], sieIfError := true }
     admitted s.params = true ∧ s.faulted = none ∧ s.sieIfReset = false ∧ s.sieIfError = true) ∧
    (let s := { tDefault with agenda := [.capture], sieFifo := [0x31], tokq := List.replicate 7 0x31 }
     admitted s.params = true ∧ s.faulted = none ∧ s.sieIfReset = false ∧ s.sieIfError = false ∧ s.sieFifo = [0x31] ∧
       s.tokq.length < s.params.tokqDepth) := by decide

theorem test_witness_RefusedCommandChangesOnlyTheMark :
    (let s := { tPowerOn with agenda := [.command 0x01000001 []] }
     admitted s.params = true ∧ s.faulted = none ∧ decode (.command 0x01000001 []) = .error .badCommand) ∧
    decode (.command 0x000000F4 []) = .error .badEntry := by decide

theorem test_witness_FaultedOrBadParametersTakeNoStep :
    ({ tPowerOn with faulted := some .badToken } : State).faulted = some .badToken ∧
    (let s := { tPowerOn with params := { tParams with cfgValue := 0 } }
     s.faulted = none ∧ admitted s.params = false) := by decide

theorem test_witness_StepsThatAreNotEnabled :
    (let s := { tPowerOn with agenda := [.capture] }
     admitted s.params = true ∧ s.faulted = none ∧ s.sieIfReset = false ∧ s.sieIfError = false ∧ s.sieFifo = []) ∧
    (let s := { tDefault with agenda := [.capture], sieFifo := [0x31], tokq := List.replicate 8 0x31 }
     admitted s.params = true ∧ s.faulted = none ∧ s.sieIfReset = false ∧ s.sieIfError = false ∧
       s.params.tokqDepth ≤ s.tokq.length) ∧
    tPowerOn.devState.toNat < 2 ∧ ({ tPowerOn with devState := 1 } : State).devState.toNat < 2 ∧
    2 ≤ tDefault.devState.toNat ∧ tDefault.devState.toNat < 6 ∧ tDefault.params.ep0Mps < (List.replicate 9 0x00#8).length := by
  decide

theorem test_witness_DecodeOfEncodeIsTheInstruction :
    (Instr.stdUnsupported 0 31 0xFF 0xFFFF 0xFFFF 0xFFFF).wellFormed = true ∧
    (Instr.classOther 1 1 0x22 0 0 0).wellFormed = true ∧ (Instr.cmdReserved 0xF 0xFFFFFFF [0]).wellFormed = true ∧
    (Instr.armTx .ep2In []).wellFormed = true ∧ (Instr.appUnrecognised 0x30).wellFormed = true := by decide

theorem test_witness_EncodeOfDecodeIsTheWireForm :
    decode (.command 0x00FFFF05 []) = .ok (.readAvailable 0xFFFF) ∧
    decode (.setup 0xFFFFFFFFFFFFFFFF) = .ok (.reservedType 1 31 0xFF 0xFFFF 0xFFFF 0xFFFF) := by decide

/-- A word for each of the checks, at the edges of E and OP. -/
theorem test_witness_CommandChecksInOrder :
    ((0xFFFFFFF9 : Word32).extractLsb' 0 4).toNat = 9 ∧ ((0x01000008 : Word32).extractLsb' 24 8) ≠ 0 ∧
    ((0x00000053 : Word32).extractLsb' 4 4).toNat = 5 ∧ ((0x00000018 : Word32).extractLsb' 4 4).toNat = 1 ∧
    ((0x00000143 : Word32).extractLsb' 4 4).toNat = 4 ∧ ((0x00000143 : Word32).extractLsb' 8 16).toNat = 1 ∧
    ((0x00000043 : Word32).extractLsb' 8 16).toNat = 0 := by decide

theorem test_witness_admitted : ∃ p : Params, admitted p = true := ⟨tParams, by decide⟩

/-- A store into each kind of buffer: SIE_OUT into EP2OUT while the SIE owns it, ARM_TX into EP2IN while the block does,
GET_CONFIGURATION into EP0IN, and a POLL that takes its record while EP0IN is still armed. -/
theorem test_witness_OwnershipGuardsBufferWrites :
    nextMeets (exec (.sieOut .ep2 [0x4F]) tConfigured)
      (fun t => t.buf.read 0x18 != tConfigured.buf.read 0x18 && tConfigured.bd.ep2Out.own == .hw) = true ∧
    nextMeets (exec (.armTx .ep2In [0x41]) tConfigured)
      (fun t => t.buf.read 0x58 != tConfigured.buf.read 0x58 && tConfigured.bd.ep2In.own == .fw) = true ∧
    nextMeets (exec (.getConfiguration 0 0 1) (gotOut 8 tDefault))
      (fun t => t.buf.read 0x08 != tDefault.buf.read 0x08) = true ∧
    (let s := { memWrite (gotOut 8 tDefault) (.buffer .ep0Out) [0x80, 8, 0, 0, 0, 0, 1, 0] with
                bd := { (gotOut 8 tDefault).bd with ep0In := { own := .hw, en := true, stall := false, cnt := 0 } }
                tokq := [0x40] }
     nextMeets (exec .poll s) (fun t => t.buf.read 0x08 != s.buf.read 0x08) = true ∧ s.bd.ep0In.own = .hw ∧
       s.pendReset = false ∧ s.pendError = false ∧ s.tokq.head? = some 0x40) := by decide

theorem test_witness_AttachAndPower :
    tPowerOn.devState = 0 ∧ ({ tPowerOn with devState := 1 } : State).devState = 1 ∧
    tConfigured.devState ≠ 0 ∧ tConfigured.devState ≠ 1 ∧ tConfigured.devState.toNat < 6 := by decide

theorem test_witness_PollProcessesResetThenError :
    ({ tConfigured with pendReset := true } : State).pendReset = true ∧
    (let s := { tConfigured with pendError := true, tokq := [0x31] }
     s.pendReset = false ∧ s.pendError = true) := by decide

theorem test_witness_PollDispatchesOneRecord :
    (let s := { tConfigured with tokq := [] }
     s.pendReset = false ∧ s.pendError = false ∧ s.faulted = none ∧ s.tokq = []) ∧
    (let s := { tConfigured with tokq := [0x7F] }
     s.pendReset = false ∧ s.pendError = false ∧ s.faulted = none ∧ s.tokq = [0x7F] ∧ tokenKind 0x7F = none) ∧
    (let s := { tConfigured with tokq := [0x02, 0x32] }
     s.pendReset = false ∧ s.pendError = false ∧ s.faulted = none ∧ s.tokq = [0x02, 0x32] ∧ tokenKind 0x02 = some .ep2Out) := by
  decide

theorem test_witness_StaleTokenIsAModelFault :
    (tPowerOn.faulted = none ∧ tPowerOn.devState.toNat < 6 ∧ tPowerOn.devState.toNat < 3) ∧
    (let s := { tPowerOn with devState := 2 }
     s.faulted = none ∧ s.devState.toNat < 6 ∧ s.devState.toNat < 3) ∧
    (tDefault.faulted = none ∧ tDefault.devState.toNat < 6 ∧ tDefault.bd.ep0Out.own = .hw) ∧
    (let s := { tDefault with bd := { tDefault.bd with ep0In := { own := .hw, en := true, stall := false, cnt := 0 } } }
     s.faulted = none ∧ s.devState.toNat < 6 ∧ s.bd.ep0In.own = .hw) := by decide

theorem tokenIn_of {s : State} (p : s.params = tParams)
    (h : s.isOperational = true ∧ (s.bd.get .ep0In).en = true ∧ (s.bd.get .ep0In).own = .fw) : TokenReady .ep0In s :=
  ⟨by rw [p]; decide, h.1, h.2.1, h.2.2⟩

theorem tokenOut_of {s : State} (p : s.params = tParams)
    (h : s.isOperational = true ∧ (s.bd.get .ep0Out).en = true ∧ (s.bd.get .ep0Out).own = .fw) : TokenReady .ep0Out s :=
  ⟨by rw [p]; decide, h.1, h.2.1, h.2.2⟩

/-- The state in stage g with an action staged. -/
def atStage (g : BitVec 3) (a : Action) (s : State) : State := { s with ctx := { Ctx.idle with stage := g, action := a } }

theorem test_witness_StatusStageAppliesTheAddress :
    (TokenReady .ep0In (atStage 3 (.setAddress 0) tAddress) ∧ (atStage 3 (.setAddress 0) tAddress).ctx.stage = 3) ∧
    (TokenReady .ep0In (atStage 3 (.setAddress 127) tDefault) ∧ (atStage 3 (.setAddress 127) tDefault).ctx.stage = 3) :=
  ⟨⟨tokenIn_of rfl (by decide), rfl⟩, ⟨tokenIn_of rfl (by decide), rfl⟩⟩

theorem test_witness_StatusStageAppliesTheConfiguration :
    (TokenReady .ep0In (atStage 3 (.setConfig 0) tConfigured) ∧ (atStage 3 (.setConfig 0) tConfigured).ctx.stage = 3) ∧
    (TokenReady .ep0In (atStage 3 (.setConfig 1) tAddress) ∧ (atStage 3 (.setConfig 1) tAddress).ctx.stage = 3) :=
  ⟨⟨tokenIn_of rfl (by decide), rfl⟩, ⟨tokenIn_of rfl (by decide), rfl⟩⟩

theorem test_witness_StatusStageAppliesTheLineCoding :
    (TokenReady .ep0In (atStage 3 .noAction tDefault) ∧ (atStage 3 .noAction tDefault).ctx.stage = 3) ∧
    (let s := { tDefault with ctx := { Ctx.idle with stage := 3, action := .setLineCoding, outBuf := 0x0701020001C200 } }
     TokenReady .ep0In s ∧ s.ctx.stage = 3 ∧ s.ctx.action = .setLineCoding ∧
       s.ctx.outBuf = 0x07#8 ++ 0x01#8 ++ 0x02#8 ++ 0x00#8 ++ 0x01#8 ++ 0xC2#8 ++ 0x00#8) :=
  ⟨⟨tokenIn_of rfl (by decide), rfl⟩, tokenIn_of rfl (by decide), rfl, rfl, by decide⟩

theorem test_witness_SetupRecordRunsItsRequest :
    let s := memWrite (gotOut 8 tDefault) (.buffer .ep0Out) [0, 5, 5, 0, 0, 0, 0, 0]
    SetupReady s ∧ s.faulted = none ∧ s.bd.ep0Out.cnt = 8 ∧
      Holds s.buf (adr s.params .ep0Out) (setupBytes 0x0000000000050500) :=
  ⟨ready_of rfl (by decide), by decide, by decide, show ∀ i < 8, _ by decide⟩

theorem test_witness_MalformedSetupStalls : SetupReady (gotOut 7 tDefault) ∧ (gotOut 7 tDefault).bd.ep0Out.cnt ≠ 8 :=
  ⟨ready_of rfl (by decide), by decide⟩

/-- Every clause of GET_STATUS, with `low` the low byte of wIndex. -/
theorem test_witness_GetStatusResult :
    (gotOut 8 tAddress).devState ≠ 5 ∧ (gotOut 8 tConfigured).devState = 5 ∧
    ((0xFF01 : Word16).extractLsb' 0 8 = tParams.dataIf) ∧
    ((0x0002 : Word16).extractLsb' 0 8 ≠ tParams.commIf ∧ (0x0002 : Word16).extractLsb' 0 8 ≠ tParams.dataIf) ∧
    ((0x0083 : Word16).extractLsb' 0 8 ∉ [0x00#8, 0x80, 0x81, 0x02, 0x82]) ∧
    ((0x0080 : Word16).extractLsb' 0 8 ∈ [0x00#8, 0x80]) ∧ ((0x0082 : Word16).extractLsb' 0 8 ∈ [0x81#8, 0x02, 0x82]) ∧
    3 ≤ (3 : BitVec 5).toNat := by decide

theorem test_witness_SetAddressResult :
    (1 : Word16) ≠ 0 ∧ 127 < (128 : Word16).toNat ∧ (127 : Word16).toNat ≤ 127 ∧ (gotOut 8 tConfigured).devState = 5 ∧
    (gotOut 8 tDefault).devState ≠ 5 ∧ (gotOut 8 tAddress).devState ≠ 5 := by decide

theorem test_witness_GetDescriptorResult :
    (0x0303 : Word16) ∉ [0x0100#16, 0x0200, 0x0300, 0x0301, 0x0302] ∧
    (0x0101 : Word16) ∉ [0x0100#16, 0x0200, 0x0300, 0x0301, 0x0302] := by decide

theorem test_witness_SetConfigurationResult :
    256 ≤ (256 : Word16).toNat ∧ (255 : Word16).toNat < 256 ∧ (gotOut 8 tDefault).devState = 3 ∧
    (gotOut 8 tAddress).devState ≠ 3 ∧ (2 : Word16) ≠ 0 ∧ (2 : Word16) ≠ tParams.cfgValue.setWidth 16 ∧
    (1 : Word16) = tParams.cfgValue.setWidth 16 := by decide

theorem test_witness_InterfaceRequestResults :
    (gotOut 8 tAddress).devState ≠ 5 ∧ (gotOut 8 tConfigured).devState = 5 ∧
    ((0x0001 : Word16).extractLsb' 0 8 = tParams.commIf ∨ (0x0001 : Word16).extractLsb' 0 8 = tParams.dataIf) ∧
    ¬((0x0002 : Word16).extractLsb' 0 8 = tParams.commIf ∨ (0x0002 : Word16).extractLsb' 0 8 = tParams.dataIf) := by
  decide

theorem test_witness_LineCodingRequests :
    (0x0001 : Word16).extractLsb' 0 8 ≠ tParams.commIf ∧ (0xFF00 : Word16).extractLsb' 0 8 = tParams.commIf ∧
    (6 : Word16) ≠ 7 ∧ tDefault.lineCoding.rate = 0x00#8 ++ 0x00#8 ++ 0x25#8 ++ 0x80#8 := by decide

theorem test_witness_DataInCompletionArmsTheNextPacket :
    (let s := { tDefault with ctx := { Ctx.idle with stage := 1, resp := tDesc.dev, off := 8, remain := 10 } }
     TokenReady .ep0In s ∧ s.ctx.stage = 1 ∧ s.ctx.off.toNat + s.ctx.remain.toNat = s.ctx.resp.length ∧
       s.ctx.remain ≠ 0) ∧
    (let s := { tDefault with ctx := { Ctx.idle with stage := 1, resp := [1, 2, 3, 4, 5, 6, 7, 8], off := 8, zlpPend := true } }
     TokenReady .ep0In s ∧ s.ctx.stage = 1 ∧ s.ctx.off.toNat + s.ctx.remain.toNat = s.ctx.resp.length ∧
       s.ctx.remain = 0 ∧ s.ctx.zlpPend = true) ∧
    (let s := { tDefault with ctx := { Ctx.idle with stage := 1, resp := [0], off := 1 } }
     TokenReady .ep0In s ∧ s.ctx.stage = 1 ∧ s.ctx.off.toNat + s.ctx.remain.toNat = s.ctx.resp.length ∧
       s.ctx.remain = 0 ∧ s.ctx.zlpPend = false) :=
  ⟨⟨tokenIn_of rfl (by decide), rfl, by decide, by decide⟩, ⟨tokenIn_of rfl (by decide), rfl, by decide, by decide⟩,
    tokenIn_of rfl (by decide), rfl, by decide, by decide⟩

theorem test_witness_RecordsThatChangeNothing :
    TokenReady .ep0In (atStage 0 .noAction tDefault) ∧ TokenReady .ep0In (atStage 2 .setLineCoding tDefault) ∧
    TokenReady .ep0In (atStage 4 .noAction tDefault) ∧ tConfigured.isOperational = true :=
  ⟨tokenIn_of rfl (by decide), tokenIn_of rfl (by decide), tokenIn_of rfl (by decide), by decide⟩

/-- The SET_LINE_CODING data stage with n bytes received of the r still to come. -/
def dataOutAt (n : BitVec 11) (r : BitVec 16) (bytes : List Byte) : State :=
  { memWrite (gotOut n tDefault) (.buffer .ep0Out) bytes with
    ctx := { Ctx.idle with stage := 2, remain := r, outCnt := 7 - r.setWidth 3, action := .setLineCoding } }

/-- The status branch at exactly what remains, and the SHORT_DATA branch one byte short of it. -/
theorem test_witness_DataOutCompletionCollectsBytes :
    (let s := dataOutAt 7 7 [1, 2, 3, 4, 5, 6, 7]
     TokenReady .ep0Out s ∧ s.bd.ep0In.en = true ∧ s.bd.ep0In.own = .fw ∧ s.ctx.stage = 2 ∧
       s.ctx.outCnt.toNat + s.ctx.remain.toNat = 7 ∧ s.bd.ep0Out.cnt.toNat ≤ bufCap s.params .ep0Out ∧
       [1#8, 2, 3, 4, 5, 6, 7].length = min s.bd.ep0Out.cnt.toNat s.ctx.remain.toNat ∧
       Holds s.buf (adr s.params .ep0Out) [1, 2, 3, 4, 5, 6, 7] ∧ s.ctx.remain.toNat ≤ s.bd.ep0Out.cnt.toNat) ∧
    (let s := dataOutAt 6 7 [1, 2, 3, 4, 5, 6]
     TokenReady .ep0Out s ∧ s.bd.ep0In.en = true ∧ s.bd.ep0In.own = .fw ∧ s.ctx.stage = 2 ∧
       s.ctx.outCnt.toNat + s.ctx.remain.toNat = 7 ∧ s.bd.ep0Out.cnt.toNat ≤ bufCap s.params .ep0Out ∧
       [1#8, 2, 3, 4, 5, 6].length = min s.bd.ep0Out.cnt.toNat s.ctx.remain.toNat ∧
       Holds s.buf (adr s.params .ep0Out) [1, 2, 3, 4, 5, 6] ∧ s.bd.ep0Out.cnt.toNat < s.ctx.remain.toNat ∧
       s.bd.ep0Out.cnt.toNat < s.params.ep0Mps) :=
  ⟨⟨tokenOut_of rfl (by decide), by decide, by decide, by decide, by decide, by decide, by decide,
      show ∀ i < 7, _ by decide, by decide⟩,
    tokenOut_of rfl (by decide), by decide, by decide, by decide, by decide, by decide, by decide,
      show ∀ i < 6, _ by decide, by decide, by decide⟩

theorem test_witness_OutCompletionElsewhereRearms :
    TokenReady .ep0Out (atStage 4 .noAction (gotOut 0 tDefault)) ∧ TokenReady .ep0Out (atStage 1 .noAction (gotOut 0 tDefault)) ∧
    TokenReady .ep0Out (atStage 0 .noAction (gotOut 8 tDefault)) ∧ TokenReady .ep0Out (atStage 3 .noAction (gotOut 8 tDefault)) :=
  ⟨tokenOut_of rfl (by decide), tokenOut_of rfl (by decide), tokenOut_of rfl (by decide), tokenOut_of rfl (by decide)⟩

theorem test_witness_Arming :
    ((gotData [0x4F] tConfigured).bd.ep2Out.own = .fw ∧ (gotData [0x4F] tConfigured).bd.ep2Out.en = true) ∧
    tConfigured.bd.ep2Out.own = .hw ∧ tDefault.bd.ep2Out.en = false ∧
    ((tConfigured.bd.get .ep1In).own = .fw ∧ (tConfigured.bd.get .ep1In).en = true) ∧
    ((tDefault.bd.get .ep2In).own = .fw ∧ (tDefault.bd.get .ep2In).en = false) ∧
    (({ tConfigured with bd := { tConfigured.bd with ep2In := tConfigured.bd.ep2Out } } : State).bd.get .ep2In).own = .hw := by
  decide

theorem test_witness_PortRefusalsChangeOnlyTheMark :
    ∃ (i : Instr) (r : CommandRefusal), ∃ op rest data, i = .cmdReserved op rest data ∧ r = .reservedOp :=
  ⟨_, _, 0, 0, [], rfl, rfl⟩

theorem transaction_of {e : Entry} {s : State} (p : s.params = tParams)
    (h : s.sieIfReset = false ∧ s.pendReset = false ∧ (s.bd.get e).en = true ∧ (s.bd.get e).own = .hw ∧
      s.sieFifo.length < s.params.sieFifoDepth) : TransactionReady e s :=
  ⟨by rw [p]; decide, h.1, h.2.1, h.2.2.1, h.2.2.2.1, h.2.2.2.2⟩

/-- SIE_FIFO one short of full, a packet of exactly EP0_MPS bytes, and EP0 stalled. -/
theorem test_witness_SetupTransactionLands :
    let s := { setEp0Stall true tDefault with sieFifo := [0x31, 0x31, 0x31] }
    TransactionReady .ep0Out s ∧ s.setupLock = false ∧ (List.replicate 8 0x00#8).length ≤ s.params.ep0Mps :=
  ⟨transaction_of rfl (by decide), rfl, by decide⟩

theorem test_witness_OutTransactionLands :
    (TransactionReady .ep0Out tDefault ∧ tDefault.bd.ep0Out.stall = false ∧ tDefault.setupLock = false ∧
      (List.replicate 8 0x00#8).length ≤ bufCap tDefault.params .ep0Out) ∧
    (TransactionReady .ep2Out tConfigured ∧ tConfigured.bd.ep2Out.stall = false ∧
      (List.replicate 64 0x00#8).length ≤ bufCap tConfigured.params .ep2Out) ∧
    (2 ≤ tConfigured.devState.toNat ∧ tConfigured.devState.toNat < 6 ∧
      tConfigured.sieIfError = false ∧ tConfigured.pendError = false ∧ tPowerOn.devState.toNat < 2 ∧
      bufCap tConfigured.params (outEntry .ep2) < (List.replicate 65 0x00#8).length) :=
  ⟨⟨transaction_of rfl (by decide), by decide, by decide, by decide⟩,
    ⟨transaction_of rfl (by decide), by decide, by decide⟩, by decide⟩

/-- The entry armed with a packet of n bytes. -/
def armedIn (e : Entry) (n : BitVec 11) (m : Memory) : State :=
  { tConfigured with
    buf := m
    bd := tConfigured.bd.set e { own := .hw, en := true, stall := false, cnt := n } }

theorem test_witness_InTransactionSendsThePacket :
    (let s := armedIn .ep0In 0 []
     TransactionReady (inEntry .ep0) s ∧ (s.bd.get (inEntry .ep0)).stall = false ∧ s.setupLock = false ∧
       ([] : List Byte).length = (s.bd.get (inEntry .ep0)).cnt.toNat ∧ Holds s.buf (adr s.params (inEntry .ep0)) []) ∧
    (let s := armedIn .ep1In 1 [(0x10, 7)]
     TransactionReady (inEntry .ep1) s ∧ (s.bd.get (inEntry .ep1)).stall = false ∧
       [7#8].length = (s.bd.get (inEntry .ep1)).cnt.toNat ∧ Holds s.buf (adr s.params (inEntry .ep1)) [7]) ∧
    (let s := armedIn .ep2In 1 [(0x58, 0x4E)]
     TransactionReady (inEntry .ep2) s ∧ (s.bd.get (inEntry .ep2)).stall = false ∧
       [0x4E#8].length = (s.bd.get (inEntry .ep2)).cnt.toNat ∧ Holds s.buf (adr s.params (inEntry .ep2)) [0x4E]) :=
  ⟨⟨transaction_of rfl (by decide), by decide, by decide, by decide, show ∀ i < 0, _ by decide⟩,
    ⟨transaction_of rfl (by decide), by decide, by decide, show ∀ i < 1, _ by decide⟩,
    transaction_of rfl (by decide), by decide, by decide, show ∀ i < 1, _ by decide⟩

theorem test_witness_AnswersToTokens :
    (tDefault.devState.toNat < 6 ∧ (List.replicate 8 0x00#8).length ≤ tDefault.params.ep0Mps ∧
      ({ tDefault with setupLock := true } : State).setupLock = true) ∧
    ({ tDefault with sieIfReset := true } : State).sieIfReset = true ∧
    (tDefault.isOperational = true ∧ (tDefault.bd.get .ep1In).en = false) ∧
    (let s := setEp0Stall true tDefault
     s.isOperational = true ∧ (s.bd.get .ep0In).en = true ∧ (s.bd.get .ep0In).stall = true) ∧
    (tDefault.isOperational = true ∧ (tDefault.bd.get .ep0In).en = true ∧ (tDefault.bd.get .ep0In).stall = false ∧
      (tDefault.bd.get .ep0In).own = .fw) ∧
    (let s := { tConfigured with sieFifo := List.replicate 4 0x31 }
     (s.bd.get .ep2Out).own = .hw ∧ s.params.sieFifoDepth ≤ s.sieFifo.length) := by decide

theorem test_witness_BusResetAndErrorSetTheirFlags :
    (2 ≤ ({ tPowerOn with devState := 2 } : State).devState.toNat) ∧ tConfigured.devState.toNat < 6 ∧
    tConfigured.resetBusy = false ∧ tConfigured.errorBusy = false ∧
    ({ tConfigured with pendReset := true } : State).pendReset = true ∧
    ({ tConfigured with pendError := true } : State).pendError = true := by decide

/-- 60_exceptions.md R252: a second reset after CAPTURE and before POLL adds nothing; nor does a second error. -/
theorem test_step_repeated_events :
    nextMeets (exec .sieReset { tConfigured with pendReset := true }) (fun t => !t.sieIfReset && t.pendReset) = true ∧
    nextMeets (exec .sieError { tConfigured with pendError := true }) (fun t => !t.sieIfError && t.pendError) = true := by
  decide

theorem test_witness_ReadAvailableResult :
    (admitted tParams = true ∧ tDefault.devState.toNat < 6 ∧ tDefault.devState ≠ 5) ∧
    (let s := gotData [0x4F, 0x53] tConfigured
     s.devState = 5 ∧ s.bd.ep2Out.own = .fw ∧ s.bd.ep2Out.en = true ∧ s.bd.ep2Out.cnt.toNat ≤ bufCap s.params .ep2Out ∧
       [0x4F#8].length = min (1 : Word16).toNat s.bd.ep2Out.cnt.toNat ∧
       ∀ i < 1, s.buf.read (adr s.params .ep2Out + i) = [0x4F#8][i]?) := by decide

theorem test_witness_WriteBytesResult :
    tDefault.devState ≠ 5 ∧ tConfigured.devState = 5 ∧ tConfigured.txPending = false ∧ [0x4E#8] ≠ [] ∧
    ({ tConfigured with txPending := true } : State).txPending = true := by decide

theorem test_witness_ServiceTxResult :
    tConfigured.txPending = false ∧
    (let s := { tConfigured with buf := [(0x98, 0x4E)], txPending := true, txLen := 1 }
     s.devState = 5 ∧ s.txPending = true ∧ s.bd.ep2In.own = .fw ∧ s.bd.ep2In.en = true ∧
       s.txLen.toNat ≤ s.params.ep2Mps ∧ [0x4E#8].length = s.txLen.toNat ∧
       ∀ i < 1, s.buf.read (txBufAdr s.params + i) = [0x4E#8][i]?) := by decide

/-- A packet for each clause of APP_CMD: empty, each command byte, and the byte before 'F'. -/
theorem test_witness_ApplicationStep :
    (admitted tParams = true ∧ tConfigured.devState = 5 ∧ tConfigured.txPending = false ∧ tConfigured.bd.ep2Out.own = .hw) ∧
    (∀ p ∈ [[], [0x4F#8, 0x53], [0x46], [0x53], [0x45]],
      let s := gotData p tConfigured
      s.txPending = false ∧ s.devState = 5 ∧ s.bd.ep2Out.own = .fw ∧ s.bd.ep2Out.en = true ∧
        s.bd.ep2Out.cnt.toNat ≤ bufCap s.params .ep2Out ∧
        p.length = min s.params.appReadMax s.bd.ep2Out.cnt.toNat ∧
        ∀ i < p.length, s.buf.read (adr s.params .ep2Out + i) = p[i]?) := by decide

/-- The invariants hold of S_DEF: the hypothesis of the whole-machine statements is met. -/
theorem test_witness_invariants : Inv tDefault where
  admitted := by decide
  unfaulted := by decide
  stateKnown := by decide
  listed :=
    { ep0Enabled := by decide, dataEnabled := by decide, configuration := by decide, onlyEp0Stalls := by decide
      countFits := by intro e; cases e <;> decide
      ep0OutArmed := by decide
      disabledOwned := by intro e; cases e <;> decide
      addressed := by decide, lockHeld := by decide }
  records :=
    { known := by decide, operational := by decide, heldInReset := by decide, tokqBound := by decide
      fifoBound := by decide, oneEp0Out := by decide, ep0OutOwned := by decide, oneEp0In := by decide
      ep0InOwned := by decide, noInAfterSetup := by decide }
  context :=
    { stageKnown := by decide, applicable := trivial, responseLeft := by decide, outDataLeft := by decide
      outDataIn := by decide }
  buffers :=
    { ep0Out := fun h => absurd h (by decide), ep0In := fun h => absurd h (by decide)
      ep1In := fun h => absurd h (by decide), ep2Out := fun _ _ h => absurd h (Nat.not_lt_zero _)
      ep2In := fun h => absurd h (by decide), staged := fun h => absurd h (by decide) }
  memory := { canonical := List.Pairwise.nil, inside := by decide, staged := by decide }

/-- A change of DEV_STATE for each kind of event of R120. -/
theorem test_witness_DeviceStateTransitions :
    nextMeets (exec .detach tDefault) (fun t => t.devState != tDefault.devState) = true ∧
    nextMeets (exec .tokenEp0In (atStage 3 (.setAddress 5) tDefault)) (fun t => t.devState == 4) = true := by decide

/-- Instructions that do write what the statement says only they write. -/
theorem test_witness_WhoWritesWhat :
    nextMeets (exec .tokenEp0In (atStage 3 (.setAddress 5) tDefault)) (fun t => t.devAddr != tDefault.devAddr) = true ∧
    nextMeets (exec .tokenEp0In (atStage 3 (.setConfig 1) tAddress)) (fun t => t.bd.ep2In.en != tAddress.bd.ep2In.en)
      = true ∧
    nextMeets (exec .tokenEp0In (atStage 3 .setLineCoding tDefault)) (fun t => t.lineCoding != tDefault.lineCoding)
      = true ∧
    nextMeets (exec .appLedOn tConfigured) (fun t => t.led) = true ∧
    nextMeets (exec .poll { atStage 3 (.setAddress 5) tDefault with tokq := [0x30] })
      (fun t => t.devAddr != tDefault.devAddr) = true := by decide

/-- A POLL that takes an EP0IN record and enables the data endpoints. -/
theorem test_witness_OnlyTransitionsEnableEndpoints :
    (let s := { atStage 3 (.setConfig 1) tAddress with tokq := [0x30] }
     nextMeets (exec .poll s) (fun t => t.bd.ep2In.en != s.bd.ep2In.en) = true ∧ s.pendReset = false ∧
       s.pendError = false ∧ s.tokq.head? = some 0x30) := by decide

/-- A marked fault; a drain whose first step marks one; a host step whose drain does. -/
theorem test_witness_PseudoOperationsStopAtAFault :
    ({ tPowerOn with faulted := some .badToken } : State).faulted = some .badToken ∧
    (let s := { tDefault with tokq := [0x7F] }
     drainStep s = some pollStepWord ∧
       nextMeets (runAgentStep pollStepWord s) (fun t => t.faulted == some .badToken) = true ∧
       s.canStep = true ∧ s.setupEnabled (setupBytes 0x0000000000050500) = true ∧
       nextMeets (exec (.sieSetup (setupBytes 0x0000000000050500)) s)
         (fun t => nextMeets (drain 9 t) (fun u => u.faulted == some .badToken)) = true) := by decide

end Sys2Proof.Tests
end

section
/-! SUPPORT, and O1. What `step` does with the head of the agenda (00_scope.md R10, 20_memory.md R72; log 1). -/

namespace Sys2Proof.Machine

/-- With a step waiting, and the machine able to go on, `step` is that agent's step from the rest of the agenda. -/
theorem step_of_agenda {s : State} {a : AgentStep} {rest : List AgentStep} (ha : admitted s.params = true)
    (hf : s.faulted = none) (hag : s.agenda = a :: rest) : step s = runAgentStep a { s with agenda := rest } := by
  simp [step, machineStep, takeAgentStep, hf, ha, hag]

/-- An agent step whose wire form decodes is the instruction it decodes to. -/
theorem runAgentStep_of_decode {a : AgentStep} {w : Wire} {i : Instr} (hw : agentWire a = some w)
    (hd : decode w = .ok i) (s : State) : runAgentStep a s = exec i s := by
  simp [runAgentStep, runWire, hw, hd]

/-- Settles O1: taking the head of the agenda, then decoding its wire form. -/
theorem stepRunsTheDecodedInstruction : Obligations.StepRunsTheDecodedInstruction := by
  intro s a rest w i ha hf hag hw hd
  rw [step_of_agenda ha hf hag, runAgentStep_of_decode hw hd]

end Sys2Proof.Machine
end

section
/-! SUPPORT, and O59. The checks of the startup validation (70_reset_and_hazards.md R276) against their reading by
bytes: `descAt` answers 0 past a descriptor's end where `ByteIs` is false, so the two agree on every byte that is
there and on every value but 0. -/

namespace Sys2Proof.Machine
open Sys2Proof.Claims

/-! ## Bytes of a descriptor -/

theorem byteIs_iff_of_lt {d : List Byte} {i : Nat} (h : i < d.length) (n : Nat) :
    ByteIs d i n ↔ (descAt d i).toNat = n := by
  simp [ByteIs, descAt, h]

theorem byteIs_iff_of_ne_zero (d : List Byte) (i : Nat) {n : Nat} (hn : n ≠ 0) :
    ByteIs d i n ↔ (descAt d i).toNat = n := by
  by_cases h : i < d.length
  · exact byteIs_iff_of_lt h n
  · simp [ByteIs, descAt, h, Ne.symm hn]

theorem descAt_eq_iff_of_lt {d : List Byte} {i : Nat} (h : i < d.length) (b : Byte) :
    descAt d i = b ↔ ByteIs d i b.toNat := by
  rw [byteIs_iff_of_lt h, BitVec.toNat_inj]

theorem descAt_eq_iff (d : List Byte) (i : Nat) {b : Byte} (hb : b ≠ 0) : descAt d i = b ↔ ByteIs d i b.toNat := by
  rw [byteIs_iff_of_ne_zero d i (by simpa [BitVec.toNat_eq] using hb), BitVec.toNat_inj]

theorem halfIs_iff_of_lt {d : List Byte} {i : Nat} (h : i + 1 < d.length) (n : Nat) :
    HalfIs d i n ↔ (descAt d i).toNat + 256 * (descAt d (i + 1)).toNat = n := by
  simp [HalfIs, byteIs_iff_of_lt h, byteIs_iff_of_lt (Nat.lt_of_succ_lt h), eq_comm]

/-- The descriptors of one type, chosen by `descAt` or by the byte itself. -/
theorem filter_descAt (ds : List (List Byte)) {b : Byte} (hb : b ≠ 0) :
    ds.filter (fun d => descAt d 1 == b) = ds.filter (fun d => d[1]? == some b) := by
  refine List.filter_congr fun d _ => ?_
  by_cases h : 1 < d.length
  · simp [descAt, h]
  · simpa [descAt, h] using Ne.symm hb

/-! ## The configuration walk -/

/-- Descriptors each at least 2 bytes long that start with their own length (R276 item 2). -/
def Prefixed (ds : List (List Byte)) : Prop := ∀ d ∈ ds, 2 ≤ d.length ∧ ByteIs d 0 d.length

/-- The walk takes off one descriptor and goes on with what follows it. -/
theorem descWalk_append {d : List Byte} (hlen : 2 ≤ d.length) (hd : ByteIs d 0 d.length) (fuel : Nat)
    (rest : List Byte) : descWalk (fuel + 1) (d ++ rest) = (descWalk fuel rest).map (d :: ·) := by
  obtain _ | ⟨l, bs⟩ := d
  · simp at hlen
  · have hl : l.toNat = (l :: bs).length := by simpa [ByteIs] using hd
    have hnot : ¬(l.toNat < 2 ∨ (l :: (bs ++ rest)).length < l.toNat) := by simp at hl hlen ⊢; omega
    have htake : (l :: (bs ++ rest)).take l.toNat = l :: bs := by rw [hl, ← List.cons_append, List.take_left]
    have hdrop : (l :: (bs ++ rest)).drop l.toNat = rest := by rw [hl, ← List.cons_append, List.drop_left]
    rw [List.cons_append, descWalk, if_neg (by simpa using hnot), htake, hdrop]
    cases descWalk fuel rest <;> rfl

/-- Where the walk gets past its first byte, the bytes start with one descriptor. -/
theorem descWalk_succ_cons {fuel : Nat} {l : Byte} {bs : List Byte} {ds : List (List Byte)}
    (h : descWalk (fuel + 1) (l :: bs) = some ds) :
    ∃ d rest, l :: bs = d ++ rest ∧ 2 ≤ d.length ∧ ByteIs d 0 d.length := by
  rw [descWalk] at h
  split at h
  · cases h
  next hok =>
    obtain ⟨k, hk⟩ : ∃ k, l.toNat = k + 1 := ⟨l.toNat - 1, by simp at hok; omega⟩
    have hle : 1 ≤ k ∧ k ≤ bs.length := by simp [hk] at hok; omega
    exact ⟨l :: bs.take k, bs.drop k, by simp, by simp; omega, by simp [ByteIs, hk, hle.2]⟩

theorem descWalk_sound {fuel : Nat} {bytes : List Byte} {ds : List (List Byte)}
    (h : descWalk fuel bytes = some ds) : ds.flatten = bytes ∧ Prefixed ds := by
  induction fuel generalizing bytes ds with
  | zero =>
    cases bytes with
    | nil => cases h; exact ⟨rfl, List.forall_mem_nil _⟩
    | cons => cases h
  | succ fuel ih =>
    cases bytes with
    | nil => cases h; exact ⟨rfl, List.forall_mem_nil _⟩
    | cons l bs =>
      obtain ⟨d, rest, hsplit, hlen, hd⟩ := descWalk_succ_cons h
      rw [hsplit, descWalk_append hlen hd] at h
      obtain ⟨ds, hrest, rfl⟩ := Option.map_eq_some_iff.mp h
      obtain ⟨hjoin, hds⟩ := ih hrest
      exact ⟨by rw [hsplit, List.flatten_cons, hjoin], List.forall_mem_cons.mpr ⟨⟨hlen, hd⟩, hds⟩⟩

theorem descWalk_complete {fuel : Nat} {ds : List (List Byte)} (h : Prefixed ds) (hf : ds.flatten.length ≤ fuel) :
    descWalk fuel ds.flatten = some ds := by
  induction ds generalizing fuel with
  | nil => simp [descWalk]
  | cons d ds ih =>
    obtain ⟨⟨hlen, hd⟩, hds⟩ := List.forall_mem_cons.mp h
    rw [List.flatten_cons, List.length_append] at hf
    obtain _ | fuel := fuel
    · omega
    · rw [List.flatten_cons, descWalk_append hlen hd, ih hds (by omega), Option.map_some]

/-- What the walk meets is the one way to cut the bytes into descriptors that start with their length. -/
theorem descWalk_eq_some_iff {fuel : Nat} {bytes : List Byte} (hf : bytes.length ≤ fuel) (ds : List (List Byte)) :
    descWalk fuel bytes = some ds ↔ ds.flatten = bytes ∧ Prefixed ds := by
  refine ⟨descWalk_sound, ?_⟩
  rintro ⟨rfl, h⟩
  exact descWalk_complete h hf

/-! ## The checks on what the walk meets (R276 items 3 to 6) -/

theorem configDescOk_iff (p : Params) (ds : List (List Byte)) :
    configDescOk p ds = true ↔ ∃ d more, ds = d :: more ∧ d.length = 9 ∧ ByteIs d 1 0x02 ∧ HalfIs d 2 67 ∧
      ByteIs d 4 2 ∧ ByteIs d 5 p.cfgValue.toNat ∧ ∀ x ∈ more, ¬ByteIs x 1 0x02 := by
  obtain _ | ⟨d, more⟩ := ds
  · simp [configDescOk]
  · have hmore : (∀ x ∈ more, descAt x 1 ≠ 0x02) ↔ ∀ x ∈ more, ¬ByteIs x 1 0x02 :=
      forall₂_congr fun x _ => not_congr (descAt_eq_iff x 1 (by decide))
    simp only [configDescOk, Config.cfgTotalLen, Config.numIf, Bool.and_eq_true, beq_iff_eq, List.all_eq_true,
      bne_iff_ne, hmore, and_assoc, List.cons.injEq, exists_and_left, exists_eq_left']
    refine and_congr_right fun hlen => ?_
    rw [halfIs_iff_of_lt (by omega), byteIs_iff_of_lt (show 4 < d.length by omega),
      descAt_eq_iff d 1 (by decide), descAt_eq_iff_of_lt (show 5 < d.length by omega)]
    rfl

/-- The interface numbers of R276 item 4: every interface has one of the two, and both occur. -/
theorem interfaceNumbers_iff {ifs : List (List Byte)} (hlen : ∀ d ∈ ifs, d.length = 9) (a b : Byte) :
    ((∀ d ∈ ifs, descAt d 2 = a ∨ descAt d 2 = b) ∧ (∃ d ∈ ifs, descAt d 2 = a) ∧ ∃ d ∈ ifs, descAt d 2 = b) ↔
      ∀ n, (∃ d ∈ ifs, ByteIs d 2 n) ↔ n = a.toNat ∨ n = b.toNat := by
  have hbyte : ∀ d ∈ ifs, ∀ n, ByteIs d 2 n ↔ (descAt d 2).toNat = n :=
    fun d hd => byteIs_iff_of_lt (by rw [hlen d hd]; decide)
  constructor
  · rintro ⟨hall, ⟨da, hda, rfl⟩, db, hdb, rfl⟩ n
    constructor
    · rintro ⟨d, hd, hn⟩
      rw [hbyte d hd] at hn
      exact (hall d hd).imp (fun h => by rw [← hn, h]) (fun h => by rw [← hn, h])
    · rintro (rfl | rfl)
      · exact ⟨da, hda, (hbyte da hda _).mpr rfl⟩
      · exact ⟨db, hdb, (hbyte db hdb _).mpr rfl⟩
  · intro h
    have hhas : ∀ {c : Byte}, c.toNat = a.toNat ∨ c.toNat = b.toNat → ∃ d ∈ ifs, descAt d 2 = c := fun hc => by
      obtain ⟨d, hd, hb⟩ := (h _).mpr hc
      exact ⟨d, hd, BitVec.eq_of_toNat_eq ((hbyte d hd _).mp hb)⟩
    refine ⟨fun d hd => ?_, hhas (.inl rfl), hhas (.inr rfl)⟩
    exact ((h _).mp ⟨d, hd, (hbyte d hd _).mpr rfl⟩).imp BitVec.eq_of_toNat_eq BitVec.eq_of_toNat_eq

theorem interfaceDescsOk_iff (p : Params) (ds : List (List Byte)) :
    interfaceDescsOk p ds = true ↔ ∀ ifs, ifs = ds.filter (fun d => d[1]? == some 0x04) →
      ifs.length = 2 ∧ (∀ d ∈ ifs, d.length = 9) ∧
      ∀ n, (∃ d ∈ ifs, ByteIs d 2 n) ↔ n = p.commIf.toNat ∨ n = p.dataIf.toNat := by
  rw [forall_eq, interfaceDescsOk, filter_descAt ds (by decide)]
  generalize ds.filter (fun d => d[1]? == some 0x04) = ifs
  simp only [Config.numIf, Bool.and_eq_true, Bool.or_eq_true, beq_iff_eq, List.all_eq_true, List.any_eq_true,
    forall₂_and, and_assoc]
  exact and_congr_right fun _ => and_congr_right fun hlen => interfaceNumbers_iff hlen _ _

theorem endpointDescIs_iff {d : List Byte} (hlen : d.length = 7) (address : Byte) (attr : BitVec 2) (size : Nat) :
    endpointDescIs d address attr size = true ↔
      ByteIs d 2 address.toNat ∧ (∃ b, ByteIs d 3 b ∧ b % 4 = attr.toNat) ∧ HalfIs d 4 size := by
  have hin : ∀ {i}, i < 7 → i < d.length := fun h => hlen ▸ h
  simp only [endpointDescIs, Bool.and_eq_true, beq_iff_eq, and_assoc]
  rw [descAt_eq_iff_of_lt (hin (by decide)), halfIs_iff_of_lt (hin (by decide))]
  have hattr : (descAt d 3).extractLsb' 0 2 = attr ↔ ∃ b, ByteIs d 3 b ∧ b % 4 = attr.toNat := by
    simp [byteIs_iff_of_lt (hin (show 3 < 7 by decide)), ← BitVec.toNat_inj]
  rw [hattr]

theorem hasEndpoint_iff {eps : List (List Byte)} (hlen : ∀ d ∈ eps, d.length = 7) (address : Byte) (attr : BitVec 2)
    (size : Nat) :
    (∃ d ∈ eps, endpointDescIs d address attr size = true) ↔ HasEndpoint eps address.toNat attr.toNat size :=
  exists_congr fun _ => and_congr_right fun hd => endpointDescIs_iff (hlen _ hd) address attr size

theorem endpointDescsOk_iff (p : Params) (ds : List (List Byte)) :
    endpointDescsOk p ds = true ↔ ∀ eps, eps = ds.filter (fun d => d[1]? == some 0x05) →
      eps.length = 3 ∧ (∀ d ∈ eps, d.length = 7) ∧ HasEndpoint eps 0x81 3 p.ep1Mps ∧
      HasEndpoint eps 0x02 2 p.ep2Mps ∧ HasEndpoint eps 0x82 2 p.ep2Mps := by
  rw [forall_eq, endpointDescsOk, filter_descAt ds (by decide)]
  generalize ds.filter (fun d => d[1]? == some 0x05) = eps
  simp only [Bool.and_eq_true, beq_iff_eq, List.all_eq_true, List.any_eq_true, and_assoc]
  exact and_congr_right fun _ => and_congr_right fun hlen =>
    and_congr (hasEndpoint_iff hlen _ _ _) (and_congr (hasEndpoint_iff hlen _ _ _) (hasEndpoint_iff hlen _ _ _))

theorem otherDescsOk_iff (ds : List (List Byte)) :
    otherDescsOk ds = true ↔ ∀ d ∈ ds, ByteIs d 1 0x02 ∨ ByteIs d 1 0x04 ∨ ByteIs d 1 0x05 ∨ ByteIs d 1 0x24 := by
  simp [otherDescsOk, descAt_eq_iff, or_assoc]

/-- R276 items 2 to 6: the descriptors are those of the walk, and pass the checks. -/
theorem configurationValid_iff {p : Params} (hlen : p.desc.cfg.length = 67) (ds : List (List Byte)) :
    ConfigurationValid p ds ↔ descWalk Config.cfgTotalLen p.desc.cfg = some ds ∧ configDescOk p ds = true ∧
      interfaceDescsOk p ds = true ∧ endpointDescsOk p ds = true ∧ otherDescsOk ds = true := by
  have hfuel : p.desc.cfg.length ≤ Config.cfgTotalLen := le_of_eq hlen
  rw [descWalk_eq_some_iff hfuel, configDescOk_iff, interfaceDescsOk_iff, endpointDescsOk_iff, otherDescsOk_iff]
  constructor
  · rintro ⟨joined, prefixed, configuration, interfaces, endpoints, others⟩
    exact ⟨⟨joined, prefixed⟩, configuration, interfaces, endpoints, others⟩
  · rintro ⟨⟨joined, prefixed⟩, configuration, interfaces, endpoints, others⟩
    exact ⟨joined, prefixed, configuration, interfaces, endpoints, others⟩

/-! ## Strings, the device descriptor and the sizes -/

theorem stringDescOk_iff (d : List Byte) : stringDescOk d = true ↔ StringValid d := by
  simp only [stringDescOk, StringValid, Bool.and_eq_true, beq_iff_eq, decide_eq_true_eq, and_assoc]
  refine and_congr_right fun hlen => ?_
  rw [byteIs_iff_of_ne_zero d 0 (by omega), descAt_eq_iff d 1 (by decide)]
  rfl

theorem deviceDescOk_iff (p : Params) :
    deviceDescOk p = true ↔
      p.desc.dev.length = 18 ∧ ByteIs p.desc.dev 0 18 ∧ ByteIs p.desc.dev 1 0x01 ∧ ByteIs p.desc.dev 7 p.ep0Mps := by
  simp only [deviceDescOk, Config.devDescLen, Bool.and_eq_true, beq_iff_eq, and_assoc]
  refine and_congr_right fun hlen => ?_
  rw [byteIs_iff_of_lt (by omega) p.ep0Mps, descAt_eq_iff _ _ (by decide), descAt_eq_iff _ _ (by decide)]
  rfl

theorem legalMps_iff (n : Nat) : legalMps n = true ↔ n ∈ [8, 16, 32, 64] := by
  simp [legalMps, or_assoc]

theorem byte_ne_zero_iff (b : Byte) : b ≠ 0 ↔ 1 ≤ b.toNat ∧ b.toNat ≤ 255 := by
  bv_omega

theorem perEntry_eq_iff {α : Type} (x : PerEntry α) (a b c d e : α) :
    x = { ep0Out := a, ep0In := b, ep1In := c, ep2Out := d, ep2In := e } ↔
      x.ep0Out = a ∧ x.ep0In = b ∧ x.ep1In = c ∧ x.ep2Out = d ∧ x.ep2In = e := by
  cases x; simp

theorem descOk_iff (p : Params) :
    descOk p = true ↔ deviceDescOk p = true ∧ (p.desc.cfg.length = 67 ∧ ∃ ds, ConfigurationValid p ds) ∧
      StringValid p.desc.str0 ∧ StringValid p.desc.str1 ∧ StringValid p.desc.str2 ∧ 4 ≤ p.desc.str0.length := by
  by_cases hlen : p.desc.cfg.length = 67
  · simp only [descOk, configurationValid_iff hlen]
    cases descWalk Config.cfgTotalLen p.desc.cfg <;>
      simp [hlen, Config.cfgTotalLen, stringDescOk_iff, and_assoc]
  · simp [descOk, hlen, Config.cfgTotalLen]

/-- Settles O59: each check of `admitted` is one of the conditions (a) to (g) of R13. -/
theorem admittedParameters : Obligations.AdmittedParameters := by
  intro p
  simp only [admitted, Bool.and_eq_true, beq_iff_eq, bne_iff_ne, decide_eq_true_eq, and_assoc]
  simp only [legalMps_iff, perEntry_eq_iff, byte_ne_zero_iff, descOk_iff, deviceDescOk_iff]
  constructor
  · rintro ⟨ep0, ep1, ep2, capacities, value, distinct, comm, data, ⟨device, configuration, strings⟩, depths⟩
    exact ⟨ep0, ⟨ep1, ep2⟩, capacities, value, ⟨distinct, comm, data⟩, device, configuration, strings, depths⟩
  · rintro ⟨ep0, ⟨ep1, ep2⟩, capacities, value, ⟨distinct, comm, data⟩, device, configuration, strings, depths⟩
    exact ⟨ep0, ep1, ep2, capacities, value, distinct, comm, data, ⟨device, configuration, strings⟩, depths⟩

end Sys2Proof.Machine
end

section
/-! SUPPORT, and O52, O53. The invariants (10_state.md R45) hold after power-on reset and are kept by every step: each
instruction an agent can take (a command or an SIE step) is answered without a model fault, and the laws of the shared
operations carry the invariants over. -/

namespace Sys2Proof.Machine
open Sys2Proof.Laws.TableRow (format)

/-! ## Power-on reset -/

theorem powerOn_bd_get (p : Params) (e : Entry) : (State.powerOn p).bd.get e = BdStat.zero := by
  cases e <;> rfl

theorem powerOn_listedInvariants (p : Params) : ListedInvariants (State.powerOn p) where
  ep0Enabled := ⟨rfl, rfl⟩
  dataEnabled := ⟨rfl, rfl, rfl⟩
  configuration := rfl
  onlyEp0Stalls := ⟨rfl, rfl, rfl⟩
  countFits e := by rw [powerOn_bd_get]; exact Nat.zero_le _
  ep0OutArmed _ enabled := nomatch enabled
  disabledOwned e _ := by rw [powerOn_bd_get]; rfl
  addressed := ⟨fun nonzero => absurd rfl nonzero, (nomatch ·)⟩
  lockHeld _ := ⟨(nomatch ·), (nomatch ·)⟩

/-- Nothing waits for POLL. -/
theorem powerOn_recordsInOrder (p : Params) : RecordsInOrder (State.powerOn p) where
  known _ waiting := nomatch waiting
  operational waiting := absurd rfl waiting
  heldInReset _ := rfl
  tokqBound := Nat.zero_le _
  fifoBound := Nat.zero_le _
  oneEp0Out := Nat.zero_le _
  ep0OutOwned _ := rfl
  oneEp0In := Nat.zero_le _
  ep0InOwned _ := rfl
  noInAfterSetup := List.Pairwise.nil

/-- No IN entry is armed, and EP0OUT and EP2OUT hold no byte. -/
theorem powerOn_buffersWritten (p : Params) : BuffersWritten (State.powerOn p) where
  ep0Out _ i hi := absurd hi (Nat.not_lt_zero i)
  ep0In armed := nomatch armed
  ep1In armed := nomatch armed
  ep2Out _ i hi := absurd hi (Nat.not_lt_zero i)
  ep2In armed := nomatch armed
  staged pending := nomatch pending

/-- Settles O52: no transfer is in progress, no record waits, BUF is unwritten and every entry is disabled. -/
theorem invariantsHoldAtPowerOn : Obligations.InvariantsHoldAtPowerOn := fun p hp =>
  { admitted := hp
    unfaulted := rfl
    stateKnown := rfl
    listed := powerOn_listedInvariants p
    records := powerOn_recordsInOrder p
    context := .idle rfl
    buffers := powerOn_buffersWritten p
    memory := { canonical := List.Pairwise.nil, inside := fun _ => (nomatch ·), staged := Nat.zero_le _ } }

/-! ## What an agent's step decodes to -/

theorem format_of_decodeCommand {C : Word32} {data : List Byte} {i : Instr} (h : decodeCommand C data = .ok i) :
    format (encode i) = .command := by
  unfold decodeCommand plainCommand dataCommand noEntryCommand entryCommand at h
  repeat' split at h
  all_goals cases h
  all_goals rfl

theorem format_of_decodeSie {kind : BitVec 3} {endp : BitVec 4} {bytes : List Byte} {i : Instr}
    (h : decodeSie kind endp bytes = .ok i) : format (encode i) = .sie := by
  unfold decodeSie bareStep at h
  repeat' split at h
  all_goals cases h
  all_goals rfl

/-- No agent's step is a SETUP packet, a record or an application byte (30_encoding.md R90). -/
theorem format_of_agentWire {a : AgentStep} {w : Wire} {i : Instr} (hw : agentWire a = some w) (hd : decode w = .ok i) :
    format (encode i) = .command ∨ format (encode i) = .sie := by
  cases a with
  | capture => cases hw
  | command C data => cases hw; exact .inl (format_of_decodeCommand hd)
  | sie kind endp bytes => cases hw; exact .inr (format_of_decodeSie hd)

/-! ## Commands and SIE steps meet no fault -/

theorem commit_keepsInv {s : State} {r : Except Fault State} (h : ∃ t, r = .ok t ∧ Inv t) :
    ∃ t, commit s r = .next t ∧ Inv t := by
  obtain ⟨t, rfl, ht⟩ := h
  exact ⟨t, rfl, ht⟩

theorem plainResult_keepsInv {r : Except Fault State} (h : ∃ t, r = .ok t ∧ Inv t) :
    ∃ t, plainResult r = .ok t ∧ Inv t := by
  obtain ⟨t, rfl, ht⟩ := h
  exact ⟨_, rfl, ht.setResult 0 false []⟩

/-- Reading DEV_STATE meets no fault, so neither does an operation whose effect is a function of the state read. -/
theorem Inv.bindDevState {s : State} (h : Inv s) {k : DevState → State}
    (keeps : ∀ t, (readDevState s >>= fun d => .ok (k d)) = .ok t → Inv t) :
    ∃ t, (readDevState s >>= fun d => .ok (k d)) = .ok t ∧ Inv t := by
  obtain ⟨d, hd⟩ := h.knowsState
  have hok : (readDevState s >>= fun d => .ok (k d)) = .ok (k d) := by rw [hd]; rfl
  exact ⟨k d, hok, keeps _ hok⟩

theorem Inv.execArmRx {s : State} (h : Inv s) (e : Entry) : ∃ t, execArmRx e s = .next t ∧ Inv t := by
  cases e with
  | ep2Out => exact ⟨_, rfl, h.armRx.setResult ..⟩
  | _ => exact ⟨_, rfl, h.refuseCommand _⟩

theorem Inv.execArmTx {s : State} (h : Inv s) (e : Entry) (data : List Byte) :
    ∃ t, execArmTx e data s = .next t ∧ Inv t := by
  cases e with
  | ep1In => exact ⟨_, rfl, (h.armTx .ep1In (.inl rfl) data).setResult ..⟩
  | ep2In => exact ⟨_, rfl, (h.armTx .ep2In (.inr rfl) data).setResult ..⟩
  | _ => exact ⟨_, rfl, h.refuseCommand _⟩

theorem Inv.execReadAvailable {s : State} (h : Inv s) (maxLen : Word16) :
    ∃ t, execReadAvailable maxLen s = .next t ∧ Inv t := by
  obtain ⟨t, dest, hr, ht⟩ := h.readAvailable maxLen.toNat
  exact commit_keepsInv ⟨_, by rw [hr]; rfl, ht.setResult dest.length false dest⟩

theorem Inv.execWriteBytes {s : State} (h : Inv s) (data : List Byte) :
    ∃ t, execWriteBytes data s = .next t ∧ Inv t := by
  obtain ⟨t, n, hw, ht⟩ := h.writeBytes data
  exact commit_keepsInv ⟨_, by rw [hw]; rfl, ht.setResult n false []⟩

theorem Inv.exec_command {s : State} (h : Inv s) {i : Instr} (hi : format (encode i) = .command) :
    ∃ t, exec i s = .next t ∧ Inv t := by
  cases i
  case poll => exact commit_keepsInv (plainResult_keepsInv h.pollStep)
  case attach => exact commit_keepsInv (plainResult_keepsInv (h.bindDevState fun _ => h.attachDevice))
  case armRx e => exact h.execArmRx e
  case armTx e data => exact h.execArmTx e data
  case readAvailable maxLen => exact h.execReadAvailable maxLen
  case writeBytes data => exact h.execWriteBytes data
  case serviceTx => exact commit_keepsInv (plainResult_keepsInv h.serviceTx)
  case appCmd => exact commit_keepsInv (plainResult_keepsInv h.appStep)
  case cmdReserved => exact ⟨_, rfl, h.refuseCommand _⟩
  all_goals cases hi

/-- SIE_SETUP with more bytes than EP0_MPS is no step (60_exceptions.md R251; log 8). -/
theorem Inv.exec_sie {s : State} (h : Inv s) {i : Instr} (hi : format (encode i) = .sie) :
    (∃ t, exec i s = .next t ∧ Inv t) ∨ exec i s = .refused .notAStep := by
  cases i
  case sieSetup bytes =>
    simp only [exec, execSieSetup]
    split
    · exact .inl (commit_keepsInv (h.sieSetup bytes))
    · exact .inr rfl
  case sieReset => exact .inl (commit_keepsInv (h.bindDevState fun _ => h.sieReset))
  case sieOut e bytes => exact .inl (commit_keepsInv (h.sieOut e bytes))
  case sieIn e => exact .inl (commit_keepsInv (h.sieIn e))
  case sieError => exact .inl (commit_keepsInv h.sieError_ok)
  case power => exact .inl (commit_keepsInv (h.bindDevState fun _ => h.powerDevice))
  case detach => exact .inl ⟨_, rfl, h.detachDevice⟩
  all_goals cases hi

/-! ## The step -/

/-- A wire form that decodes runs its instruction; one that does not is marked as refused, or is no step. -/
theorem Inv.runAgentStep {s : State} (h : Inv s) (a : AgentStep) :
    (∃ t, runAgentStep a s = .next t ∧ Inv t) ∨ runAgentStep a s = .refused .notAStep := by
  cases hw : agentWire a with
  | none => exact .inl ⟨_, by simp only [Machine.runAgentStep, hw], h.capture⟩
  | some w =>
    cases hd : decode w with
    | ok i =>
      rw [runAgentStep_of_decode hw hd]
      rcases format_of_agentWire hw hd with hi | hi
      · exact .inl (h.exec_command hi)
      · exact h.exec_sie hi
    | error e =>
      simp only [Machine.runAgentStep, runWire, hw, hd]
      split
      · exact .inl ⟨_, rfl, h.refuseCommand _⟩
      · exact .inr rfl

/-- The invariants read neither AGENDA nor SLOT. -/
theorem Inv.takeAgentStep {s : State} (h : Inv s) : Inv (takeAgentStep s).2 := by
  unfold Machine.takeAgentStep
  split <;> exact h.congr ⟨rfl, rfl, rfl, rfl, rfl, rfl, rfl, rfl, rfl, rfl, rfl, rfl, rfl, rfl, rfl⟩

theorem step_of_taken {s t : State} {a : AgentStep} (ha : admitted s.params = true) (hf : s.faulted = none)
    (htake : takeAgentStep s = (some a, t)) : step s = runAgentStep a t := by
  simp [step, machineStep, hf, ha, htake]

theorem step_of_freeSlot {s t : State} (ha : admitted s.params = true) (hf : s.faulted = none)
    (htake : takeAgentStep s = (none, t)) : step s = .next t := by
  simp [step, machineStep, hf, ha, htake]

/-- Settles O53: the agent's step taken from where it waited keeps the invariants, whatever it decodes to. -/
theorem everyStepKeepsTheInvariants : Obligations.EveryStepKeepsTheInvariants := by
  intro s h
  have ht := h.takeAgentStep
  rcases htake : takeAgentStep s with ⟨_ | a, t⟩ <;> rw [htake] at ht
  · exact .inl ⟨t, step_of_freeSlot h.admitted h.unfaulted htake, ht⟩
  · rw [step_of_taken h.admitted h.unfaulted htake]
    exact ht.runAgentStep a

end Sys2Proof.Machine
end

section
/-! SUPPORT, and O56. Who writes DEV_ADDR, LINE_CODING, LED and the parameters (10_state.md R20, R22, 46_application.md
R230): read off `Effect`, in which every operation but three keeps all four. -/

namespace Sys2Proof.Machine
open Sys2Proof.Claims

/-- t has the DEV_ADDR, the LINE_CODING and the parameters of s. -/
structure SettingsKept (s t : State) : Prop where
  devAddr : t.devAddr = s.devAddr
  lineCoding : t.lineCoding = s.lineCoding
  params : t.params = s.params

theorem SettingsKept.refl (s : State) : SettingsKept s s := ⟨rfl, rfl, rfl⟩

theorem SettingsKept.trans {s t u : State} (h : SettingsKept s t) (k : SettingsKept t u) : SettingsKept s u :=
  ⟨k.devAddr.trans h.devAddr, k.lineCoding.trans h.lineCoding, k.params.trans h.params⟩

/-- t has the LED of s besides. -/
structure AllKept (s t : State) : Prop extends SettingsKept s t where
  led : t.led = s.led

theorem AllKept.refl (s : State) : AllKept s s := ⟨.refl s, rfl⟩

theorem AllKept.trans {s t u : State} (h : AllKept s t) (k : AllKept t u) : AllKept s u :=
  ⟨h.toSettingsKept.trans k.toSettingsKept, k.led.trans h.led⟩

/-- What the statement says of one instruction: each change has its cause, and the parameters stay. -/
def WritesAsOwned (s : State) (i : Instr) (t : State) : Prop :=
  (t.devAddr ≠ s.devAddr → i = .detach ∨ (i = .poll ∧ s.pendReset = true) ∨
    (CompletesIn i s ∧ s.ctx.stage = 3 ∧ ∃ a, s.ctx.action = .setAddress a)) ∧
  (t.lineCoding ≠ s.lineCoding → CompletesIn i s ∧ s.ctx.stage = 3 ∧ s.ctx.action = .setLineCoding) ∧
  (t.led ≠ s.led → i = .appCmd ∨ i = .appLedOn ∨ i = .appLedOff) ∧
  t.params = s.params

theorem SettingsKept.writesAsOwned {s t : State} (h : SettingsKept s t) {i : Instr}
    (hi : t.led ≠ s.led → i = .appCmd ∨ i = .appLedOn ∨ i = .appLedOff) : WritesAsOwned s i t :=
  ⟨(absurd h.devAddr ·), (absurd h.lineCoding ·), hi, h.params⟩

theorem AllKept.writesAsOwned {s t : State} (h : AllKept s t) (i : Instr) : WritesAsOwned s i t :=
  h.toSettingsKept.writesAsOwned (absurd h.led ·)

theorem Ep0Frame.allKept {s t : State} (h : Ep0Frame s t) : AllKept s t :=
  ⟨⟨h.devAddr, h.lineCoding, h.params⟩, h.led⟩

/-! ## The operations that keep all four -/

theorem allKept_armRx (e : Entry) (s : State) : AllKept s (armRx e s) := ⟨⟨by simp, by simp, by simp⟩, by simp⟩

theorem allKept_armTx (e : Entry) (data : List Byte) (s : State) : AllKept s (armTx e data s) :=
  ⟨⟨by simp, by simp, by simp⟩, by simp⟩

theorem allKept_readAvailable {n : Nat} {s t : State} {dest : List Byte} (h : readAvailable n s = .ok (t, dest)) :
    AllKept s t := by
  rcases readAvailable_cases h with ⟨rfl, _⟩ | ⟨_, _, rfl, _⟩
  · exact .refl _
  · exact allKept_armRx _ _

theorem allKept_writeBytes {data : List Byte} {s t : State} {n : Nat} (h : writeBytes data s = .ok (t, n)) :
    AllKept s t := by
  rcases writeBytes_cases h with ⟨rfl, _⟩ | ⟨_, _, _, _, rfl⟩
  · exact .refl _
  · exact ⟨⟨rfl, rfl, rfl⟩, rfl⟩

theorem allKept_serviceTx {s t : State} (h : serviceTx s = .ok t) : AllKept s t := by
  rcases serviceTx_cases h with rfl | ⟨data, _, _, _, _, rfl⟩
  · exact .refl _
  · obtain ⟨⟨addr, coding, params⟩, led⟩ := allKept_armTx .ep2In data s
    exact ⟨⟨addr, coding, params⟩, led⟩

theorem allKept_sieError {s t : State} (h : sieError s = .ok t) : AllKept s t := by
  rcases sieError_cases h with rfl | rfl
  · exact .refl _
  · exact ⟨⟨rfl, rfl, rfl⟩, rfl⟩

theorem allKept_sieSetup {bytes : List Byte} {s t : State} (h : sieSetup bytes s = .ok t) : AllKept s t := by
  rcases sieSetup_cases h with ⟨_, _, rfl⟩ | ⟨_, _, rfl⟩ <;> exact ⟨⟨rfl, rfl, rfl⟩, rfl⟩

theorem allKept_sieOut {e : OutEntry} {bytes : List Byte} {s t : State} (h : sieOut e bytes s = .ok t) :
    AllKept s t := by
  rcases sieOut_cases h with (rfl | rfl) | ⟨_, _, rfl⟩ | ⟨_, _, rfl⟩ <;> exact ⟨⟨rfl, rfl, rfl⟩, rfl⟩

theorem allKept_sieIn {e : InEntry} {s t : State} (h : sieIn e s = .ok t) : AllKept s t := by
  rcases sieIn_cases h with ⟨_, _, _, rfl⟩ | ⟨_, _, rfl⟩ <;> exact ⟨⟨rfl, rfl, rfl⟩, rfl⟩

/-! ## The application, which writes LED -/

theorem settingsKept_appByte {b : Byte} {s t : State} (h : appByte b s = .ok t) : SettingsKept s t := by
  rcases appByte_cases h with rfl | ⟨led, r, n, hw⟩
  · exact .refl _
  · obtain ⟨⟨addr, coding, params⟩, _⟩ := allKept_writeBytes hw
    exact ⟨addr, coding, params⟩

theorem settingsKept_appStep {s t : State} (h : appStep s = .ok t) : SettingsKept s t := by
  rcases appStep_cases h with rfl | ⟨u, dest, hu, rfl | ⟨b, hb⟩⟩
  · exact .refl _
  · exact (allKept_readAvailable hu).toSettingsKept
  · exact (allKept_readAvailable hu).toSettingsKept.trans (settingsKept_appByte hb)

/-! ## Records, whose deferred action writes DEV_ADDR or LINE_CODING -/

theorem allKept_configure (s : State) : AllKept s (configure s) := by
  constructor
  · constructor <;> simp [configure, clearTx, enable, disable]
  · simp [configure, clearTx, enable, disable]

/-- A deferred action takes effect in a completed status stage (41_control_transfer.md R152, R158). -/
theorem writesAsOwned_applyAction {i : Instr} {s u : State} (hu : AllKept s u) (hctx : u.ctx = s.ctx)
    (hstage : u.ctx.stage = Stage.code .statusIn) (hi : CompletesIn i s) :
    WritesAsOwned s i (setCtx Ctx.idle (applyAction u.ctx.action u)) := by
  rw [hctx] at hstage ⊢
  cases haction : s.ctx.action with
  | noAction => exact hu.writesAsOwned i
  | setAddress a =>
    exact ⟨fun _ => .inr (.inr ⟨hi, hstage, a, haction⟩), (absurd hu.lineCoding ·), (absurd hu.led ·),
      hu.params⟩
  | setConfig c =>
    simp only [applyAction]
    split
    · exact hu.writesAsOwned i
    · exact (hu.trans (allKept_configure u)).writesAsOwned i
  | setLineCoding =>
    exact ⟨(absurd hu.devAddr ·), fun _ => ⟨hi, hstage, haction⟩, (absurd hu.led ·), hu.params⟩

theorem writesAsOwned_dispatchToken {i : Instr} {r : TokenRecord} {s u t : State} (hu : AllKept s u)
    (hctx : u.ctx = s.ctx) (hi : tokenKind r = some .ep0In → CompletesIn i s)
    (h : dispatchToken r u = .ok t) : WritesAsOwned s i t := by
  rcases dispatchToken_cases h with frame | ⟨hkind, hstage, rfl⟩
  · exact (hu.trans frame.allKept).writesAsOwned i
  · exact writesAsOwned_applyAction hu hctx hstage (hi hkind)

theorem record_of_tokenKind_ep0In {r : TokenRecord} (h : tokenKind r = some .ep0In) : r = 0x30 := by
  revert r; decide

theorem instr_of_tokenKind_record {k : TokenKind} (h : tokenKind k.record = some .ep0In) : k.instr = .tokenEp0In := by
  cases k with
  | ep0In => rfl
  | _ => exact absurd h (by decide)

/-! ## Every instruction -/

theorem Effect.writesAsOwned {s t : State} {i : Instr} (h : Effect s i t) : WritesAsOwned s i t := by
  cases h with
  | setup _ S rule _ _ hstage => exact (ep0Frame_setupStage hstage).allKept.writesAsOwned i
  | pollReset hp => exact ⟨fun _ => .inr (.inl ⟨rfl, hp⟩), (absurd rfl ·), (absurd rfl ·), rfl⟩
  | pollTok r rest u hr he hq hu =>
    have hcompletes : tokenKind r = some .ep0In → CompletesIn .poll s := fun hk =>
      .inr ⟨rfl, hr, he, by rw [hq, record_of_tokenKind_ep0In hk]; rfl⟩
    show WritesAsOwned s .poll u
    exact writesAsOwned_dispatchToken (u := { s with tokq := rest }) ⟨⟨rfl, rfl, rfl⟩, rfl⟩ rfl hcompletes hu
  | token k _ hu => exact writesAsOwned_dispatchToken (.refl s) rfl (fun hk => .inl (instr_of_tokenKind_record hk)) hu
  | detach => exact ⟨fun _ => .inl rfl, (absurd rfl ·), (absurd rfl ·), rfl⟩
  | armRx => exact (allKept_armRx .ep2Out s).writesAsOwned _
  | armTx e data _ => exact (allKept_armTx e data s).writesAsOwned _
  | readAv n u dest hu => exact (allKept_readAvailable hu).writesAsOwned _
  | writeB data u n hu => exact (allKept_writeBytes hu).writesAsOwned _
  | servTx u hu => exact (allKept_serviceTx hu).writesAsOwned _
  | appCmd u hu => exact (settingsKept_appStep hu).writesAsOwned fun _ => .inl rfl
  | appB _ _ b hi hb =>
    refine (settingsKept_appByte hb).writesAsOwned fun hled => ?_
    rcases hi with hi | hi | ⟨_, hkept⟩
    · exact .inr (.inl hi)
    · exact .inr (.inr hi)
    · exact absurd hkept hled
  | sieReset d _ => split <;> exact AllKept.writesAsOwned ⟨⟨rfl, rfl, rfl⟩, rfl⟩ _
  | sieError _ hu => exact (allKept_sieError hu).writesAsOwned _
  | sieSetup b _ _ hu => exact (allKept_sieSetup hu).writesAsOwned _
  | sieOut e b _ hu => exact (allKept_sieOut hu).writesAsOwned _
  | sieIn e _ hu => exact (allKept_sieIn hu).writesAsOwned _
  | fault | refuse | pollErr | pollNone | attach | attachNo | power | powerNo | appNone =>
    refine AllKept.writesAsOwned ?_ _
    exact ⟨⟨rfl, rfl, rfl⟩, rfl⟩

/-- Settles O56: an instruction's effect writes each register only where the register's owner acts. -/
theorem whoWritesWhat : Obligations.WhoWritesWhat := fun _ _ _ h => (exec_effect h).writesAsOwned

end Sys2Proof.Machine
end

section
/-! SUPPORT, and O57. STALL_CAUSE has no effect (10_state.md R41): two runs of an operation whose states differ only
in it answer alike but for it. The rules below follow the shape of an operation: an answer, a read, a test, a
sequence. What writes the field (bus reset, the SETUP stage, a protocol stall) does not even see what it held. -/

namespace Sys2Proof.Machine

/-- s with another STALL_CAUSE. -/
def withCause (c : StallCause) (s : State) : State := { s with stallCause := c }

/-- A state and a value beside it, with another STALL_CAUSE. -/
def withCauseFst {α : Type} (c : StallCause) (p : State × α) : State × α := (withCause c p.1, p.2)

/-- The two answers are the same fault, or the same but for STALL_CAUSE, which `change` replaces. -/
def SameButCause {α : Type} (change : StallCause → α → α) (x x' : Except Fault α) : Prop :=
  ∃ c, x' = change c <$> x

/-! ## Rules by the shape of an operation -/

theorem SameButCause.ok {α : Type} {change : StallCause → α → α} (c : StallCause) (a : α) :
    SameButCause change (.ok a) (.ok (change c a)) :=
  ⟨c, rfl⟩

theorem SameButCause.error {α : Type} {change : StallCause → α → α} (f : Fault) :
    SameButCause change (.error f) (.error f) :=
  ⟨.none, rfl⟩

/-- An answer that does not depend on what STALL_CAUSE held. -/
theorem SameButCause.refl (x : Except Fault State) : SameButCause withCause x x := by
  cases x with
  | ok s => exact .ok s.stallCause s
  | error f => exact .error f

theorem SameButCause.read {α β : Type} {change : StallCause → β → β} (x : Except Fault α)
    {k k' : α → Except Fault β} (h : ∀ a, SameButCause change (k a) (k' a)) :
    SameButCause change (x >>= k) (x >>= k') := by
  cases x with
  | ok a => exact h a
  | error f => exact .error f

theorem SameButCause.ite {α : Type} {change : StallCause → α → α} {p : Prop} [Decidable p]
    {x x' y y' : Except Fault α} (hx : SameButCause change x x') (hy : SameButCause change y y') :
    SameButCause change (if p then x else y) (if p then x' else y') := by
  split
  · exact hx
  · exact hy

theorem SameButCause.okIte {p : Prop} [Decidable p] (c : StallCause) (s t : State) :
    SameButCause withCause (.ok (if p then s else t)) (.ok (if p then withCause c s else withCause c t)) := by
  split
  · exact .ok c s
  · exact .ok c t

theorem SameButCause.bind {α β : Type} {change : StallCause → α → α} {change' : StallCause → β → β}
    {x x' : Except Fault α} {k k' : α → Except Fault β} (hx : SameButCause change x x')
    (h : ∀ a c, SameButCause change' (k a) (k' (change c a))) : SameButCause change' (x >>= k) (x' >>= k') := by
  obtain ⟨c, rfl⟩ := hx
  cases x with
  | ok a => exact h a c
  | error f => exact .error f

/-! ## The Endpoint Buffer Manager -/

theorem armRx_withCause (e : Entry) (c : StallCause) (s : State) :
    armRx e (withCause c s) = withCause c (armRx e s) := by
  unfold armRx
  rw [apply_ite (withCause c)]
  rfl

theorem armTx_withCause (e : Entry) (data : List Byte) (c : StallCause) (s : State) :
    armTx e data (withCause c s) = withCause c (armTx e data s) := by
  unfold armTx
  rw [apply_ite (withCause c)]
  rfl

/-! ## The bulk-transfer sequencer and the application -/

theorem readAvailable_sameButCause (n : Nat) (c : StallCause) (s : State) :
    SameButCause withCauseFst (readAvailable n s) (readAvailable n (withCause c s)) :=
  .read (readDevState s) fun _ => .ite (.ok c (s, [])) <|
    .read (memRead s (.buffer .ep2Out) _) fun dest => by
      rw [armRx_withCause]; exact .ok c (armRx .ep2Out s, dest)

theorem writeBytes_sameButCause (data : List Byte) (c : StallCause) (s : State) :
    SameButCause withCauseFst (writeBytes data s) (writeBytes data (withCause c s)) :=
  .read (readDevState s) fun _ => .ite (.ok c (s, 0)) (.ok c (_, _))

theorem serviceTx_sameButCause (c : StallCause) (s : State) :
    SameButCause withCause (serviceTx s) (serviceTx (withCause c s)) :=
  .read (readDevState s) fun _ => .ite
    (.read (memRead s .txBuf _) fun data => by
      rw [armTx_withCause]; exact .ok c { armTx .ep2In data s with txPending := false })
    (.ok c s)

theorem respond_sameButCause (led : Bool) (r : Byte) (c : StallCause) (s : State) :
    SameButCause withCause (respond led r s) (respond led r (withCause c s)) :=
  (writeBytes_sameButCause [r] c { s with led := led }).bind fun p c' => .ok c' p.1

theorem appByte_sameButCause (b : Byte) (c : StallCause) (s : State) :
    SameButCause withCause (appByte b s) (appByte b (withCause c s)) := by
  unfold appByte
  cases appByteKind b with
  | ledOn => exact respond_sameButCause ..
  | ledOff => exact respond_sameButCause ..
  | ledStatus => exact respond_sameButCause ..
  | unrecognised => exact .ok c s

theorem appStep_sameButCause (c : StallCause) (s : State) :
    SameButCause withCause (appStep s) (appStep (withCause c s)) :=
  .ite (.ok c s) <| (readAvailable_sameButCause s.params.appReadMax c s).bind fun p c' => by
    obtain ⟨t, _ | ⟨b, _⟩⟩ := p
    · exact .ok c' t
    · exact appByte_sameButCause b c' t

/-! ## Control transfers -/

theorem setCtx_withCause (x : Ctx) (c : StallCause) (s : State) :
    setCtx x (withCause c s) = withCause c (setCtx x s) := rfl

theorem armNextIn_sameButCause (c : StallCause) (s : State) :
    SameButCause withCauseFst (armNextIn s) (armNextIn (withCause c s)) :=
  .ite
    (.read (respSlice s.ctx _) fun data => by
      simp only [armTx_withCause]; exact .ok c (_, _))
    (.ite (by simp only [armTx_withCause]; exact .ok c (_, _)) (.ok c (s, false)))

theorem applyAction_withCause (a : Action) (c : StallCause) (s : State) :
    applyAction a (withCause c s) = withCause c (applyAction a s) := by
  cases a with
  | setConfig v => exact (apply_ite (withCause c) (v = 0) (deconfigure s) (configure s)).symm
  | _ => rfl

theorem inCompletion_sameButCause (c : StallCause) (s : State) :
    SameButCause withCause (inCompletion s) (inCompletion (withCause c s)) :=
  .read (readStage s) fun stage => by
    cases stage with
    | dataIn =>
      refine (armNextIn_sameButCause c s).bind fun p c' => ?_
      obtain ⟨t, _ | _⟩ := p <;> exact .ok c' _
    | statusIn => rw [applyAction_withCause]; exact .ok c (setCtx Ctx.idle (applyAction s.ctx.action s))
    | _ => exact .ok c s

/-- A short data packet's protocol stall writes STALL_CAUSE; the other answers keep it. -/
theorem outDataCompletion_sameButCause (c : StallCause) (s : State) :
    SameButCause withCause (outDataCompletion s) (outDataCompletion (withCause c s)) :=
  .read (memRead s (.buffer .ep0Out) _) fun data => .read (storeOutData s.ctx data) fun x =>
    .ite
      (by simp only [setCtx_withCause, armTx_withCause, armRx_withCause]; exact .ok c _)
      (.ite (.refl _) (by simp only [setCtx_withCause, armRx_withCause]; exact .ok c _))

theorem outCompletion_sameButCause (c : StallCause) (s : State) :
    SameButCause withCause (outCompletion s) (outCompletion (withCause c s)) :=
  .read (readStage s) fun stage => by
    cases stage with
    | dataOut => exact outDataCompletion_sameButCause c s
    | dataIn => exact armRx_withCause .ep0Out c (setCtx Ctx.idle (reclaim .ep0In s)) ▸ .ok c _
    | statusOut => exact armRx_withCause .ep0Out c (setCtx Ctx.idle s) ▸ .ok c _
    | _ => exact armRx_withCause .ep0Out c s ▸ .ok c _

/-! ## Records and POLL -/

/-- The SETUP stage starts by clearing STALL_CAUSE (41_control_transfer.md R141). -/
theorem setupStage_withCause (S : SetupWord) (rule : State → Except Fault RequestResult) (c : StallCause)
    (s : State) : setupStage S rule (withCause c s) = setupStage S rule s := rfl

theorem tokenEp0Setup_withCause (c : StallCause) (s : State) : tokenEp0Setup (withCause c s) = tokenEp0Setup s := rfl

theorem dispatchToken_sameButCause (r : TokenRecord) (c : StallCause) (s : State) :
    SameButCause withCause (dispatchToken r s) (dispatchToken r (withCause c s)) := by
  unfold dispatchToken
  cases tokenKind r with
  | none => exact .error .badToken
  | some k =>
    cases k with
    | ep0Setup => rw [tokenEp0Setup_withCause]; exact .refl _
    | ep0Out =>
      exact .read (checkOperational s) fun _ => .read (checkOwned .ep0Out s) fun _ => outCompletion_sameButCause c s
    | ep0In =>
      exact .read (checkOperational s) fun _ => .read (checkOwned .ep0In s) fun _ => inCompletion_sameButCause c s
    | _ => exact .read (checkOperational s) fun _ => .ok c s

/-- Bus reset processing clears STALL_CAUSE (40_device_state.md R125). -/
theorem busReset_withCause (c : StallCause) (s : State) : busReset (withCause c s) = busReset s := rfl

theorem pollStep_sameButCause (c : StallCause) (s : State) :
    SameButCause withCause (pollStep s) (pollStep (withCause c s)) := by
  refine .ite ?_ (.ite (.ok c { s with pendError := false }) ?_)
  · rw [busReset_withCause]; exact .refl _
  · rw [show (withCause c s).tokq = s.tokq from rfl]
    cases s.tokq with
    | nil => exact .ok c s
    | cons r rest => exact dispatchToken_sameButCause r c { s with tokq := rest }

theorem plainResult_sameButCause {r r' : Except Fault State} (h : SameButCause withCause r r') :
    SameButCause withCause (plainResult r) (plainResult r') :=
  h.bind fun t c => .ok c (setResult 0 false [] t)

/-! ## The bus and the SIE -/

theorem attachDevice_sameButCause (c : StallCause) (s : State) :
    SameButCause withCause (attachDevice s) (attachDevice (withCause c s)) :=
  .read (readDevState s) fun _ => .okIte c _ s

theorem powerDevice_sameButCause (c : StallCause) (s : State) :
    SameButCause withCause (powerDevice s) (powerDevice (withCause c s)) :=
  .read (readDevState s) fun _ => .okIte c _ s

theorem sieReset_sameButCause (c : StallCause) (s : State) :
    SameButCause withCause (sieReset s) (sieReset (withCause c s)) :=
  .read (readDevState s) fun _ => .okIte c _ s

theorem sieError_sameButCause (c : StallCause) (s : State) :
    SameButCause withCause (sieError s) (sieError (withCause c s)) :=
  .read (readDevState s) fun _ => .okIte c _ s

theorem sieSetup_sameButCause (bytes : List Byte) (c : StallCause) (s : State) :
    SameButCause withCause (sieSetup bytes s) (sieSetup bytes (withCause c s)) :=
  .ite (.ok c _) (.read (readDevState s) fun d => .ok c { s with answer := some (s.setupAnswer d) })

theorem sieOut_sameButCause (e : OutEntry) (bytes : List Byte) (c : StallCause) (s : State) :
    SameButCause withCause (sieOut e bytes s) (sieOut e bytes (withCause c s)) :=
  .ite (sieError_sameButCause c s) <|
    .ite (.ok c _) (.read (readDevState s) fun d => .ok c { s with answer := some (s.dataAnswer d (outEntry e)) })

theorem sieIn_sameButCause (e : InEntry) (c : StallCause) (s : State) :
    SameButCause withCause (sieIn e s) (sieIn e (withCause c s)) :=
  .ite (.read (memRead s (.buffer (inEntry e)) _) fun _ => .ok c _)
    (.read (readDevState s) fun d => .ok c { s with answer := some (s.dataAnswer d (inEntry e)) })

/-! ## Every instruction -/

/-- A fault is marked whatever STALL_CAUSE holds (60_exceptions.md R250). -/
theorem commit_sameButCause {s t : State} {r r' : Except Fault State} (c : StallCause)
    (hr : SameButCause withCause r r') (h : commit s r = .next t) :
    ∃ c', commit (withCause c s) r' = .next (withCause c' t) := by
  obtain ⟨c', rfl⟩ := hr
  rcases commit_cases h with rfl | ⟨f, rfl, rfl⟩
  · exact ⟨c', rfl⟩
  · exact ⟨c, rfl⟩

theorem execArmRx_withCause (e : Entry) (c : StallCause) {s t : State} (h : execArmRx e s = .next t) :
    execArmRx e (withCause c s) = .next (withCause c t) := by
  cases e with
  | ep2Out => cases h; simp only [execArmRx, portArmRx, armRx_withCause]; rfl
  | _ => cases h; rfl

theorem execArmTx_withCause (e : Entry) (data : List Byte) (c : StallCause) {s t : State}
    (h : execArmTx e data s = .next t) : execArmTx e data (withCause c s) = .next (withCause c t) := by
  cases e with
  | ep1In | ep2In => cases h; simp only [execArmTx, portArmTx, armTx_withCause]; rfl
  | _ => cases h; rfl

theorem execSieSetup_withCause (bytes : List Byte) (c : StallCause) {s t : State} (h : execSieSetup bytes s = .next t) :
    ∃ c', execSieSetup bytes (withCause c s) = .next (withCause c' t) := by
  unfold execSieSetup at h
  split at h
  · rename_i offered
    obtain ⟨c', hc⟩ := commit_sameButCause c (sieSetup_sameButCause bytes c s) h
    exact ⟨c', (if_pos offered).trans hc⟩
  · cases h

/-- A SETUP row is the SETUP stage for its packet, which does not see what STALL_CAUSE held. -/
theorem setupRow_withCause (S : SetupWord) (rule : State → Except Fault RequestResult) (c : StallCause) {s t : State}
    (h : commit s (setupStage S rule s) = .next t) :
    ∃ c', commit (withCause c s) (setupStage S rule (withCause c s)) = .next (withCause c' t) := by
  rw [setupStage_withCause]
  exact commit_sameButCause c (.refl _) h

/-- Each instruction is one operation, or a command's operation with its result. -/
theorem exec_withCause {i : Instr} {s t : State} (c : StallCause) (h : exec i s = .next t) :
    ∃ c', exec i (withCause c s) = .next (withCause c' t) := by
  cases i
  case poll => exact commit_sameButCause c (plainResult_sameButCause (pollStep_sameButCause c s)) h
  case attach => exact commit_sameButCause c (plainResult_sameButCause (attachDevice_sameButCause c s)) h
  case armRx e => exact ⟨c, execArmRx_withCause e c h⟩
  case armTx e data => exact ⟨c, execArmTx_withCause e data c h⟩
  case readAvailable n =>
    exact commit_sameButCause c ((readAvailable_sameButCause n.toNat c s).bind fun p c' => .ok c' _) h
  case writeBytes data =>
    exact commit_sameButCause c ((writeBytes_sameButCause data c s).bind fun p c' => .ok c' _) h
  case serviceTx => exact commit_sameButCause c (plainResult_sameButCause (serviceTx_sameButCause c s)) h
  case appCmd => exact commit_sameButCause c (plainResult_sameButCause (appStep_sameButCause c s)) h
  case cmdReserved => cases h; exact ⟨c, rfl⟩
  case sieReset => exact commit_sameButCause c (sieReset_sameButCause c s) h
  case sieSetup bytes => exact execSieSetup_withCause bytes c h
  case sieOut e bytes => exact commit_sameButCause c (sieOut_sameButCause e bytes c s) h
  case sieIn e => exact commit_sameButCause c (sieIn_sameButCause e c s) h
  case sieError => exact commit_sameButCause c (sieError_sameButCause c s) h
  case power => exact commit_sameButCause c (powerDevice_sameButCause c s) h
  case detach => cases h; exact ⟨.none, rfl⟩
  case tokenEp0Setup => exact commit_sameButCause c (dispatchToken_sameButCause TokenKind.ep0Setup.record c s) h
  case tokenEp0Out => exact commit_sameButCause c (dispatchToken_sameButCause TokenKind.ep0Out.record c s) h
  case tokenEp0In => exact commit_sameButCause c (dispatchToken_sameButCause TokenKind.ep0In.record c s) h
  case tokenEp1In => exact commit_sameButCause c (dispatchToken_sameButCause TokenKind.ep1In.record c s) h
  case tokenEp2Out => exact commit_sameButCause c (dispatchToken_sameButCause TokenKind.ep2Out.record c s) h
  case tokenEp2In => exact commit_sameButCause c (dispatchToken_sameButCause TokenKind.ep2In.record c s) h
  case appLedOn => exact commit_sameButCause c (respond_sameButCause true 0x4E c s) h
  case appLedOff => exact commit_sameButCause c (respond_sameButCause false 0x46 c s) h
  case appLedStatus => exact commit_sameButCause c (respond_sameButCause s.led _ c s) h
  case appUnrecognised => exact commit_sameButCause (s := s) c (.ok c s) h
  case stdUnsupported => exact setupRow_withCause _ (fun _ => stdUnsupportedRule) c h
  case reservedType => exact setupRow_withCause _ (fun _ => reservedTypeRule) c h
  all_goals exact setupRow_withCause _ _ c h

/-- Settles O57: every instruction is built from operations blind to STALL_CAUSE. -/
theorem stallCauseHasNoEffect : Obligations.StallCauseHasNoEffect := fun _ _ _ c h => exec_withCause c h

end Sys2Proof.Machine
end

section
/-! SUPPORT, and O12. The areas of BUF cover it without overlap (20_memory.md R62): the area an address lies in is a
function of the address. The fields of BD[e].CFG (10_state.md R26) are read back from the word they are joined to. -/

namespace Sys2Proof.Machine

/-- Address a lies in area r. -/
def InArea (p : Params) (r : Area) (a : Nat) : Prop := areaBase p r ≤ a ∧ a < areaBase p r + areaSize p r

/-- The area an address of BUF lies in: the first that ends above it. -/
def areaAt (p : Params) (a : Nat) : Area :=
  if a < adr p .ep0In then .buffer .ep0Out
  else if a < adr p .ep1In then .buffer .ep0In
  else if a < adr p .ep2Out then .buffer .ep1In
  else if a < adr p .ep2In then .buffer .ep2Out
  else if a < txBufAdr p then .buffer .ep2In
  else .txBuf

theorem inArea_areaAt {p : Params} {a : Nat} (h : a < bufSize p) : InArea p (areaAt p a) a := by
  unfold areaAt
  split_ifs <;> simp only [InArea, areaBase, areaSize, bufSize, txBufAdr, adr, bufCap, PerEntry.get] at * <;> omega

theorem areaAt_of_inArea {p : Params} {r : Area} {a : Nat} (h : InArea p r a) : areaAt p a = r := by
  rcases r with (_ | _ | _ | _ | _) | _ <;>
    simp only [InArea, areaAt, areaBase, areaSize, txBufAdr, adr, bufCap, PerEntry.get] at h ⊢ <;> grind

theorem inArea_unique {p : Params} {r r' : Area} {a : Nat} (h : InArea p r a) (h' : InArea p r' a) : r = r' :=
  (areaAt_of_inArea h).symm.trans (areaAt_of_inArea h')

theorem InArea.lt_bufSize {p : Params} (sizes : Sizes p) {r : Area} {a : Nat} (h : InArea p r a) : a < bufSize p :=
  lt_of_lt_of_le h.2 (sizes.area_inside r)

theorem bdAdr_toNat {p : Params} (h : Sizes p) (e : Entry) : (bdAdr p e).toNat = adr p e := by
  have hfits : adr p e ≤ 4 * 64 := by
    have h0 := (h.bufCap_le .ep0Out).2
    have h1 := (h.bufCap_le .ep0In).2
    have h2 := (h.bufCap_le .ep1In).2
    have h3 := (h.bufCap_le .ep2Out).2
    simp only [bufCap, PerEntry.get] at h0 h1 h2 h3
    cases e <;> simp only [adr] <;> omega
  exact toNat_ofNat_le hfits (by decide)

/-! ## The fields of BD[e].CFG -/

theorem bdCfg_epnum (p : Params) (e : Entry) : (bdCfg p e).extractLsb' 0 4 = epnum e := by
  unfold bdCfg; ext i hi; simp; grind

theorem bdCfg_dir (p : Params) (e : Entry) : (bdCfg p e).extractLsb' 4 1 = entryDir e := by
  unfold bdCfg; ext i hi; simp; grind

theorem bdCfg_type (p : Params) (e : Entry) : (bdCfg p e).extractLsb' 5 2 = entryType e := by
  unfold bdCfg; ext i hi; simp; grind

theorem bdCfg_mps (p : Params) (e : Entry) : (bdCfg p e).extractLsb' 8 11 = BitVec.ofNat 11 (mps p e) := by
  unfold bdCfg; ext i hi; simp; grind

theorem bdCfg_bit7 (p : Params) (e : Entry) : (bdCfg p e).extractLsb' 7 1 = 0#1 := by
  unfold bdCfg; ext i hi; simp; grind

theorem bdCfg_top (p : Params) (e : Entry) : (bdCfg p e).extractLsb' 19 13 = 0#13 := by
  unfold bdCfg; ext i hi; simp; grind

theorem mps_toNat {p : Params} (h : Sizes p) (e : Entry) : (BitVec.ofNat 11 (mps p e)).toNat = mps p e :=
  h.cnt_toNat e (h.bufCap_eq e).ge

/-- Settles O12: each address has its one area, and the words are read field by field. -/
theorem bufferAreasTileTheBufferRam : Obligations.BufferAreasTileTheBufferRam := by
  refine ⟨fun p hp => ?_, rfl, rfl, rfl, rfl, rfl, rfl, rfl⟩
  have sizes := admitted_sizes hp
  refine ⟨fun a => ⟨fun h => ⟨areaAt p a, inArea_areaAt h⟩, fun ⟨_, h⟩ => InArea.lt_bufSize sizes h⟩,
    fun r r' a => inArea_unique, bdAdr_toNat sizes, rfl, (Nat.zero_add _).symm, rfl, rfl, rfl, rfl, rfl, ?_⟩
  rintro e _ rfl
  rw [bdCfg_epnum, bdCfg_dir, bdCfg_type, bdCfg_mps, mps_toNat sizes, bdCfg_bit7, bdCfg_top]
  cases e <;> exact ⟨rfl, rfl, rfl, rfl⟩

end Sys2Proof.Machine
end

section
/-! SUPPORT, and O13. Who writes BUF (20_memory.md R71): read off `Effect`, in which every operation writes at most one
area, and that only with the ownership its own test asks for. -/

namespace Sys2Proof.Machine

/-- BUF stays from s to t, or owned holds and bytes are written from the base of area r on, no more than it takes. -/
def Writes (r : Area) (owned : Prop) (s t : State) : Prop :=
  t.buf = s.buf ∨
  (owned ∧ ∃ bytes, bytes.length ≤ areaSize s.params r ∧ t.buf = s.buf.writeBytes (areaBase s.params r) bytes)

theorem Writes.kept {s t : State} (h : t.buf = s.buf) (r : Area) (owned : Prop) : Writes r owned s t := .inl h

theorem Writes.imp {r : Area} {owned owned' : Prop} {s t : State} (h : Writes r owned s t) (ho : owned → owned') :
    Writes r owned' s t :=
  h.imp_right fun ⟨o, hw⟩ => ⟨ho o, hw⟩

theorem Writes.congr {r : Area} {owned : Prop} {s u t : State} (h : Writes r owned u t) (hbuf : u.buf = s.buf)
    (hparams : u.params = s.params) : Writes r owned s t := by
  unfold Writes at h ⊢
  rwa [← hbuf, ← hparams]

/-- A byte that changed is one of the area, and the writer owned it. -/
theorem Writes.changed {r : Area} {owned : Prop} {s t : State} (h : Writes r owned s t) {a : Nat}
    (ha : t.buf.read a ≠ s.buf.read a) : owned ∧ InArea s.params r a := by
  rcases h with h | ⟨howned, bytes, hlen, h⟩
  · exact absurd (by rw [h]) ha
  · refine ⟨howned, ?_⟩
    by_contra hout
    refine ha ?_
    rw [h]
    refine Memory.read_writeBytes_outside _ _ fun hin => hout ⟨hin.1, ?_⟩
    omega

/-- A sequence that answers has answered at both its steps. -/
theorem ok_of_bind {α β : Type} {x : Except Fault α} {f : α → Except Fault β} {b : β} (h : x >>= f = .ok b) :
    ∃ a, x = .ok a ∧ f a = .ok b := by
  cases x with
  | ok a => exact ⟨a, rfl, h⟩
  | error _ => cases h

/-! ## The Endpoint Buffer Manager and the bulk-transfer sequencer -/

theorem writes_memWrite (s : State) (r : Area) {bytes : List Byte} (hlen : bytes.length ≤ areaSize s.params r) :
    Writes r True s (memWrite s r bytes) :=
  .inr ⟨trivial, bytes, hlen, rfl⟩

theorem writes_armTx (e : Entry) (data : List Byte) (s : State) :
    Writes (.buffer e) ((s.bd.get e).own = .fw) s (armTx e data s) := by
  have hbuf := armTx_buf e data s
  split at hbuf
  · rename_i hready
    exact .inr ⟨((txReady_iff e s).mp hready).1, data.take (bufCap s.params e), List.length_take_le _ _, hbuf⟩
  · exact .kept hbuf _ _

theorem armTx_nil_buf (e : Entry) (s : State) : (armTx e [] s).buf = s.buf := by
  rw [armTx_buf, List.take_nil]
  exact ite_self _

theorem readAvailable_buf {n : Nat} {s t : State} {dest : List Byte} (h : readAvailable n s = .ok (t, dest)) :
    t.buf = s.buf := by
  rcases readAvailable_cases h with ⟨rfl, _⟩ | ⟨_, _, rfl, _⟩
  · rfl
  · simp

theorem writes_writeBytes {data : List Byte} {s t : State} {n : Nat} (h : writeBytes data s = .ok (t, n)) :
    Writes .txBuf True s t := by
  rcases writeBytes_cases h with ⟨rfl, _⟩ | ⟨_, _, _, rfl, rfl⟩
  · exact .kept rfl _ _
  · have hlen : (data.take (min data.length s.params.ep2Mps)).length ≤ areaSize s.params .txBuf :=
      (List.length_take_le _ _).trans (min_le_right _ _)
    exact writes_memWrite s .txBuf hlen

theorem writes_serviceTx {s t : State} (h : serviceTx s = .ok t) :
    Writes (.buffer .ep2In) (s.bd.ep2In.own = .fw) s t := by
  rcases serviceTx_cases h with rfl | ⟨data, _, _, _, _, rfl⟩
  · exact .kept rfl _ _
  · exact writes_armTx .ep2In data s

theorem writes_appByte {b : Byte} {s t : State} (h : appByte b s = .ok t) : Writes .txBuf True s t := by
  rcases appByte_cases h with rfl | ⟨led, r, n, hw⟩
  · exact .kept rfl _ _
  · exact (writes_writeBytes hw).congr rfl rfl

theorem writes_appStep {s t : State} (h : appStep s = .ok t) : Writes .txBuf True s t := by
  rcases appStep_cases h with rfl | ⟨u, dest, hu, rfl | ⟨b, hb⟩⟩
  · exact .kept rfl _ _
  · exact .kept (readAvailable_buf hu) _ _
  · exact (writes_appByte hb).congr (readAvailable_buf hu) (allKept_readAvailable hu).params

/-! ## The SIE's transactions -/

theorem writes_sieSetup {bytes : List Byte} {s t : State} (sizes : Sizes s.params) (h : sieSetup bytes s = .ok t) :
    Writes (.buffer .ep0Out) (s.bd.ep0Out.own = .hw) s t := by
  rcases sieSetup_cases h with ⟨hlen, henabled, rfl⟩ | ⟨_, _, rfl⟩
  · simp only [State.setupEnabled, Bool.and_eq_true, beq_iff_eq] at henabled
    obtain ⟨⟨⟨⟨_, hown⟩, _⟩, _⟩, _⟩ := henabled
    exact (writes_memWrite s (.buffer .ep0Out) (hlen.trans (sizes.bufCap_eq .ep0Out).ge)).imp fun _ => hown
  · exact .kept rfl _ _

theorem writes_sieOut {e : OutEntry} {bytes : List Byte} {s t : State} (h : sieOut e bytes s = .ok t) :
    Writes (.buffer (outEntry e)) ((s.bd.get (outEntry e)).own = .hw) s t := by
  rcases sieOut_cases h with (rfl | rfl) | ⟨hlen, henabled, rfl⟩ | ⟨_, _, rfl⟩
  · exact .kept rfl _ _
  · exact .kept rfl _ _
  · obtain ⟨_, _, hown, _⟩ := dataEnabled_cases (Bool.and_eq_true_iff.mp henabled).1
    exact (writes_memWrite s (.buffer (outEntry e)) hlen).imp fun _ => hown
  · exact .kept rfl _ _

theorem sieIn_buf {e : InEntry} {s t : State} (h : sieIn e s = .ok t) : t.buf = s.buf := by
  rcases sieIn_cases h with ⟨_, _, _, rfl⟩ | ⟨_, _, rfl⟩ <;> rfl

/-! ## The Control Transfer Handler, which arms one packet on EP0IN at most -/

theorem protocolStall_buf (c : StallCause) (s : State) : (protocolStall c s).buf = s.buf := by simp [protocolStall]

theorem applyNoData_buf (a : Action) (s : State) : (applyNoData a s).buf = s.buf := armTx_nil_buf _ _

theorem applyAction_buf (a : Action) (s : State) : (applyAction a s).buf = s.buf := by
  cases a with
  | setConfig c =>
    simp only [applyAction]
    split
    · rfl
    · simp [configure, enable, disable]
  | _ => rfl

theorem writes_armNextIn {s t : State} {armed : Bool} (h : armNextIn s = .ok (t, armed)) :
    Writes (.buffer .ep0In) (s.bd.ep0In.own = .fw) s t := by
  unfold armNextIn at h
  split at h
  · obtain ⟨data, _, h⟩ := ok_of_bind h
    cases h
    exact writes_armTx .ep0In data s
  · split at h
    · cases h; exact writes_armTx .ep0In [] s
    · cases h; exact .kept rfl _ _

theorem writes_applyResult {r : RequestResult} {s t : State} (h : applyResult r s = .ok t) :
    Writes (.buffer .ep0In) (s.bd.ep0In.own = .fw) s t := by
  cases r with
  | stall c => cases h; exact .kept (protocolStall_buf c s) _ _
  | noData a => cases h; exact .kept (applyNoData_buf a s) _ _
  | dataOut n a => cases h; exact .kept rfl _ _
  | dataIn bytes =>
    simp only [applyResult, applyDataIn] at h
    split at h
    · cases h; exact .kept (applyNoData_buf .noAction s) _ _
    · obtain ⟨⟨u, armed⟩, harm, h⟩ := ok_of_bind h
      cases h
      exact (writes_armNextIn harm).congr rfl rfl

theorem endSetup_buf (s : State) : (endSetup s).buf = s.buf := by simp [endSetup]

/-- The abort takes EP0IN back first, so the first packet is written whoever owned the entry (41_control_transfer.md
R141). -/
theorem writes_setupStage {S : SetupWord} {rule : State → Except Fault RequestResult} {s t : State}
    (h : setupStage S rule s = .ok t) : Writes (.buffer .ep0In) True s t := by
  obtain ⟨r, _, h⟩ := ok_of_bind h
  obtain ⟨u, happly, h⟩ := ok_of_bind h
  cases h
  have hw := ((writes_applyResult happly).congr (s := s) rfl rfl).imp fun _ => trivial
  unfold Writes at hw ⊢
  rwa [endSetup_buf]

theorem malformedSetup_buf (s : State) : (malformedSetup s).buf = s.buf := by
  rw [malformedSetup, endSetup_buf, protocolStall_buf]
  rfl

theorem writes_tokenEp0Setup {s t : State} (h : tokenEp0Setup s = .ok t) : Writes (.buffer .ep0In) True s t := by
  obtain ⟨_, _, h⟩ := ok_of_bind h
  obtain ⟨_, _, h⟩ := ok_of_bind h
  split at h
  · cases h; exact .kept (malformedSetup_buf s) _ _
  · obtain ⟨bytes, _, h⟩ := ok_of_bind h
    exact writes_setupStage h

theorem outDataCompletion_buf {s t : State} (h : outDataCompletion s = .ok t) : t.buf = s.buf := by
  obtain ⟨data, _, h⟩ := ok_of_bind h
  obtain ⟨c, _, h⟩ := ok_of_bind h
  split at h
  · cases h; rw [armRx_buf, armTx_nil_buf, setCtx_buf]
  · split at h
    · cases h; rw [protocolStall_buf, setCtx_buf]
    · cases h; rw [armRx_buf, setCtx_buf]

theorem outCompletion_buf {s t : State} (h : outCompletion s = .ok t) : t.buf = s.buf := by
  obtain ⟨g, _, h⟩ := ok_of_bind h
  cases g with
  | dataOut => exact outDataCompletion_buf h
  | _ => cases h; simp

theorem writes_inCompletion {s t : State} (h : inCompletion s = .ok t) :
    Writes (.buffer .ep0In) (s.bd.ep0In.own = .fw) s t := by
  obtain ⟨g, _, h⟩ := ok_of_bind h
  cases g with
  | dataIn =>
    obtain ⟨⟨u, armed⟩, harm, h⟩ := ok_of_bind h
    cases h
    have hw := writes_armNextIn harm
    split <;> exact hw
  | statusIn => cases h; exact .kept (applyAction_buf _ s) _ _
  | _ => cases h; exact .kept rfl _ _

/-- What the processing of a record writes (40_device_state.md R128): EP0IN's buffer, if the block owns it or if the
record is the SETUP record. -/
theorem writes_dispatchToken {r : TokenRecord} {s t : State} (h : dispatchToken r s = .ok t) :
    Writes (.buffer .ep0In) (s.bd.ep0In.own = .fw ∨ tokenKind r = some .ep0Setup) s t := by
  simp only [dispatchToken] at h
  split at h
  · cases h
  · rename_i hkind
    exact (writes_tokenEp0Setup h).imp fun _ => .inr hkind
  · obtain ⟨_, _, h⟩ := ok_of_bind h
    obtain ⟨_, _, h⟩ := ok_of_bind h
    exact .kept (outCompletion_buf h) _ _
  · obtain ⟨_, _, h⟩ := ok_of_bind h
    obtain ⟨_, _, h⟩ := ok_of_bind h
    exact (writes_inCompletion h).imp .inl
  all_goals
    obtain ⟨_, _, h⟩ := ok_of_bind h
    cases h
    exact .kept rfl _ _

theorem record_of_tokenKind_ep0Setup {r : TokenRecord} (h : tokenKind r = some .ep0Setup) : r = 0x40 := by
  revert r; decide

theorem tokenKind_record (k : TokenKind) : tokenKind k.record = some k := by cases k <;> decide

/-! ## Every instruction -/

/-- i processes a SETUP in s. -/
def ProcessesSetup (i : Instr) (s : State) : Prop :=
  i = .tokenEp0Setup ∨ (∃ S, encode i = .setup S) ∨
    (i = .poll ∧ s.pendReset = false ∧ s.pendError = false ∧ s.tokq.head? = some 0x40)

/-- i may write area r in s: TX_BUF always, an OUT entry's buffer for the SIE and an IN entry's for the block, whichever
owns it; EP0IN's buffer besides in SETUP processing (20_memory.md R71, 41_control_transfer.md R141). -/
def MayWrite (i : Instr) (s : State) : Area → Prop
  | .buffer e => (s.bd.get e).own = (if e = .ep0Out ∨ e = .ep2Out then Owner.hw else Owner.fw) ∨
      (e = .ep0In ∧ ProcessesSetup i s)
  | .txBuf => True

theorem Effect.writes {s t : State} {i : Instr} (sizes : Sizes s.params) (h : Effect s i t) :
    ∃ r, Writes r (MayWrite i s r) s t := by
  cases h with
  | setup _ S rule _ hi hstage =>
    exact ⟨_, (writes_setupStage hstage).imp fun _ => .inr ⟨rfl, .inr (.inl ⟨S, hi⟩)⟩⟩
  | pollTok r rest u hr he hq hu =>
    refine ⟨_, ((writes_dispatchToken hu).congr rfl rfl).imp fun howned => howned.imp_right fun hkind => ?_⟩
    exact ⟨rfl, .inr (.inr ⟨rfl, hr, he, by rw [hq, record_of_tokenKind_ep0Setup hkind]; rfl⟩)⟩
  | token k _ hu =>
    refine ⟨_, (writes_dispatchToken hu).imp fun howned => howned.imp_right fun hkind => ?_⟩
    rw [tokenKind_record] at hkind
    cases hkind
    exact ⟨rfl, .inl rfl⟩
  | armTx e data he =>
    exact ⟨_, (writes_armTx e data s).imp fun hown => .inl (by rcases he with rfl | rfl <;> exact hown)⟩
  | writeB data u n hu => exact ⟨.txBuf, (writes_writeBytes hu :)⟩
  | servTx u hu => exact ⟨_, (writes_serviceTx hu).imp .inl⟩
  | appCmd u hu => exact ⟨.txBuf, (writes_appStep hu :)⟩
  | appB _ _ b _ hb => exact ⟨.txBuf, writes_appByte hb⟩
  | sieSetup b _ _ hu => exact ⟨_, (writes_sieSetup sizes hu).imp .inl⟩
  | sieOut e b _ hu => exact ⟨_, (writes_sieOut hu).imp fun hown => .inl (by cases e <;> exact hown)⟩
  | armRx => exact ⟨.txBuf, .kept (armRx_buf .ep2Out s) _ _⟩
  | readAv n u dest hu => exact ⟨.txBuf, .kept (readAvailable_buf hu) _ _⟩
  | sieIn e _ hu => exact ⟨.txBuf, .kept (sieIn_buf hu) _ _⟩
  | sieError _ hu => exact ⟨.txBuf, .kept (by rcases sieError_cases hu with rfl | rfl <;> rfl) _ _⟩
  | sieReset d _ => exact ⟨.txBuf, .kept (by split <;> rfl) _ _⟩
  | fault | refuse | pollReset | pollErr | pollNone | attach | attachNo | power | powerNo | detach | appNone =>
    exact ⟨.txBuf, .kept rfl _ _⟩

/-- Settles O13: a changed byte lies in the one area its instruction writes, and the entry whose buffer holds the byte
is that area's. -/
theorem ownershipGuardsBufferWrites : Obligations.OwnershipGuardsBufferWrites := by
  intro i s t a ha hexec hchanged
  have sizes := admitted_sizes ha
  obtain ⟨r, hwrites⟩ := (exec_effect hexec).writes sizes
  obtain ⟨hmay, hin⟩ := hwrites.changed hchanged
  refine ⟨fun e hbase hend => ?_, hin.lt_bufSize sizes⟩
  have hr : r = .buffer e := inArea_unique hin ⟨hbase, hend⟩
  subst hr
  exact hmay

end Sys2Proof.Machine
end

section
/-! SUPPORT, and O8. The request-key table (30_encoding.md R93): what its first matching row is, and that row read off
the fields of a key instead of off the table's masks. -/

namespace Sys2Proof

/-! ## The first matching row -/

theorem firstRow_cons_of_match {r : KeyRow} {rows : List KeyRow} {K : BitVec 16} (h : K &&& r.mask = r.matchKey) :
    firstRow (r :: rows) K = some r.kind := if_pos h

theorem firstRow_cons_of_noMatch {r : KeyRow} {rows : List KeyRow} {K : BitVec 16} (h : K &&& r.mask ≠ r.matchKey) :
    firstRow (r :: rows) K = firstRow rows K := if_neg h

/-- Where some row matches, there is a first one, and it is the one taken. -/
theorem firstRow_eq_first {K : BitVec 16} {rows : List KeyRow} (h : ∃ r ∈ rows, K &&& r.mask = r.matchKey) :
    ∃ before r after, rows = before ++ r :: after ∧ K &&& r.mask = r.matchKey ∧
      (∀ q ∈ before, K &&& q.mask ≠ q.matchKey) ∧ firstRow rows K = some r.kind := by
  induction rows with
  | nil => simp at h
  | cons r rows ih =>
    by_cases hr : K &&& r.mask = r.matchKey
    · exact ⟨[], r, rows, rfl, hr, by simp, firstRow_cons_of_match hr⟩
    · have hlater : ∃ q ∈ rows, K &&& q.mask = q.matchKey := by simpa [hr] using h
      obtain ⟨before, q, after, rfl, hq, hbefore, hkind⟩ := ih hlater
      refine ⟨r :: before, q, after, rfl, hq, ?_, (firstRow_cons_of_noMatch hr).trans hkind⟩
      simpa [hr] using hbefore

/-- TYPE has four values. -/
theorem type_cases (type : BitVec 2) : type = 0 ∨ type = 1 ∨ type = 2 ∨ type = 3 := by revert type; decide

/-- A key under the TYPE mask is its TYPE field. -/
theorem key_and_typeMask (K : BitVec 16) : K &&& (0x0060 : BitVec 16) = (K.extractLsb' 5 2).setWidth 16 <<< 5 := by
  ext i hi
  interval_cases i <;> simp

/-- Rows 8, 12, 13 and 14 cover every TYPE value (30_encoding.md R93). -/
theorem exists_row (K : BitVec 16) : ∃ r ∈ requestTable, K &&& r.mask = r.matchKey := by
  have hcatchAll (type : BitVec 2) :
      ∃ r ∈ requestTable, r.mask = (0x0060 : BitVec 16) ∧ type.setWidth 16 <<< 5 = r.matchKey := by
    revert type; decide
  obtain ⟨r, hr, hmask, hmatch⟩ := hcatchAll (K.extractLsb' 5 2)
  exact ⟨r, hr, by rw [hmask, key_and_typeMask, hmatch]⟩

/-- Settles O8: the table has a matching row for every key, so it has a first one. -/
theorem everyRequestKeyTakesItsFirstRow : Obligations.EveryRequestKeyTakesItsFirstRow := by
  refine ⟨rfl, fun K => ?_⟩
  obtain ⟨before, r, after, htable, hr, hbefore, hkind⟩ := firstRow_eq_first (exists_row K)
  exact ⟨before, after, r, htable, hr, hbefore, by rw [requestKind, hkind]; rfl⟩

/-! ## The row of a key, by its fields -/

/-- The row of the key with these fields (30_encoding.md R92, R93). -/
def kindOfFields (dir : BitVec 1) (type : BitVec 2) (recip : BitVec 5) (req : Byte) : RequestKind :=
  if type = 0 then
    if dir = 1 ∧ req = 0x00 then .getStatus
    else if dir = 0 ∧ recip = 0 ∧ req = 0x05 then .setAddress
    else if dir = 1 ∧ recip = 0 ∧ req = 0x06 then .getDescriptor
    else if dir = 1 ∧ recip = 0 ∧ req = 0x08 then .getConfiguration
    else if dir = 0 ∧ recip = 0 ∧ req = 0x09 then .setConfiguration
    else if dir = 1 ∧ recip = 1 ∧ req = 0x0A then .getInterface
    else if dir = 0 ∧ recip = 1 ∧ req = 0x0B then .setInterface
    else .stdUnsupported
  else if type = 1 then
    if dir = 0 ∧ recip = 1 ∧ req = 0x20 then .setLineCoding
    else if dir = 1 ∧ recip = 1 ∧ req = 0x21 then .getLineCoding
    else if dir = 0 ∧ recip = 1 ∧ req = 0x22 then .setControlLineState
    else .classOther
  else if type = 2 then .vendor
  else .reservedType

/-- The key with these fields (30_encoding.md R91, R92). -/
def fieldKey (dir : BitVec 1) (type : BitVec 2) (recip : BitVec 5) (req : Byte) : BitVec 16 :=
  req ++ requestType dir type recip

section
variable (dir : BitVec 1) (type : BitVec 2) (recip : BitVec 5) (req : Byte)

theorem fieldKey_dir : (fieldKey dir type recip req).extractLsb' 7 1 = dir := by
  unfold fieldKey requestType; ext i hi; simp; grind

theorem fieldKey_type : (fieldKey dir type recip req).extractLsb' 5 2 = type := by
  unfold fieldKey requestType; ext i hi; simp; grind

theorem fieldKey_recip : (fieldKey dir type recip req).extractLsb' 0 5 = recip := by
  unfold fieldKey requestType; ext i hi; simp; grind

theorem fieldKey_req : (fieldKey dir type recip req).extractLsb' 8 8 = req := by
  unfold fieldKey; ext i hi; simp; grind

/-- Keys are equal when their fields are. -/
theorem fieldKey_inj (d : BitVec 1) (t : BitVec 2) (r : BitVec 5) (q : Byte) :
    fieldKey dir type recip req = fieldKey d t r q ↔ type = t ∧ dir = d ∧ recip = r ∧ req = q := by
  constructor
  · intro h
    refine ⟨?_, ?_, ?_, ?_⟩
    · rw [← fieldKey_type dir type recip req, h, fieldKey_type]
    · rw [← fieldKey_dir dir type recip req, h, fieldKey_dir]
    · rw [← fieldKey_recip dir type recip req, h, fieldKey_recip]
    · rw [← fieldKey_req dir type recip req, h, fieldKey_req]
  · rintro ⟨rfl, rfl, rfl, rfl⟩
    rfl

variable {dir type recip req}

/-- A row that looks at the whole key matches the one key it gives. -/
theorem fullMask_matches (m : BitVec 16) (d : BitVec 1) (t : BitVec 2) (r : BitVec 5) (q : Byte)
    (hm : m = fieldKey d t r q) :
    fieldKey dir type recip req &&& (0xFFFF : BitVec 16) = m ↔ type = t ∧ dir = d ∧ recip = r ∧ req = q := by
  rw [hm, ← fieldKey_inj, show (0xFFFF : BitVec 16) = BitVec.allOnes 16 from rfl, BitVec.and_allOnes]

/-- A catch-all row matches the keys of one TYPE. -/
theorem typeMask_matches (m : BitVec 16) (t : BitVec 2) (hm : m = t.setWidth 16 <<< 5) :
    fieldKey dir type recip req &&& (0x0060 : BitVec 16) = m ↔ type = t := by
  have hinj : ∀ type t : BitVec 2, type.setWidth 16 <<< 5 = t.setWidth 16 <<< 5 ↔ type = t := by decide
  rw [hm, key_and_typeMask, fieldKey_type, hinj]

/-- GET_STATUS's row leaves the recipient free. -/
theorem statusMask_matches :
    fieldKey dir type recip req &&& (0xFFE0 : BitVec 16) = (0x0080 : BitVec 16) ↔
      type = 0 ∧ dir = 1 ∧ req = 0x00 := by
  have hclear : fieldKey dir type recip req &&& (0xFFE0 : BitVec 16) = fieldKey dir type 0 req := by
    unfold fieldKey requestType
    ext i hi
    interval_cases i <;> simp <;> grind
  rw [hclear, show (0x0080 : BitVec 16) = fieldKey 1 0 0 0x00 from rfl, fieldKey_inj]
  simp

end

/-- The first matching row, by the fields. -/
theorem requestKind_fieldKey (dir : BitVec 1) (type : BitVec 2) (recip : BitVec 5) (req : Byte) :
    requestKind (fieldKey dir type recip req) = kindOfFields dir type recip req := by
  simp only [requestKind, requestTable, firstRow, kindOfFields, statusMask_matches,
    fullMask_matches 0x0500 0 0 0 0x05 rfl, fullMask_matches 0x0680 1 0 0 0x06 rfl,
    fullMask_matches 0x0880 1 0 0 0x08 rfl, fullMask_matches 0x0900 0 0 0 0x09 rfl,
    fullMask_matches 0x0A81 1 0 1 0x0A rfl, fullMask_matches 0x0B01 0 0 1 0x0B rfl,
    fullMask_matches 0x2021 0 1 1 0x20 rfl, fullMask_matches 0x21A1 1 1 1 0x21 rfl,
    fullMask_matches 0x2221 0 1 1 0x22 rfl, typeMask_matches 0x0000 0 rfl, typeMask_matches 0x0020 1 rfl,
    typeMask_matches 0x0040 2 rfl, typeMask_matches 0x0060 3 rfl]
  rcases type_cases type with rfl | rfl | rfl | rfl <;> simp <;> split_ifs <;> rfl

theorem standardRowKey_eq_false_iff (dir : BitVec 1) (recip : BitVec 5) (req : Byte) :
    standardRowKey dir recip req = false ↔
      ¬(dir = 1 ∧ req = 0x00) ∧ ¬(dir = 0 ∧ recip = 0 ∧ req = 0x05) ∧ ¬(dir = 1 ∧ recip = 0 ∧ req = 0x06) ∧
      ¬(dir = 1 ∧ recip = 0 ∧ req = 0x08) ∧ ¬(dir = 0 ∧ recip = 0 ∧ req = 0x09) ∧
      ¬(dir = 1 ∧ recip = 1 ∧ req = 0x0A) ∧ ¬(dir = 0 ∧ recip = 1 ∧ req = 0x0B) := by
  rw [← Bool.not_eq_true]
  simp only [standardRowKey, Bool.or_eq_true, Bool.and_eq_true, beq_iff_eq, not_or, and_assoc]

theorem cdcRowKey_eq_false_iff (dir : BitVec 1) (recip : BitVec 5) (req : Byte) :
    cdcRowKey dir recip req = false ↔
      ¬(dir = 0 ∧ recip = 1 ∧ req = 0x20) ∧ ¬(dir = 1 ∧ recip = 1 ∧ req = 0x21) ∧
      ¬(dir = 0 ∧ recip = 1 ∧ req = 0x22) := by
  rw [← Bool.not_eq_true]
  simp only [cdcRowKey, Bool.or_eq_true, Bool.and_eq_true, beq_iff_eq, not_or, and_assoc]

end Sys2Proof
end

section
/-! SUPPORT, and O6, O7, O10. Encoding and decoding undo each other (30_encoding.md R90-R105), format by format: the
fields the encoder assembles are those the decoder reads, and each check that passes in the decoder fixes a field. -/

namespace Sys2Proof
open Sys2Proof.Laws.TableRow (format)

/-! ## SETUP packets both ways -/

theorem requestKind_setupWord (dir : BitVec 1) (type : BitVec 2) (recip : BitVec 5) (req : Byte) (v x l : Word16) :
    requestKind (requestKey (setupWord (requestType dir type recip) req v x l)) = kindOfFields dir type recip req := by
  rw [requestKey_setupWord]
  exact requestKind_fieldKey dir type recip req

/-- The request of a row with these operands. -/
def RequestKind.instr (k : RequestKind) (dir : BitVec 1) (recip : BitVec 5) (req : Byte) (v x l : Word16) : Instr :=
  match k with
  | .getStatus => .getStatus recip v x l
  | .setAddress => .setAddress v x l
  | .getDescriptor => .getDescriptor v x l
  | .getConfiguration => .getConfiguration v x l
  | .setConfiguration => .setConfiguration v x l
  | .getInterface => .getInterface v x l
  | .setInterface => .setInterface v x l
  | .stdUnsupported => .stdUnsupported dir recip req v x l
  | .setLineCoding => .setLineCoding v x l
  | .getLineCoding => .getLineCoding v x l
  | .setControlLineState => .setControlLineState v x l
  | .classOther => .classOther dir recip req v x l
  | .vendor => .vendor dir recip req v x l
  | .reservedType => .reservedType dir recip req v x l

theorem decodeRequest_setupWord (dir : BitVec 1) (type : BitVec 2) (recip : BitVec 5) (req : Byte) (v x l : Word16) :
    decodeRequest (setupWord (requestType dir type recip) req v x l) =
      (kindOfFields dir type recip req).instr dir recip req v x l := by
  simp only [decodeRequest, requestKind_setupWord, recipient_setupWord, direction_setupWord, bRequest_setupWord,
    wValue_setupWord, wIndex_setupWord, wLength_setupWord]
  rfl

/-- Where the fields of a packet take row k, the packet decodes to the request of row k. -/
theorem decode_setupWord {k : RequestKind} {dir : BitVec 1} {type : BitVec 2} {recip : BitVec 5} {req : Byte}
    (hk : kindOfFields dir type recip req = k) (v x l : Word16) :
    decode (.setup (setupWord (requestType dir type recip) req v x l)) = .ok (k.instr dir recip req v x l) := by
  rw [decode, decodeRequest_setupWord, hk]

theorem decode_encode_setup {i : Instr} (hwf : i.wellFormed = true) (hformat : format (encode i) = .setup) :
    decode (encode i) = .ok i := by
  cases i
  case stdUnsupported dir recip req v x l =>
    refine decode_setupWord (k := .stdUnsupported) ?_ v x l
    simp only [Instr.wellFormed, Bool.not_eq_true', standardRowKey_eq_false_iff] at hwf
    simp only [kindOfFields, hwf, if_true, if_false]
  case classOther dir recip req v x l =>
    refine decode_setupWord (k := .classOther) ?_ v x l
    have htype : ¬(1 : BitVec 2) = 0 := by decide
    simp only [Instr.wellFormed, Bool.not_eq_true', cdcRowKey_eq_false_iff] at hwf
    simp only [kindOfFields, hwf, htype, if_true, if_false]
  case getStatus | setAddress | getDescriptor | getConfiguration | setConfiguration | getInterface | setInterface |
      setLineCoding | getLineCoding | setControlLineState | vendor | reservedType =>
    exact decode_setupWord rfl ..
  all_goals cases hformat

/-- The request read from an assembled packet is well formed and encodes back to it. -/
theorem encode_decodeRequest_setupWord (dir : BitVec 1) (type : BitVec 2) (recip : BitVec 5) (req : Byte)
    (v x l : Word16) :
    (decodeRequest (setupWord (requestType dir type recip) req v x l)).wellFormed = true ∧
      encode (decodeRequest (setupWord (requestType dir type recip) req v x l)) =
        .setup (setupWord (requestType dir type recip) req v x l) := by
  rw [decodeRequest_setupWord, kindOfFields]
  rcases type_cases type with rfl | rfl | rfl | rfl
  · split_ifs <;> simp_all [RequestKind.instr, Instr.wellFormed, encode, standardRowKey_eq_false_iff]
  · split_ifs <;> simp_all [RequestKind.instr, Instr.wellFormed, encode, cdcRowKey_eq_false_iff]
  · exact ⟨rfl, rfl⟩
  · exact ⟨rfl, rfl⟩

/-- A packet is one assembled from its fields, so what is read from it encodes back to it. -/
theorem encode_decodeRequest (S : SetupWord) :
    (decodeRequest S).wellFormed = true ∧ encode (decodeRequest S) = .setup S := by
  rw [← setupWord_fields S, bmRequestType_fields]
  exact encode_decodeRequest_setupWord ..

/-! ## Commands both ways -/

theorem noEntryCommand_ok {C : Word32} {k : Except DecodeError Instr} {i : Instr} :
    noEntryCommand C k = .ok i ↔ commandEntry C = 0 ∧ k = .ok i := by
  unfold noEntryCommand
  split <;> simp_all

theorem plainCommand_ok {C : Word32} {data : List Byte} {i j : Instr} :
    plainCommand C data j = .ok i ↔ commandLen C = 0 ∧ data = [] ∧ j = i := by
  unfold plainCommand
  split <;> simp_all

theorem dataCommand_ok {C : Word32} {data : List Byte} {i j : Instr} :
    dataCommand C data j = .ok i ↔ data.length = (commandLen C).toNat ∧ j = i := by
  unfold dataCommand
  split <;> simp_all

theorem entryOfIndex_eq_some {n : BitVec 4} {e : Entry} : entryOfIndex n = some e ↔ n = e.index := by
  revert n; cases e <;> decide

theorem entryCommand_ok {C : Word32} {k : Entry → Except DecodeError Instr} {i : Instr} :
    entryCommand C k = .ok i ↔ ∃ e, commandEntry C = e.index ∧ k e = .ok i := by
  unfold entryCommand
  simp only [← entryOfIndex_eq_some]
  cases entryOfIndex (commandEntry C) <;> simp

theorem decode_encode_command {i : Instr} (hwf : i.wellFormed = true) (hformat : format (encode i) = .command) :
    decode (encode i) = .ok i := by
  cases i
  case cmdReserved op rest data =>
    have hop : reservedOp op = true := hwf
    simp only [encode, decode, decodeCommand, commandOp_append, commandRest_append, hop, if_true]
  case poll | attach | serviceTx | appCmd => rfl
  case armRx e =>
    simp only [encode, decode, decodeCommand, commandOp_commandWord, commandTop_commandWord]
    exact entryCommand_ok.mpr
      ⟨e, commandEntry_commandWord .., plainCommand_ok.mpr ⟨commandLen_commandWord .., rfl, rfl⟩⟩
  case armTx e data =>
    simp only [encode, decode, decodeCommand, commandOp_commandWord, commandTop_commandWord]
    refine entryCommand_ok.mpr ⟨e, commandEntry_commandWord .., dataCommand_ok.mpr ⟨?_, rfl⟩⟩
    rw [commandLen_commandWord, BitVec.toNat_ofNat, Nat.mod_eq_of_lt (of_decide_eq_true hwf)]
  case readAvailable n =>
    simp only [encode, decode, decodeCommand, commandOp_commandWord, commandTop_commandWord]
    refine noEntryCommand_ok.mpr ⟨commandEntry_commandWord .., ?_⟩
    rw [commandLen_commandWord]
    rfl
  case writeBytes data =>
    simp only [encode, decode, decodeCommand, commandOp_commandWord, commandTop_commandWord]
    refine noEntryCommand_ok.mpr ⟨commandEntry_commandWord .., dataCommand_ok.mpr ⟨?_, rfl⟩⟩
    rw [commandLen_commandWord, BitVec.toNat_ofNat, Nat.mod_eq_of_lt (of_decide_eq_true hwf)]
  all_goals cases hformat

/-- A command word of which these fields were read is the one assembled from them. -/
theorem commandWord_of_fields {C : Word32} (htop : commandTop C = 0) {n : Nat} (hop : (commandOp C).toNat = n)
    {e : BitVec 4} (he : commandEntry C = e) {len : Word16} (hlen : commandLen C = len) :
    commandWord (BitVec.ofNat 4 n) e len = C := by
  rw [← hop, BitVec.ofNat_toNat, BitVec.setWidth_eq, ← he, ← hlen, commandWord_fields C htop]

/-- An operation that is not reserved is one of the eight (30_encoding.md R97, R98). -/
theorem toNat_of_not_reservedOp (op : BitVec 4) (h : ¬reservedOp op = true) : 1 ≤ op.toNat ∧ op.toNat ≤ 8 := by
  revert op; decide

theorem commandWord_reserved (C : Word32) : C.extractLsb' 4 28 ++ commandOp C = C := by
  unfold commandOp; ext i hi; simp; grind

/-- The length of DATA, as LEN counts it. -/
theorem ofNat_length_of_eq {data : List Byte} {len : Word16} (h : data.length = len.toNat) :
    len = BitVec.ofNat 16 data.length ∧ data.length < 65536 := by
  rw [h, BitVec.ofNat_toNat, BitVec.setWidth_eq]
  exact ⟨rfl, len.isLt⟩

/-- The arms h_1 to h_8 are POLL, ATTACH, ARM_RX, ARM_TX, READ_AVAILABLE, WRITE_BYTES, SERVICE_TX and APP_CMD. -/
theorem encode_of_decodeCommand {C : Word32} {data : List Byte} {i : Instr} (h : decodeCommand C data = .ok i) :
    i.wellFormed = true ∧ encode i = .command C data := by
  unfold decodeCommand at h
  split at h
  · rename_i hreserved
    cases h
    exact ⟨hreserved, by rw [encode, commandWord_reserved]⟩
  rename_i hreserved
  split at h
  · cases h
  rename_i htop
  have hword {n e len} (hop : (commandOp C).toNat = n) (he : commandEntry C = e) (hlen : commandLen C = len) :
      commandWord (BitVec.ofNat 4 n) e len = C := commandWord_of_fields (not_not.mp htop) hop he hlen
  split at h
  case h_3 hop =>
    obtain ⟨e, he, hplain⟩ := entryCommand_ok.mp h
    obtain ⟨hlen, rfl, rfl⟩ := plainCommand_ok.mp hplain
    exact ⟨rfl, congrArg (Wire.command · _) (hword hop he hlen)⟩
  case h_4 hop =>
    obtain ⟨e, he, hdata⟩ := entryCommand_ok.mp h
    obtain ⟨hlen, rfl⟩ := dataCommand_ok.mp hdata
    obtain ⟨hlen, hfits⟩ := ofNat_length_of_eq hlen
    exact ⟨decide_eq_true hfits, congrArg (Wire.command · _) (hword hop he hlen)⟩
  all_goals
    rw [noEntryCommand_ok] at h
    obtain ⟨he, h⟩ := h
  case h_5 hop =>
    split at h
    · rename_i hdata
      cases h
      exact ⟨rfl, congrArg₂ Wire.command (hword hop he rfl) hdata.symm⟩
    · cases h
  case h_6 hop =>
    obtain ⟨hlen, rfl⟩ := dataCommand_ok.mp h
    obtain ⟨hlen, hfits⟩ := ofNat_length_of_eq hlen
    exact ⟨decide_eq_true hfits, congrArg (Wire.command · _) (hword hop he hlen)⟩
  all_goals
    rw [plainCommand_ok] at h
    obtain ⟨hlen, rfl, rfl⟩ := h
  case h_8 h1 h2 h3 h4 h5 h6 h7 =>
    have hop : (commandOp C).toNat = 8 := by
      have hrange := toNat_of_not_reservedOp _ hreserved
      grind
    exact ⟨rfl, congrArg (Wire.command · _) (hword hop he hlen)⟩
  all_goals
    rename_i hop
    exact ⟨rfl, congrArg (Wire.command · _) (hword hop he hlen)⟩

/-! ## Records, SIE steps and application bytes both ways -/

theorem tokenKind_eq_some {t : TokenRecord} {k : TokenKind} : tokenKind t = some k ↔ t = k.record := by
  revert t; cases k <;> decide

theorem encode_instr (k : TokenKind) : k.instr.wellFormed = true ∧ encode k.instr = .token k.record := by
  cases k <;> exact ⟨rfl, rfl⟩

theorem outEntryOf_eq_some {n : BitVec 4} {e : OutEntry} : outEntryOf n = some e ↔ n = e.endpointNumber := by
  revert n; cases e <;> decide

theorem inEntryOf_eq_some {n : BitVec 4} {e : InEntry} : inEntryOf n = some e ↔ n = e.endpointNumber := by
  revert n; cases e <;> decide

theorem bareStep_ok {endp : BitVec 4} {bytes : List Byte} {i j : Instr} :
    bareStep endp bytes j = .ok i ↔ endp = 0 ∧ bytes = [] ∧ j = i := by
  unfold bareStep
  split <;> simp_all

theorem decode_encode_sie {i : Instr} (hformat : format (encode i) = .sie) : decode (encode i) = .ok i := by
  cases i
  case sieReset | sieSetup | sieError | power | detach => rfl
  case sieOut e bytes => cases e <;> rfl
  case sieIn e => cases e <;> rfl
  all_goals cases hformat

/-- A step's kind code is its number. -/
theorem kind_of_toNat {kind : BitVec 3} {n : Nat} (h : kind.toNat = n) : BitVec.ofNat 3 n = kind := by
  rw [← h, BitVec.ofNat_toNat, BitVec.setWidth_eq]

/-- The arms h_1 to h_8 are the kind codes 0 to 7. -/
theorem encode_of_decodeSie {kind : BitVec 3} {endp : BitVec 4} {bytes : List Byte} {i : Instr}
    (h : decodeSie kind endp bytes = .ok i) : i.wellFormed = true ∧ encode i = .sie kind endp bytes := by
  unfold decodeSie at h
  split at h
  case h_2 hkind =>
    split at h
    · rename_i hendp
      cases h
      exact ⟨rfl, by rw [hendp, ← kind_of_toNat hkind]; rfl⟩
    · cases h
  case h_3 hkind =>
    split at h
    · rename_i e he
      cases h
      exact ⟨rfl, by rw [outEntryOf_eq_some.mp he, ← kind_of_toNat hkind]; rfl⟩
    · cases h
  case h_4 hkind =>
    split at h
    · rename_i e he
      split at h
      · rename_i hbytes
        cases h
        exact ⟨rfl, by rw [hbytes, inEntryOf_eq_some.mp he, ← kind_of_toNat hkind]; rfl⟩
      · cases h
    · cases h
  case h_8 => cases h
  all_goals
    rename_i hkind
    obtain ⟨rfl, rfl, rfl⟩ := bareStep_ok.mp h
    exact ⟨rfl, by rw [← kind_of_toNat hkind]; rfl⟩

theorem decodeAppByte_of_not_command (b : Byte) (h : appCommandByte b = false) :
    decodeAppByte b = .appUnrecognised b := by
  revert b; decide

theorem encode_decodeAppByte (b : Byte) :
    (decodeAppByte b).wellFormed = true ∧ encode (decodeAppByte b) = .appByte b := by
  revert b; decide

theorem decode_encode_appByte {i : Instr} (hwf : i.wellFormed = true) (hformat : format (encode i) = .appByte) :
    decode (encode i) = .ok i := by
  cases i
  case appLedOn | appLedOff | appLedStatus => rfl
  case appUnrecognised b =>
    have hb : appCommandByte b = false := by simpa [Instr.wellFormed] using hwf
    exact congrArg Except.ok (decodeAppByte_of_not_command b hb)
  all_goals cases hformat

theorem decode_encode_token {i : Instr} (hformat : format (encode i) = .token) : decode (encode i) = .ok i := by
  cases i
  case tokenEp0Setup | tokenEp0Out | tokenEp0In | tokenEp1In | tokenEp2Out | tokenEp2In => rfl
  all_goals cases hformat

/-! ## Every format -/

/-- Settles O6: format by format, the fields the encoder assembles are the fields the decoder reads. -/
theorem decodeOfEncodeIsTheInstruction : Obligations.DecodeOfEncodeIsTheInstruction := by
  intro i hwf
  cases hformat : format (encode i) with
  | setup => exact decode_encode_setup hwf hformat
  | command => exact decode_encode_command hwf hformat
  | sie => exact decode_encode_sie hformat
  | token => exact decode_encode_token hformat
  | appByte => exact decode_encode_appByte hwf hformat

/-- Settles O7: format by format, the fields the decoder reads are all there is of a wire form it accepts. -/
theorem encodeOfDecodeIsTheWireForm : Obligations.EncodeOfDecodeIsTheWireForm := by
  intro w i h
  cases w with
  | setup S =>
    cases h
    exact encode_decodeRequest S
  | command C data => exact encode_of_decodeCommand h
  | token t =>
    simp only [decode] at h
    split at h
    · rename_i k hk
      cases h
      rw [tokenKind_eq_some.mp hk]
      exact encode_instr k
    · cases h
  | sie kind endp bytes => exact encode_of_decodeSie h
  | appByte b =>
    cases h
    exact encode_decodeAppByte b

/-- Settles O10: each word is the one the encoder writes for its instruction. -/
theorem writtenWordsDecode : Obligations.WrittenWordsDecode := by
  have law := decodeOfEncodeIsTheInstruction
  exact ⟨law (.setAddress 5 0 0) rfl, law (.getDescriptor 0x0100 0 18) rfl, law (.setConfiguration 1 0 0) rfl,
    law (.setLineCoding 0 0 7) rfl, law (.vendor 1 0 0x01 0 0 4) rfl, law (.armTx .ep2In [0x41, 0x42, 0x43]) rfl,
    law (.readAvailable 64) rfl, law (.sieOut .ep2 [0x4F]) rfl, law .tokenEp1In rfl, law .appLedStatus rfl⟩

end Sys2Proof
end

section
/-! SUPPORT, and O58, O60. The pseudo-operations (30_encoding.md R109): drain takes CAPTURE and POLL steps until nothing
waits, each lowering the bound on what waits (70_reset_and_hazards.md R287), and no pseudo-operation goes on past a mark
of a fault (60_exceptions.md R250). -/

namespace Sys2Proof.Machine

/-! ## What drain does next -/

theorem drainStep_of_stopped {s : State} (h : s.canStep = false) : drainStep s = none := by simp [drainStep, h]

theorem drainStep_none {s : State} (hs : s.canStep = true) (h : drainStep s = none) :
    s.captureEnabled = false ∧ s.pollHasWork = false := by
  unfold drainStep at h
  split_ifs at h with hstop hcapture hpoll
  · simp [hs] at hstop
  · exact ⟨Bool.eq_false_of_not_eq_true hcapture, Bool.eq_false_of_not_eq_true hpoll⟩

theorem drainStep_some {s : State} {a : AgentStep} (h : drainStep s = some a) :
    (a = .capture ∧ s.captureEnabled = true) ∨ (a = pollStepWord ∧ s.pollHasWork = true) := by
  unfold drainStep at h
  split_ifs at h with _ hc hp <;> cases h
  · exact .inl ⟨rfl, hc⟩
  · exact .inr ⟨rfl, hp⟩

theorem drain_of_none {s : State} (h : drainStep s = none) (fuel : Nat) : drain fuel s = .next s := by
  cases fuel with
  | zero => rfl
  | succ fuel => simp [drain, h]

theorem drain_of_some {s t : State} {a : AgentStep} (h : drainStep s = some a) (ht : runAgentStep a s = .next t)
    (fuel : Nat) : drain (fuel + 1) s = drain fuel t := by
  simp [drain, h, ht, andThen]

/-! ## Each step lowers the bound -/

/-- A CAPTURE step moves a flag or a record from the SIE's side, which counts two, to POLL's, which counts one. -/
theorem drainBound_capture {s : State} (h : s.captureEnabled = true) : drainBound (capture s) < drainBound s := by
  unfold capture
  split
  · rename_i hreset
    simp only [drainBound, hreset]
    grind
  · rename_i hreset
    split
    · rename_i herror
      simp only [drainBound, herror]
      grind
    · rename_i herror
      split
      · rename_i hfifo
        simp [State.captureEnabled, hreset, herror, hfifo] at h
      · rename_i r rest hfifo
        split
        · rename_i hfull
          simp [State.captureEnabled, hreset, herror, hfull] at h
        · simp only [drainBound, hfifo, List.length_cons, List.length_append, List.length_nil]
          omega

theorem Ep0Frame.drainBound_eq {s t : State} (h : Ep0Frame s t) : drainBound t = drainBound s := by
  unfold drainBound
  rw [h.sieIfReset, h.sieIfError, h.sieFifo, h.pendReset, h.pendError, h.tokq]

theorem drainBound_configure (s : State) : drainBound (configure s) = drainBound s := by
  simp [drainBound, configure]

theorem drainBound_applyAction (a : Action) (s : State) : drainBound (applyAction a s) = drainBound s := by
  cases a with
  | setConfig c =>
    simp only [applyAction]
    split
    · rfl
    · exact drainBound_configure s
  | _ => rfl

/-- Processing a record leaves what waits as it was. -/
theorem drainBound_dispatchToken {r : TokenRecord} {s t : State} (h : dispatchToken r s = .ok t) :
    drainBound t = drainBound s := by
  rcases dispatchToken_cases h with frame | ⟨_, _, rfl⟩
  · exact frame.drainBound_eq
  · exact drainBound_applyAction _ s

/-- A POLL step with work takes one event. -/
theorem drainBound_pollStep {s t : State} (hwork : s.pollHasWork = true) (h : pollStep s = .ok t) :
    drainBound t < drainBound s := by
  rcases pollStep_cases h with ⟨hreset, rfl⟩ | ⟨_, herror, rfl⟩ | ⟨_, _, r, rest, hq, hr⟩ | ⟨hreset, herror, hq, _⟩
  · simp only [drainBound, busReset, hreset]
    grind
  · simp only [drainBound, herror]
    grind
  · rw [drainBound_dispatchToken hr]
    simp [drainBound, hq]
  · simp [State.pollHasWork, hreset, herror, hq] at hwork

theorem runAgentStep_pollStepWord {s t : State} (h : pollStep s = .ok t) :
    runAgentStep pollStepWord s = .next (setResult 0 false [] t) := by
  have hdecode : decode (.command 0x00000001 []) = .ok .poll := rfl
  rw [runAgentStep_of_decode rfl hdecode]
  show commit s (plainResult (pollStep s)) = _
  rw [h]
  rfl

/-- A step of drain answers a state that meets the invariants, with less waiting. -/
theorem Inv.drainStep_next {s : State} (h : Inv s) {a : AgentStep} (ha : drainStep s = some a) :
    ∃ t, Machine.runAgentStep a s = .next t ∧ Inv t ∧ drainBound t < drainBound s := by
  rcases drainStep_some ha with ⟨rfl, hc⟩ | ⟨rfl, hp⟩
  · exact ⟨_, rfl, h.capture, drainBound_capture hc⟩
  · obtain ⟨t, ht, hinv⟩ := h.pollStep
    have hlt := drainBound_pollStep hp ht
    exact ⟨_, runAgentStep_pollStepWord ht, hinv.setResult 0 false [], hlt⟩

/-! ## The end of drain -/

theorem Inv.canStep {s : State} (h : Inv s) : s.canStep = true := by simp [State.canStep, h.unfaulted, h.admitted]

/-- Where drain has nothing to do, the state is quiescent: with TOKQ empty, and so not full, a record in the SIE's FIFO
would enable CAPTURE. -/
theorem Inv.quiescent_of_drainStep_none {s : State} (h : Inv s) (hnone : drainStep s = none) : s.quiescent = true := by
  obtain ⟨hcapture, hpoll⟩ := drainStep_none h.canStep hnone
  have hdepth := (admitted_sizes h.admitted).tokq
  simp only [State.pollHasWork, Bool.or_eq_false_iff, Bool.not_eq_false', List.isEmpty_iff] at hpoll
  obtain ⟨⟨hreset, herror⟩, htokq⟩ := hpoll
  have hroom : s.tokqFull = false := decide_eq_false (by rw [htokq]; exact Nat.not_le.mpr hdepth)
  simp only [State.captureEnabled, hroom, Bool.or_eq_false_iff, Bool.not_false, Bool.and_true, Bool.not_eq_false',
    List.isEmpty_iff] at hcapture
  obtain ⟨⟨hifReset, hifError⟩, hfifo⟩ := hcapture
  simp [State.quiescent, hreset, herror, htokq, hifReset, hifError, hfifo]

/-- With as much fuel as the bound, drain ends where it has nothing more to do. -/
theorem Inv.drain_quiescent {s : State} (h : Inv s) {fuel : Nat} (hfuel : drainBound s ≤ fuel) :
    ∃ t, drain fuel s = .next t ∧ Inv t ∧ t.quiescent = true := by
  induction fuel generalizing s with
  | zero =>
    cases ha : drainStep s with
    | none => exact ⟨s, rfl, h, h.quiescent_of_drainStep_none ha⟩
    | some a =>
      obtain ⟨t, _, _, hlt⟩ := h.drainStep_next ha
      omega
  | succ fuel ih =>
    cases ha : drainStep s with
    | none => exact ⟨s, drain_of_none ha _, h, h.quiescent_of_drainStep_none ha⟩
    | some a =>
      obtain ⟨t, ht, hinv, hlt⟩ := h.drainStep_next ha
      rw [drain_of_some ha ht]
      exact ih hinv (by omega)

/-- Settles O58: every step of drain lowers its bound, so that the fuel lasts until nothing waits. -/
theorem drainEndsQuiescent : Obligations.DrainEndsQuiescent := by
  intro s h
  obtain ⟨t, ht, hinv, hquiet⟩ := h.drain_quiescent le_rfl
  simp only [State.quiescent, Bool.and_eq_true, Bool.not_eq_true', List.isEmpty_iff] at hquiet
  obtain ⟨⟨⟨⟨⟨hifReset, hifError⟩, hfifo⟩, htokq⟩, hreset⟩, herror⟩ := hquiet
  exact ⟨t, ht, hinv, hifReset, hifError, hfifo, htokq, hreset, herror⟩

/-! ## Past the mark of a fault -/

theorem canStep_of_faulted {s : State} {f : Fault} (h : s.faulted = some f) : s.canStep = false := by
  simp [State.canStep, h]

theorem drain_of_faulted {s : State} {f : Fault} (h : s.faulted = some f) (fuel : Nat) : drain fuel s = .next s :=
  drain_of_none (drainStep_of_stopped (canStep_of_faulted h)) fuel

/-- What follows a host step and its drain: nothing, where no step is enabled. -/
theorem hostThenDrain_of_stopped {s : State} (h : s.canStep = false) (fuel : Nat) (enabled : Bool) (i : Instr)
    (k : State → Host.Outcome State Fault Refusal) : hostThenDrain fuel enabled i s k = .next s := by
  simp [hostThenDrain, h]

theorem hostThenDrain_of_next {s t u : State} {fuel : Nat} {enabled : Bool} {i : Instr} (hs : s.canStep = true)
    (henabled : enabled = true) (ht : exec i s = .next t) (hu : drain fuel t = .next u)
    (k : State → Host.Outcome State Fault Refusal) : hostThenDrain fuel enabled i s k = k u := by
  simp [hostThenDrain, hs, henabled, ht, hu, andThen]

/-- The packets of a control read and what comes after them stop at once, where both do. -/
theorem readPackets_of_stopped {s : State} (h : s.canStep = false) (n fuel : Nat)
    {k : State → Host.Outcome State Fault Refusal} (hk : k s = .next s) : readPackets n fuel s k = .next s := by
  cases n with
  | zero => rfl
  | succ n =>
    unfold readPackets
    split
    · exact hostThenDrain_of_stopped h ..
    · exact hk

/-- Settles O60: past the mark each part of a pseudo-operation stays where it is. -/
theorem pseudoOperationsStopAtAFault : Obligations.PseudoOperationsStopAtAFault := by
  refine ⟨fun s f fuel S data hf => ?_, fun s t a f fuel ha ht hf => ?_,
    fun s t u f fuel S data hs henabled ht hu hf => ?_⟩
  · have hstop := canStep_of_faulted hf
    exact ⟨drain_of_faulted hf fuel, hostThenDrain_of_stopped hstop .., hostThenDrain_of_stopped hstop ..,
      hostThenDrain_of_stopped hstop ..⟩
  · rw [drain_of_some ha ht, drain_of_faulted hf]
  · have hstop := canStep_of_faulted hf
    have hfirst := hostThenDrain_of_next hs henabled ht hu
    refine ⟨(hfirst _).trans (hostThenDrain_of_stopped hstop ..), (hfirst _).trans ?_,
      (hfirst _).trans (hostThenDrain_of_stopped hstop ..)⟩
    exact readPackets_of_stopped hstop _ _ (hostThenDrain_of_stopped hstop ..)

end Sys2Proof.Machine
end

section
/-! SUPPORT, and O41. What the command port refuses by its meaning (30_encoding.md R98, 44_endpoint_buffers.md R205). -/

namespace Sys2Proof.Machine

/-- REFUSED takes the name if it is clear; there is no result (60_exceptions.md R251). -/
theorem refuseCommand_eq (r : CommandRefusal) (s : State) :
    refuseCommand r s = { s with refused := some (s.refused.getD r), result := none } := by
  unfold refuseCommand
  cases s.refused <;> rfl

theorem exec_armRx_of_refused {e : Entry} {r : CommandRefusal} (h : portArmRx e = some r) (s : State) :
    exec (.armRx e) s = .next (refuseCommand r s) := by
  simp only [exec, execArmRx, h]

theorem exec_armTx_of_refused {e : Entry} {r : CommandRefusal} (h : portArmTx e = some r) (data : List Byte)
    (s : State) : exec (.armTx e data) s = .next (refuseCommand r s) := by
  simp only [exec, execArmTx, h]

/-- Settles O41: each of these operands is refused by name. -/
theorem portRefusalsChangeOnlyTheMark : Obligations.PortRefusalsChangeOnlyTheMark := by
  intro s i r h
  rw [← refuseCommand_eq]
  rcases h with ⟨op, rest, data, rfl, rfl⟩ | ⟨rfl | rfl | ⟨data, rfl | rfl⟩, rfl⟩ |
    ⟨rfl | rfl | ⟨data, rfl⟩, rfl⟩
  · rfl
  · exact exec_armRx_of_refused rfl s
  · exact exec_armRx_of_refused rfl s
  · exact exec_armTx_of_refused rfl data s
  · exact exec_armTx_of_refused rfl data s
  · exact exec_armRx_of_refused rfl s
  · exact exec_armRx_of_refused rfl s
  · exact exec_armTx_of_refused rfl data s

end Sys2Proof.Machine
end

section
/-! SUPPORT, and O54, O55. Who changes DEV_STATE, and who enables an entry (40_device_state.md R120, R132): read off
`Effect`, in which every operation keeps both but for the events of R120's table. -/

namespace Sys2Proof.Machine
open Sys2Proof.Claims

/-- t has the DEV_STATE of s, every entry's EN, and the stall flags of the data entries. -/
structure EntriesKept (s t : State) : Prop where
  devState : t.devState = s.devState
  enabled : ∀ e, (t.bd.get e).en = (s.bd.get e).en
  stall : ∀ e, dataEntry e = true → (t.bd.get e).stall = (s.bd.get e).stall

theorem EntriesKept.trans {s t u : State} (h : EntriesKept s t) (k : EntriesKept t u) : EntriesKept s u :=
  ⟨k.devState.trans h.devState, fun e => (k.enabled e).trans (h.enabled e),
    fun e he => (k.stall e he).trans (h.stall e he)⟩

theorem EntriesKept.of_same {s t : State} (hstate : t.devState = s.devState) (hbd : t.bd = s.bd) : EntriesKept s t :=
  ⟨hstate, fun _ => by rw [hbd], fun _ _ => by rw [hbd]⟩

/-- What else the two states hold is of no account. -/
theorem EntriesKept.congr {s s' t t' : State} (h : EntriesKept s' t') (hs : s'.devState = s.devState)
    (hsbd : s'.bd = s.bd) (ht : t.devState = t'.devState) (htbd : t.bd = t'.bd) : EntriesKept s t :=
  (EntriesKept.of_same hs hsbd).trans (h.trans (.of_same ht htbd))

/-- One entry written, its EN and STALL as they were. -/
theorem EntriesKept.of_set {s t : State} {e : Entry} {b : BdStat} (hstate : t.devState = s.devState)
    (hbd : t.bd = s.bd.set e b) (hen : b.en = (s.bd.get e).en) (hstall : b.stall = (s.bd.get e).stall) :
    EntriesKept s t := by
  refine ⟨hstate, fun e' => ?_, fun e' _ => ?_⟩
  all_goals
    rw [hbd, perEntry_get_set]
    split
    · subst e'; assumption
    · rfl

theorem Ep0Frame.entriesKept {s t : State} (h : Ep0Frame s t) : EntriesKept s t := by
  refine ⟨h.devState, fun e => ?_, fun e he => ?_⟩
  · cases e with
    | ep0Out => exact h.outEn
    | ep0In => exact h.inEn
    | ep1In => exact congrArg BdStat.en h.ep1In
    | ep2Out => exact congrArg BdStat.en h.ep2Out
    | ep2In => exact congrArg BdStat.en h.ep2In
  · cases e with
    | ep0Out | ep0In => cases he
    | ep1In => exact congrArg BdStat.stall h.ep1In
    | ep2Out => exact congrArg BdStat.stall h.ep2Out
    | ep2In => exact congrArg BdStat.stall h.ep2In

/-! ## The operations that keep them -/

theorem entriesKept_armRx (e : Entry) (s : State) : EntriesKept s (armRx e s) :=
  .of_set (by simp) (armRx_bd e s) (by unfold armedRx; split <;> rfl) (by unfold armedRx; split <;> rfl)

theorem entriesKept_armTx (e : Entry) (data : List Byte) (s : State) : EntriesKept s (armTx e data s) :=
  .of_set (by simp) (armTx_bd e data s) (by unfold armedTx; split <;> rfl) (by unfold armedTx; split <;> rfl)

theorem entriesKept_readAvailable {n : Nat} {s t : State} {dest : List Byte} (h : readAvailable n s = .ok (t, dest)) :
    EntriesKept s t := by
  rcases readAvailable_cases h with ⟨rfl, _⟩ | ⟨_, _, rfl, _⟩
  · exact .of_same rfl rfl
  · exact entriesKept_armRx _ _

theorem entriesKept_writeBytes {data : List Byte} {s t : State} {n : Nat} (h : writeBytes data s = .ok (t, n)) :
    EntriesKept s t := by
  rcases writeBytes_cases h with ⟨rfl, _⟩ | ⟨_, _, _, _, rfl⟩ <;> exact .of_same rfl rfl

theorem entriesKept_serviceTx {s t : State} (h : serviceTx s = .ok t) : EntriesKept s t := by
  rcases serviceTx_cases h with rfl | ⟨data, _, _, _, _, rfl⟩
  · exact .of_same rfl rfl
  · exact (entriesKept_armTx .ep2In data s).congr rfl rfl rfl rfl

theorem entriesKept_appByte {b : Byte} {s t : State} (h : appByte b s = .ok t) : EntriesKept s t := by
  rcases appByte_cases h with rfl | ⟨led, r, n, hw⟩
  · exact .of_same rfl rfl
  · exact (entriesKept_writeBytes hw).congr rfl rfl rfl rfl

theorem entriesKept_appStep {s t : State} (h : appStep s = .ok t) : EntriesKept s t := by
  rcases appStep_cases h with rfl | ⟨u, dest, hu, rfl | ⟨b, hb⟩⟩
  · exact .of_same rfl rfl
  · exact entriesKept_readAvailable hu
  · exact (entriesKept_readAvailable hu).trans (entriesKept_appByte hb)

/-- A completed transaction writes its entry's OWN and CNT (44_endpoint_buffers.md R208-R210). -/
theorem entriesKept_complete (e : Entry) (cnt : BitVec 11) (record : TokenRecord) (s : State) :
    EntriesKept s (complete e cnt record s) :=
  .of_set rfl rfl rfl rfl

theorem entriesKept_sieError {s t : State} (h : sieError s = .ok t) : EntriesKept s t := by
  rcases sieError_cases h with rfl | rfl <;> exact .of_same rfl rfl

theorem entriesKept_sieSetup {bytes : List Byte} {s t : State} (h : sieSetup bytes s = .ok t) : EntriesKept s t := by
  rcases sieSetup_cases h with ⟨_, _, rfl⟩ | ⟨_, _, rfl⟩
  · exact (entriesKept_complete .ep0Out _ setupRecord _).congr rfl rfl rfl rfl
  · exact .of_same rfl rfl

theorem entriesKept_sieOut {e : OutEntry} {bytes : List Byte} {s t : State} (h : sieOut e bytes s = .ok t) :
    EntriesKept s t := by
  rcases sieOut_cases h with (rfl | rfl) | ⟨_, _, rfl⟩ | ⟨_, _, rfl⟩
  · exact .of_same rfl rfl
  · exact .of_same rfl rfl
  · exact (entriesKept_complete (outEntry e) _ (outRecord e) _).congr rfl rfl rfl rfl
  · exact .of_same rfl rfl

theorem entriesKept_sieIn {e : InEntry} {s t : State} (h : sieIn e s = .ok t) : EntriesKept s t := by
  rcases sieIn_cases h with ⟨_, _, _, rfl⟩ | ⟨_, _, rfl⟩
  · exact (entriesKept_complete (inEntry e) _ (inRecord e) s).congr rfl rfl rfl rfl
  · exact .of_same rfl rfl

/-! ## The events of R120's table -/

/-- i is an event of R120's table, and t has what it gives DEV_STATE and the entries. -/
inductive DeviceEvent (s : State) : Instr → State → Prop
  | attach {t} : s.devState = 0 → t.devState = 1 → t.bd = s.bd → DeviceEvent s .attach t
  | power {t} : s.devState = 1 → t.devState = 2 → t.bd = s.bd → DeviceEvent s .power t
  | detach : DeviceEvent s .detach (detachDevice s)
  | busReset {t} : s.pendReset = true → t.devState = (busReset s).devState → t.bd = (busReset s).bd →
      DeviceEvent s .poll t
  | statusStage {i t} : CompletesIn i s → s.ctx.stage = 3 → t.devState = (applyAction s.ctx.action s).devState →
      t.bd = (applyAction s.ctx.action s).bd → DeviceEvent s i t

/-- No action reads or writes TOKQ. -/
theorem applyAction_tokq (a : Action) (s : State) (q : List TokenRecord) :
    applyAction a { s with tokq := q } = { applyAction a s with tokq := q } := by
  cases a with
  | setConfig c => exact (apply_ite (fun u : State => { u with tokq := q }) (c = 0) (deconfigure s) (configure s)).symm
  | _ => rfl

/-- A record's rule, run by POLL on the popped state or by the record's own row, keeps DEV_STATE and the entries or
completes a status stage (40_device_state.md R128). -/
theorem dispatchToken_kept_or_event {i : Instr} {r : TokenRecord} {s t u : State} {q : List TokenRecord}
    (hi : tokenKind r = some .ep0In → CompletesIn i s) (h : dispatchToken r { s with tokq := q } = .ok u)
    (hstate : t.devState = u.devState) (hbd : t.bd = u.bd) : EntriesKept s t ∨ DeviceEvent s i t := by
  rcases dispatchToken_cases h with frame | ⟨hkind, hstage, rfl⟩
  · exact .inl (frame.entriesKept.congr rfl rfl hstate hbd)
  · rw [applyAction_tokq] at hstate hbd
    exact .inr (.statusStage (hi hkind) hstage hstate hbd)

/-- Every instruction keeps DEV_STATE and the entries, or is an event of the table. -/
theorem Effect.kept_or_event {s t : State} {i : Instr} (h : Effect s i t) : EntriesKept s t ∨ DeviceEvent s i t := by
  cases h with
  | attach hs => exact .inr (.attach hs rfl rfl)
  | power hs => exact .inr (.power hs rfl rfl)
  | detach => exact .inr .detach
  | pollReset hp => exact .inr (.busReset hp rfl rfl)
  | pollTok r rest u hr he hq hu =>
    have hcompletes : tokenKind r = some .ep0In → CompletesIn .poll s := fun hk =>
      .inr ⟨rfl, hr, he, by rw [hq, record_of_tokenKind_ep0In hk]; rfl⟩
    exact dispatchToken_kept_or_event hcompletes hu rfl rfl
  | token k _ hu => exact dispatchToken_kept_or_event (fun hk => .inl (instr_of_tokenKind_record hk)) hu rfl rfl
  | setup _ S rule _ _ hstage => exact .inl (ep0Frame_setupStage hstage).entriesKept
  | armRx => exact .inl ((entriesKept_armRx .ep2Out s).congr rfl rfl rfl rfl)
  | armTx e data _ => exact .inl ((entriesKept_armTx e data s).congr rfl rfl rfl rfl)
  | readAv n u dest hu => exact .inl ((entriesKept_readAvailable hu).congr rfl rfl rfl rfl)
  | writeB data u n hu => exact .inl ((entriesKept_writeBytes hu).congr rfl rfl rfl rfl)
  | servTx u hu => exact .inl ((entriesKept_serviceTx hu).congr rfl rfl rfl rfl)
  | appCmd u hu => exact .inl ((entriesKept_appStep hu).congr rfl rfl rfl rfl)
  | appB _ _ b _ hb => exact .inl (entriesKept_appByte hb)
  | sieReset d _ => split <;> exact .inl (.of_same rfl rfl)
  | sieError _ hu => exact .inl (entriesKept_sieError hu)
  | sieSetup b _ _ hu => exact .inl (entriesKept_sieSetup hu)
  | sieOut e b _ hu => exact .inl (entriesKept_sieOut hu)
  | sieIn e _ hu => exact .inl (entriesKept_sieIn hu)
  | fault | refuse | pollErr | pollNone | attachNo | powerNo | appNone => exact .inl (.of_same rfl rfl)

/-! ## What a status stage's action does to the two -/

theorem deconfigure_eq (s : State) : deconfigure s = { s with
    activeCfg := 0, devState := 4
    bd := { s.bd with ep1In := BdStat.zero, ep2Out := BdStat.zero, ep2In := BdStat.zero }
    txPending := false, txLen := 0 } := rfl

theorem configure_eq (s : State) : configure s = { s with
    activeCfg := s.params.cfgValue, devState := 5
    bd := { s.bd with
            ep1In := { own := .fw, en := true, stall := false, cnt := 0 }
            ep2Out := { own := .hw, en := true, stall := false, cnt := BitVec.ofNat 11 (bufCap s.params .ep2Out) }
            ep2In := { own := .fw, en := true, stall := false, cnt := 0 } }
    txPending := false, txLen := 0 } := rfl

theorem defaultOrAddress {s : State} (hop : s.isOperational = true) (hconf : s.isConfigured = false) :
    s.devState = 3 ∨ s.devState = 4 := by
  unfold State.isOperational at hop
  unfold State.isConfigured at hconf
  generalize s.devState = d at *
  revert d
  decide

theorem addressOrConfigured {s : State} (h : s.isAddressed = true) : s.devState = 4 ∨ s.devState = 5 := by
  simpa [State.isAddressed, DevState.code] using h

/-- Under the invariants the deferred action is one its device state admits, so a changed DEV_STATE is in the table. -/
theorem Inv.statusStage_row {s : State} (h : Inv s) {d : BitVec 3}
    (hd : d = (Machine.applyAction s.ctx.action s).devState) (hne : d ≠ s.devState) :
    (∃ a, s.ctx.action = .setAddress a ∧ a ≠ 0 ∧ s.devState = 3 ∧ d = 4) ∨
    (s.ctx.action = .setAddress 0 ∧ s.devState = 4 ∧ d = 3) ∨
    (s.ctx.action = .setConfig s.params.cfgValue ∧ s.devState = 4 ∧ d = 5) ∨
    (s.ctx.action = .setConfig 0 ∧ s.devState = 5 ∧ d = 4) := by
  have happlicable := h.context.applicable
  cases haction : s.ctx.action <;> rw [haction] at hd happlicable
  case noAction => exact absurd hd hne
  case setLineCoding => exact absurd hd hne
  case setAddress a =>
    have hstate := defaultOrAddress happlicable.1 happlicable.2
    by_cases ha : a = 0
    · have hd : d = 3 := hd.trans (if_pos ha)
      exact .inr (.inl ⟨by rw [ha], hstate.resolve_left (hd ▸ hne.symm), hd⟩)
    · have hd : d = 4 := hd.trans (if_neg ha)
      exact .inl ⟨a, rfl, ha, hstate.resolve_right (hd ▸ hne.symm), hd⟩
  case setConfig c =>
    have hstate := addressOrConfigured happlicable.1
    by_cases hc : c = 0
    · subst hc
      have hd : d = 4 := hd
      exact .inr (.inr (.inr ⟨rfl, hstate.resolve_left (hd ▸ hne.symm), hd⟩))
    · have hd : d = 5 := by rw [hd, Machine.applyAction, if_neg hc, configure_eq]
      have hvalue := happlicable.2.resolve_left hc
      exact .inr (.inr (.inl ⟨by rw [hvalue], hstate.resolve_right (hd ▸ hne.symm), hd⟩))

/-- Settles O54: a changed DEV_STATE takes an event of the table, and each event's row gives the values. -/
theorem deviceStateTransitions : Obligations.DeviceStateTransitions := by
  intro s t i hinv hexec hne
  rcases (exec_effect hexec).kept_or_event with hkept | hevent
  · exact absurd hkept.devState hne
  · cases hevent with
    | attach hs ht _ => exact .inl ⟨rfl, hs, ht⟩
    | power hs ht _ => exact .inr (.inl ⟨rfl, hs, ht⟩)
    | detach => exact .inr (.inr (.inl ⟨rfl, rfl⟩))
    | busReset hp ht _ => exact .inr (.inr (.inr (.inl ⟨rfl, hp, ht⟩)))
    | statusStage hi hstage ht _ => exact .inr (.inr (.inr (.inr ⟨hi, hstage, hinv.statusStage_row ht hne⟩)))

theorem applyAction_stall {a : Action} {s : State} {e : Entry} (he : dataEntry e = true)
    (h : ((applyAction a s).bd.get e).stall = true) : (s.bd.get e).stall = true := by
  cases e with
  | ep0Out | ep0In => cases he
  | ep1In | ep2Out | ep2In =>
    cases a with
    | setConfig c => rw [applyAction] at h; split at h <;> cases h
    | _ => exact h

/-- No event sets the stall flag of a data entry (10_state.md R30). -/
theorem DeviceEvent.stall {s t : State} {i : Instr} (h : DeviceEvent s i t) {e : Entry} (he : dataEntry e = true)
    (hstall : (t.bd.get e).stall = true) : (s.bd.get e).stall = true := by
  cases h with
  | attach _ _ hbd | power _ _ hbd => rwa [hbd] at hstall
  | detach => cases e <;> cases hstall
  | busReset _ _ hbd => rw [hbd] at hstall; cases e <;> cases hstall
  | statusStage _ _ _ hbd => rw [hbd] at hstall; exact applyAction_stall he hstall

/-- Settles O55: an entry's EN changes in an event of the table other than ATTACH, POWER and address apply, which leave
the entries alone. -/
theorem onlyTransitionsEnableEndpoints : Obligations.OnlyTransitionsEnableEndpoints := by
  intro s t i hexec
  rcases (exec_effect hexec).kept_or_event with hkept | hevent
  · exact ⟨fun ⟨e, hne⟩ => absurd (hkept.enabled e) hne, (hkept.stall .ep1In rfl).symm.trans,
      (hkept.stall .ep2Out rfl).symm.trans, (hkept.stall .ep2In rfl).symm.trans⟩
  · refine ⟨fun ⟨e, hne⟩ => ?_, hevent.stall (e := .ep1In) rfl, hevent.stall (e := .ep2Out) rfl,
      hevent.stall (e := .ep2In) rfl⟩
    cases hevent with
    | attach _ _ hbd | power _ _ hbd => exact absurd (by rw [hbd]) hne
    | detach => exact .inl rfl
    | busReset hp _ _ => exact .inr (.inl ⟨rfl, hp⟩)
    | statusStage hi hstage _ hbd =>
      rw [hbd] at hne
      refine .inr (.inr ⟨hi, hstage, ?_⟩)
      cases haction : s.ctx.action with
      | setConfig c => exact ⟨c, rfl⟩
      | _ => rw [haction] at hne; exact absurd rfl hne

end Sys2Proof.Machine
end

section
/-! SUPPORT, and O14-O20. What the device-state commands and the records answer, case by case (40_device_state.md
R121-R131, 60_exceptions.md R250). -/

namespace Sys2Proof.Machine
open Sys2Proof.Claims

/-! ## Attachment -/

theorem known_of_toNat_lt {s : State} (h : s.devState.toNat < 6) : ∃ d : DevState, s.devState = d.code := by
  have hknown : (DevState.ofCode s.devState).isSome = true := by
    revert h
    generalize s.devState = c
    revert c
    decide
  obtain ⟨d, _, hd⟩ := readDevState_of_known hknown
  exact ⟨d, hd⟩

theorem attachDevice_of_code {s : State} {d : DevState} (h : s.devState = d.code) :
    attachDevice s = .ok (if d = .detached then { s with devState := 1 } else s) := by
  unfold attachDevice
  rw [readDevState_code h]
  rfl

theorem powerDevice_of_code {s : State} {d : DevState} (h : s.devState = d.code) :
    powerDevice s = .ok (if d = .attached then { s with devState := 2 } else s) := by
  unfold powerDevice
  rw [readDevState_code h]
  rfl

theorem exec_attach_of_ok {s u : State} (h : attachDevice s = .ok u) :
    exec .attach s = .next { u with result := zeroResult } := by
  simp only [exec, execAttach, h]
  rfl

theorem exec_power_of_ok {s u : State} (h : powerDevice s = .ok u) : exec .power s = .next u := by
  simp only [exec, execPower, h]
  rfl

/-- Settles O14: both read DEV_STATE and act on one of its codes. -/
theorem attachAndPower : Obligations.AttachAndPower := by
  refine ⟨fun s hs => ?_, fun s hs hknown => ?_, fun s hs => ?_, fun s hs hknown => ?_⟩
  · exact exec_attach_of_ok (attachDevice_of_code (d := .detached) hs)
  · obtain ⟨d, hd⟩ := known_of_toNat_lt hknown
    have hne : d ≠ .detached := by rintro rfl; exact hs hd
    exact exec_attach_of_ok ((attachDevice_of_code hd).trans (by rw [if_neg hne]))
  · exact exec_power_of_ok (powerDevice_of_code (d := .attached) hs)
  · obtain ⟨d, hd⟩ := known_of_toNat_lt hknown
    have hne : d ≠ .attached := by rintro rfl; exact hs hd
    exact exec_power_of_ok ((powerDevice_of_code hd).trans (by rw [if_neg hne]))

/-- Settles O15: `detachDevice` gives each listed field its value, and keeps the rest. -/
theorem detachClearsTheBlock : Obligations.DetachClearsTheBlock := fun _ => rfl

/-! ## POLL -/

theorem takeFault_of_unfaulted {s : State} (h : s.faulted = none) (f : Fault) :
    takeFault f s = { s with faulted := some f } := by
  simp [takeFault, h]

theorem commit_of_error {s : State} {r : Except Fault State} {f : Fault} (hs : s.faulted = none) (h : r = .error f) :
    commit s r = .next { s with faulted := some f } := by
  rw [h, commit, takeFault_of_unfaulted hs]

theorem exec_poll_of_ok {s u : State} (h : pollStep s = .ok u) :
    exec .poll s = .next { u with result := zeroResult } := by
  simp only [exec, execPoll, h]
  rfl

theorem exec_poll_of_error {s : State} {f : Fault} (hs : s.faulted = none) (h : pollStep s = .error f) :
    exec .poll s = .next { s with faulted := some f } :=
  commit_of_error hs (by rw [h]; rfl)

theorem pollStep_of_reset {s : State} (h : s.pendReset = true) : pollStep s = .ok (busReset s) := by
  simp [pollStep, h]

theorem pollStep_of_error {s : State} (hr : s.pendReset = false) (he : s.pendError = true) :
    pollStep s = .ok { s with pendError := false } := by
  simp [pollStep, hr, he]

theorem pollStep_of_empty {s : State} (hr : s.pendReset = false) (he : s.pendError = false) (hq : s.tokq = []) :
    pollStep s = .ok s := by
  simp [pollStep, hr, he, hq]

theorem pollStep_of_cons {s : State} {r : TokenRecord} {rest : List TokenRecord} (hr : s.pendReset = false)
    (he : s.pendError = false) (hq : s.tokq = r :: rest) : pollStep s = dispatchToken r { s with tokq := rest } := by
  simp [pollStep, hr, he, hq]

/-- Settles O16: the reset is tested before the error. -/
theorem pollProcessesResetThenError : Obligations.PollProcessesResetThenError := fun _ =>
  ⟨fun hr => exec_poll_of_ok (pollStep_of_reset hr), fun hr he => exec_poll_of_ok (pollStep_of_error hr he)⟩

theorem exec_token (k : TokenKind) (s : State) : exec k.instr s = commit s (dispatchToken k.record s) := by
  cases k <;> rfl

theorem dispatchToken_of_unknown {r : TokenRecord} (h : tokenKind r = none) (s : State) :
    dispatchToken r s = .error .badToken := by
  simp [dispatchToken, h]

theorem applyAction_faulted (a : Action) (s : State) : (applyAction a s).faulted = s.faulted := by
  cases a with
  | setConfig c =>
    rw [applyAction]
    split
    · rw [deconfigure_eq]
    · rw [configure_eq]
  | _ => rfl

/-- A record that is processed without a fault marks none. -/
theorem dispatchToken_faulted {r : TokenRecord} {s t : State} (h : dispatchToken r s = .ok t) :
    t.faulted = s.faulted := by
  rcases dispatchToken_cases h with frame | ⟨_, _, rfl⟩
  · exact frame.faulted
  · exact applyAction_faulted _ s

/-- Settles O17: POLL and the record's own row run the same rule on the popped state, and differ in where a fault is
marked. -/
theorem pollDispatchesOneRecord : Obligations.PollDispatchesOneRecord := by
  intro s hr he hf
  refine ⟨fun hq => exec_poll_of_ok (pollStep_of_empty hr he hq), fun r rest hq hkind => ?_,
    fun r rest k hq hkind => ?_⟩
  · exact exec_poll_of_error hf ((pollStep_of_cons hr he hq).trans (dispatchToken_of_unknown hkind _))
  · have hpoll := pollStep_of_cons hr he hq
    rw [tokenKind_eq_some.mp hkind] at hpoll
    rw [exec_token]
    cases hrule : dispatchToken k.record { s with tokq := rest } with
    | ok u =>
      have hclear : u.faulted = none := (dispatchToken_faulted hrule).trans hf
      refine ⟨u, rfl, fun _ => exec_poll_of_ok (hpoll.trans hrule), fun f hmark => ?_⟩
      rw [hclear] at hmark
      cases hmark
    | error f =>
      refine ⟨_, commit_of_error hf rfl, nofun, fun g hmark => ?_⟩
      cases hmark
      exact exec_poll_of_error hf (hpoll.trans hrule)

/-! ## The checks before a record's rule -/

theorem checkOperational_of_code {s : State} {d : DevState} (h : s.devState = d.code) :
    checkOperational s = if d.operational then .ok () else .error .staleToken := by
  unfold checkOperational
  rw [readDevState_code h]
  rfl

theorem checkOwned_of_hw {e : Entry} {s : State} (h : (s.bd.get e).own = .hw) :
    checkOwned e s = .error .staleToken :=
  if_pos h

/-- Every record's rule starts with the check of the device state (40_device_state.md R128). -/
theorem dispatchToken_of_notOperational {s : State} (h : checkOperational s = .error .staleToken) (k : TokenKind) :
    dispatchToken k.record s = .error .staleToken := by
  have hbind : ∀ rule : Unit → Except Fault State, (checkOperational s >>= rule) = .error .staleToken := by
    intro rule
    rw [h]
    rfl
  cases k <;> exact hbind _

/-- A record of an EP0 entry the SIE owns is stale in every device state. -/
theorem stale_of_owned {s : State} (hknown : s.devState.toNat < 6) {e : Entry} (hown : (s.bd.get e).own = .hw)
    (rule : Except Fault State) :
    (do checkOperational s; checkOwned e s; rule) = .error .staleToken := by
  obtain ⟨d, hd⟩ := known_of_toNat_lt hknown
  rw [checkOperational_of_code hd, checkOwned_of_hw hown]
  cases d.operational <;> rfl

theorem notOperational_of_code_lt {d : DevState} (h : d.code.toNat < 3) : d.operational = false := by
  cases d with
  | detached | attached | powered => rfl
  | default | address | configured => exact absurd h (by decide)

/-- Settles O18: the two checks fail with this fault, before any rule is run. -/
theorem staleTokenIsAModelFault : Obligations.StaleTokenIsAModelFault := by
  intro s hf hknown
  refine ⟨fun hlow k => ?_, fun hown => ⟨?_, ?_⟩, fun hown => ?_⟩
  · obtain ⟨d, hd⟩ := known_of_toNat_lt hknown
    rw [exec_token]
    refine commit_of_error hf (dispatchToken_of_notOperational ?_ k)
    rw [checkOperational_of_code hd, notOperational_of_code_lt (hd ▸ hlow)]
    rfl
  · exact commit_of_error hf (stale_of_owned hknown (e := .ep0Out) hown _)
  · exact commit_of_error hf (stale_of_owned hknown (e := .ep0Out) hown _)
  · exact commit_of_error hf (stale_of_owned hknown (e := .ep0In) hown _)

/-! ## The status stage -/

theorem checkOperational_of_isOperational {s : State} (h : s.isOperational = true) : checkOperational s = .ok () := by
  unfold State.isOperational at h
  split at h
  next hd => rw [checkOperational_of_code ((devState_ofCode_iff _ _).mp hd), if_pos h]
  next => cases h

theorem checkOwned_of_fw {e : Entry} {s : State} (h : (s.bd.get e).own = .fw) : checkOwned e s = .ok () := by
  rw [checkOwned, h]
  rfl

theorem tokenEp0In_of_ready {s : State} (h : TokenReady .ep0In s) : tokenEp0In s = inCompletion s := by
  rw [tokenEp0In, checkOperational_of_isOperational h.operational, checkOwned_of_fw h.owned]
  rfl

theorem inCompletion_of_statusIn {s : State} (h : s.ctx.stage = 3) :
    inCompletion s = .ok (setCtx Ctx.idle (applyAction s.ctx.action s)) := by
  unfold inCompletion
  rw [readStage_code (g := .statusIn) h]
  rfl

theorem exec_tokenEp0In_of_statusIn {s : State} (hready : TokenReady .ep0In s) (hstage : s.ctx.stage = 3) :
    exec .tokenEp0In s = .next (setCtx Ctx.idle (applyAction s.ctx.action s)) := by
  show commit s (tokenEp0In s) = _
  rw [tokenEp0In_of_ready hready, inCompletion_of_statusIn hstage]
  rfl

/-- Settles O19: the action is address apply. -/
theorem statusStageAppliesTheAddress : Obligations.StatusStageAppliesTheAddress := by
  intro s a hready hstage haction
  rw [exec_tokenEp0In_of_statusIn hready hstage, haction]
  rfl

/-- Settles O20: the action is deconfigure for 0 and configure otherwise. -/
theorem statusStageAppliesTheConfiguration : Obligations.StatusStageAppliesTheConfiguration := by
  intro s c hready hstage haction
  rw [exec_tokenEp0In_of_statusIn hready hstage, haction, applyAction]
  refine ⟨fun hc => ?_, fun hc => ?_⟩
  · rw [if_pos hc, deconfigure_eq]
    rfl
  · rw [if_neg hc, configure_eq]
    rfl

end Sys2Proof.Machine
end

section
/-! SUPPORT, and O22, O23, O35-O38. The Control Transfer Handler case by case (41_control_transfer.md R141-R156): what
arming a ready entry leaves, the SETUP record, and the completions of EP0IN and EP0OUT in each stage. -/

namespace Sys2Proof.Machine
open Sys2Proof.Claims

/-! ## Ready entries -/

/-- ARM_RX of an entry the block owns and that is enabled (44_endpoint_buffers.md R201). -/
theorem armRx_of_ready {e : Entry} {s : State} (hown : (s.bd.get e).own = .fw) (hen : (s.bd.get e).en = true) :
    armRx e s = { s with
      bd := s.bd.set e { s.bd.get e with own := .hw, cnt := BitVec.ofNat 11 (bufCap s.params e) } } := by
  have hready : ¬((s.bd.get e).own = .hw ∨ (s.bd.get e).en = false) := by simp [hown, hen]
  rw [armRx, if_neg hready]
  rfl

/-- ARM_RX of an entry the SIE owns (44_endpoint_buffers.md R201). -/
theorem armRx_of_hw {e : Entry} {s : State} (hown : (s.bd.get e).own = .hw) : armRx e s = s := if_pos (.inl hown)

/-- ARM_TX of a packet that fits, on an entry the block owns and that is enabled (44_endpoint_buffers.md R202). -/
theorem armTx_of_ready {e : Entry} {s : State} {data : List Byte} (hown : (s.bd.get e).own = .fw)
    (hen : (s.bd.get e).en = true) (hfit : data.length ≤ bufCap s.params e) :
    armTx e data s = { s with
      bd := s.bd.set e { s.bd.get e with own := .hw, cnt := BitVec.ofNat 11 data.length }
      buf := s.buf.writeBytes (adr s.params e) data } := by
  have hready : txReady e s = true := (txReady_iff e s).mpr ⟨hown, hen⟩
  rw [armTx, if_pos hready, armTxCount, if_pos hready, Nat.min_eq_left hfit, List.take_of_length_le hfit]
  rfl

/-- MemRead of bytes that stand in an entry's buffer (20_memory.md R65). -/
theorem memRead_of_holds {s : State} {e : Entry} {data : List Byte} (hfit : data.length ≤ bufCap s.params e)
    (h : Holds s.buf (adr s.params e) data) : memRead s (.buffer e) data.length = .ok data := by
  have hread : s.buf.readBytes (areaBase s.params (.buffer e)) data.length = some data :=
    Memory.readBytes_of_read _ _ _ h
  rw [memRead, if_neg (show ¬areaSize s.params (.buffer e) < _ from Nat.not_lt.mpr hfit), hread]

theorem stored_writeBytes (m : Memory) (base : Nat) (data : List Byte) : Stored m (m.writeBytes base data) base data :=
  Memory.read_writeBytes data m base

/-! ## The protocol stall -/

/-- The protocol stall with both EP0 entries enabled and EP0OUT the block's (41_control_transfer.md R147). -/
theorem stalled_protocolStall {s : State} (cause : StallCause) (hout : s.bd.ep0Out.en = true)
    (hin : s.bd.ep0In.en = true) (hown : s.bd.ep0Out.own = .fw) :
    Stalled cause s.setupLock s (protocolStall cause s) := by
  have harm : protocolStall cause s = _ := armRx_of_ready (e := .ep0Out) hown hout
  rw [Stalled, harm]
  simp [afterSetup, PerEntry.set, PerEntry.get, setCtx, reclaim, setBd, setEp0Stall, hout, hin]

/-! ## The SETUP record -/

/-- The end of SETUP processing with EP0OUT armed already (41_control_transfer.md R141). -/
theorem endSetup_of_hw {s : State} (hown : s.bd.ep0Out.own = .hw) : endSetup s = { s with setupLock := false } := by
  rw [endSetup, armRx_of_hw (e := .ep0Out) hown]

/-- The stall of a SETUP packet that is not 8 bytes, after the abort of the transfer in progress, whose every change
it overwrites (41_control_transfer.md R141, R142). -/
theorem stalled_malformedSetup {s : State} (h : SetupReady s) : Stalled .malformed false s (malformedSetup s) := by
  have hstall : Stalled .malformed s.setupLock s (protocolStall .malformed (abortTransfer s)) :=
    stalled_protocolStall (s := abortTransfer s) .malformed h.outEnabled h.inEnabled h.outOwned
  rw [malformedSetup, hstall]
  exact endSetup_of_hw rfl

theorem tokenEp0Setup_of_malformed {s : State} (h : SetupReady s) (hcnt : s.bd.ep0Out.cnt ≠ 8) :
    tokenEp0Setup s = .ok (malformedSetup s) := by
  rw [tokenEp0Setup, checkOperational_of_isOperational h.operational, checkOwned_of_fw (e := .ep0Out) h.outOwned]
  exact if_pos hcnt

/-- Settles O23: the stall is the whole effect, and it releases SETUP_LOCK. -/
theorem malformedSetupStalls : Obligations.MalformedSetupStalls := by
  intro s hready hcnt
  refine ⟨malformedSetup s, ?_, stalled_malformedSetup hready⟩
  show commit s (tokenEp0Setup s) = _
  rw [tokenEp0Setup_of_malformed hready hcnt]
  rfl

theorem tokenEp0Setup_of_packet {s : State} {S : SetupWord} (h : SetupReady s) (hcnt : s.bd.ep0Out.cnt = 8)
    (hbytes : Holds s.buf (adr s.params .ep0Out) (setupBytes S)) :
    tokenEp0Setup s = setupStage S (requestRule S) s := by
  have hfit : (setupBytes S).length ≤ bufCap s.params .ep0Out := ((admitted_sizes h.admitted).bufCap_le .ep0Out).1
  have hread : memRead s (.buffer .ep0Out) 8 = .ok (setupBytes S) := memRead_of_holds hfit hbytes
  rw [tokenEp0Setup, checkOperational_of_isOperational h.operational, checkOwned_of_fw (e := .ep0Out) h.outOwned]
  refine (if_neg (not_not.mpr hcnt)).trans ?_
  rw [hread]
  show setupStage (BitVec.ofNat 64 (littleEndian (setupBytes S))) _ s = _
  rw [littleEndian_setupBytes]

/-- A request's row is the SETUP stage of the packet its operands assemble to, under the rule dispatch finds
(41_control_transfer.md R143; log 15). -/
theorem exec_decodeRequest (S : SetupWord) (s : State) :
    exec (decodeRequest S) s = commit s (setupStage S (requestRule S) s) := by
  have hpacket := (encode_decodeRequest S).2
  cases hkind : requestKind (requestKey S)
  all_goals
    simp only [decodeRequest, hkind, encode, Wire.setup.injEq] at hpacket
    simp only [decodeRequest, hkind, exec, execGetStatus, execSetAddress, execGetDescriptor, execGetConfiguration,
      execSetConfiguration, execGetInterface, execSetInterface, execStdUnsupported, execSetLineCoding,
      execGetLineCoding, execSetControlLineState, execClassOther, execVendor, execReservedType, hpacket, setupStage,
      requestRule]

/-! ## arm_next_in -/

theorem armNextIn_of_remain {s : State} (hremain : s.ctx.remain ≠ 0) {k : Nat}
    (hk : k = min s.params.ep0Mps s.ctx.remain.toNat)
    (hleft : s.ctx.off.toNat + s.ctx.remain.toNat ≤ s.ctx.resp.length) :
    armNextIn s = .ok (setCtx { s.ctx with
      off := s.ctx.off + BitVec.ofNat 16 k, remain := s.ctx.remain - BitVec.ofNat 16 k }
      (armTx .ep0In ((s.ctx.resp.drop s.ctx.off.toNat).take k) s), true) := by
  have hpos : 0 < s.ctx.remain.toNat := Nat.pos_of_ne_zero fun h => hremain (BitVec.eq_of_toNat_eq h)
  have hslice : respSlice s.ctx k = .ok ((s.ctx.resp.drop s.ctx.off.toNat).take k) := if_pos (by omega)
  rw [armNextIn, if_pos hpos, ← hk]
  dsimp only
  rw [hslice]
  show Except.ok (setCtx _ _, true) = _
  rw [armTx_ctx]

theorem armNextIn_of_zlp {s : State} (hremain : s.ctx.remain = 0) (hzlp : s.ctx.zlpPend = true) :
    armNextIn s = .ok (setCtx { s.ctx with zlpPend := false } (armTx .ep0In [] s), true) := by
  have hnone : ¬0 < s.ctx.remain.toNat := by simp [hremain]
  rw [armNextIn, if_neg hnone, if_pos hzlp]
  show Except.ok (setCtx _ _, true) = _
  rw [armTx_ctx]

theorem armNextIn_of_done {s : State} (hremain : s.ctx.remain = 0) (hzlp : s.ctx.zlpPend = false) :
    armNextIn s = .ok (s, false) := by
  have hnone : ¬0 < s.ctx.remain.toNat := by simp [hremain]
  rw [armNextIn, if_neg hnone, if_neg (by simp [hzlp])]

/-- arm_next_in() meets no fault where what is left of RESP is inside it (41_control_transfer.md R149). -/
theorem armNextIn_ok_of_left {s : State} (hleft : s.ctx.off.toNat + s.ctx.remain.toNat ≤ s.ctx.resp.length) :
    ∃ p, armNextIn s = .ok p := by
  by_cases hremain : s.ctx.remain = 0
  · cases hzlp : s.ctx.zlpPend with
    | true => exact ⟨_, armNextIn_of_zlp hremain hzlp⟩
    | false => exact ⟨_, armNextIn_of_done hremain hzlp⟩
  · exact ⟨_, armNextIn_of_remain hremain rfl hleft⟩

/-! ## The request a SETUP record runs -/

/-- The context in which a control read of `bytes` arms its first packet (41_control_transfer.md R146). -/
def responseCtx (p : Params) (bytes : List Byte) (c : Ctx) : Ctx :=
  { c with
    resp := bytes.take (wLength c.setup).toNat
    off := 0
    remain := BitVec.ofNat 16 (bytes.take (wLength c.setup).toNat).length
    zlpPend := zlpPending p (bytes.take (wLength c.setup).toNat).length (wLength c.setup).toNat
    stage := 1 }

theorem applyDataIn_of_armNextIn {bytes : List Byte} {s t : State} {armed : Bool}
    (hlength : (wLength s.ctx.setup).toNat ≠ 0)
    (h : armNextIn (setCtx (responseCtx s.params bytes s.ctx) s) = .ok (t, armed)) : applyDataIn bytes s = .ok t := by
  refine (if_neg hlength).trans ?_
  show armNextIn (setCtx (responseCtx s.params bytes s.ctx) s) >>= _ = _
  rw [h]
  rfl

/-- No result meets a fault: a control read starts at the first byte of its response, and REMAIN counts no more bytes
than it has (41_control_transfer.md R144-R149). -/
theorem applyResult_total (r : RequestResult) (s : State) : ∃ t, applyResult r s = .ok t := by
  cases r with
  | stall | noData | dataOut => exact ⟨_, rfl⟩
  | dataIn bytes =>
    by_cases hlength : (wLength s.ctx.setup).toNat = 0
    · exact ⟨_, if_pos hlength⟩
    · have hremain (resp : List Byte) : (0#16).toNat + (BitVec.ofNat 16 resp.length).toNat ≤ resp.length := by
        simpa using Nat.mod_le resp.length 65536
      obtain ⟨⟨t, armed⟩, harm⟩ :=
        armNextIn_ok_of_left (s := setCtx (responseCtx s.params bytes s.ctx) s) (hremain _)
      exact ⟨t, applyDataIn_of_armNextIn hlength harm⟩

theorem setupStage_total {S : SetupWord} {rule : State → Except Fault RequestResult} {s : State}
    (hrule : ∃ r, rule (latchSetup S (abortTransfer s)) = .ok r) : ∃ t, setupStage S rule s = .ok t := by
  obtain ⟨r, hr⟩ := hrule
  obtain ⟨t, ht⟩ := applyResult_total r (latchSetup S (abortTransfer s))
  refine ⟨endSetup t, ?_⟩
  rw [setupStage, hr]
  show applyResult r (latchSetup S (abortTransfer s)) >>= _ = _
  rw [ht]
  rfl

/-- Settles O22: the record reads S from the buffer, and the row S decodes to runs the same stage. -/
theorem setupRecordRunsItsRequest : Obligations.SetupRecordRunsItsRequest := by
  intro s S hready hclear hcnt hbytes
  obtain ⟨r, hr, _⟩ := requestRule_ok (s := latchSetup S (abortTransfer s)) S hready.admitted hready.operational
  obtain ⟨t, ht⟩ := setupStage_total ⟨r, hr⟩
  refine ⟨decodeRequest S, t, rfl, ?_, ?_, (ep0Frame_setupStage ht).faulted.trans hclear⟩
  · show commit s (tokenEp0Setup s) = _
    rw [tokenEp0Setup_of_packet hready hcnt hbytes, ht]
    rfl
  · rw [exec_decodeRequest, ht]
    rfl

/-! ## EP0IN completions -/

theorem exec_tokenEp0In_of_ok {s t : State} (hready : TokenReady .ep0In s) (h : inCompletion s = .ok t) :
    exec .tokenEp0In s = .next t := by
  show commit s (tokenEp0In s) = _
  rw [tokenEp0In_of_ready hready, h]
  rfl

theorem inCompletion_of_dataIn {s t : State} {armed : Bool} (hstage : s.ctx.stage = 1)
    (h : armNextIn s = .ok (t, armed)) :
    inCompletion s = .ok (if armed then t else setCtx { t.ctx with stage := 4 } t) := by
  rw [inCompletion, readStage_code (g := .dataIn) hstage]
  show armNextIn s >>= _ = _
  rw [h]
  rfl

theorem exec_tokenEp0In_of_armed {s t : State} (hready : TokenReady .ep0In s) (hstage : s.ctx.stage = 1)
    (h : armNextIn s = .ok (t, true)) : exec .tokenEp0In s = .next t :=
  exec_tokenEp0In_of_ok hready (inCompletion_of_dataIn hstage h)

theorem inCompletion_of_quiet {s : State} (hstage : s.ctx.stage = 0 ∨ s.ctx.stage = 2 ∨ s.ctx.stage = 4) :
    inCompletion s = .ok s := by
  rw [inCompletion]
  rcases hstage with hstage | hstage | hstage
  · rw [readStage_code (g := .idle) hstage]; rfl
  · rw [readStage_code (g := .dataOut) hstage]; rfl
  · rw [readStage_code (g := .statusOut) hstage]; rfl

/-- Settles O35: the three answers of arm_next_in(), whose packets fit the EP0IN buffer. -/
theorem dataInCompletionArmsTheNextPacket : Obligations.DataInCompletionArmsTheNextPacket := by
  intro s hready hstage hleft k packet
  have hcap : bufCap s.params .ep0In = s.params.ep0Mps := (admitted_sizes hready.admitted).bufCap_eq .ep0In
  have hk : k = min s.params.ep0Mps s.ctx.remain.toNat := rfl
  clear_value k
  refine ⟨fun hremain => ?_, fun hremain hzlp => ?_, fun hremain hzlp => ?_⟩
  · have hlen : ((s.ctx.resp.drop s.ctx.off.toNat).take k).length = k := by
      rw [List.length_take, List.length_drop]
      omega
    have hnext := exec_tokenEp0In_of_armed hready hstage (armNextIn_of_remain hremain hk hleft.le)
    rw [armTx_of_ready hready.owned hready.enabled (by omega), hlen] at hnext
    exact ⟨_, hnext, rfl, stored_writeBytes _ _ _⟩
  · have hnext := exec_tokenEp0In_of_armed hready hstage (armNextIn_of_zlp hremain hzlp)
    rw [armTx_of_ready hready.owned hready.enabled (Nat.zero_le _)] at hnext
    exact hnext
  · exact exec_tokenEp0In_of_ok hready (inCompletion_of_dataIn hstage (armNextIn_of_done hremain hzlp))

/-- Settles O36: the data endpoints' records pass the check of the device state and do nothing more. -/
theorem recordsThatChangeNothing : Obligations.RecordsThatChangeNothing := by
  refine ⟨fun s hready hstage => exec_tokenEp0In_of_ok hready (inCompletion_of_quiet hstage), fun s hop => ?_⟩
  have hcheck : commit s (checkOperational s >>= fun _ => .ok s) = .next s := by
    rw [checkOperational_of_isOperational hop]
    rfl
  exact ⟨hcheck, hcheck, hcheck⟩

/-! ## EP0OUT completions -/

theorem exec_tokenEp0Out_of_ok {s t : State} (hready : TokenReady .ep0Out s) (h : outCompletion s = .ok t) :
    exec .tokenEp0Out s = .next t := by
  show commit s (tokenEp0Out s) = _
  rw [tokenEp0Out, checkOperational_of_isOperational hready.operational, checkOwned_of_fw hready.owned]
  show commit s (outCompletion s) = _
  rw [h]
  rfl

theorem outCompletion_of_statusOut {s : State} (hstage : s.ctx.stage = 4) :
    outCompletion s = .ok (armRx .ep0Out (setCtx Ctx.idle s)) := by
  rw [outCompletion, readStage_code (g := .statusOut) hstage]
  rfl

theorem outCompletion_of_dataIn {s : State} (hstage : s.ctx.stage = 1) :
    outCompletion s = .ok (armRx .ep0Out (setCtx Ctx.idle (reclaim .ep0In s))) := by
  rw [outCompletion, readStage_code (g := .dataIn) hstage]
  rfl

theorem outCompletion_of_quiet {s : State} (hstage : s.ctx.stage = 0 ∨ s.ctx.stage = 3) :
    outCompletion s = .ok (armRx .ep0Out s) := by
  rw [outCompletion]
  rcases hstage with hstage | hstage
  · rw [readStage_code (g := .idle) hstage]; rfl
  · rw [readStage_code (g := .statusIn) hstage]; rfl

theorem outCompletion_of_dataOut {s : State} (hstage : s.ctx.stage = 2) : outCompletion s = outDataCompletion s := by
  rw [outCompletion, readStage_code (g := .dataOut) hstage]
  rfl

/-- An answer that ends in ARM_RX of EP0OUT, which the rest of it left the block's and enabled. -/
theorem exec_tokenEp0Out_of_armed {s u : State} (hready : TokenReady .ep0Out s)
    (h : outCompletion s = .ok (armRx .ep0Out u)) (hkept : u.bd.ep0Out = s.bd.ep0Out) :
    exec .tokenEp0Out s = .next { u with bd := ep0OutArmed u } := by
  have hown : u.bd.ep0Out.own = .fw := by rw [hkept]; exact hready.owned
  have hen : u.bd.ep0Out.en = true := by rw [hkept]; exact hready.enabled
  rw [armRx_of_ready (e := .ep0Out) hown hen] at h
  exact exec_tokenEp0Out_of_ok hready h

/-- Settles O38: each of the other stages ends by arming EP0OUT. -/
theorem outCompletionElsewhereRearms : Obligations.OutCompletionElsewhereRearms := fun _ hready =>
  ⟨fun hstage => exec_tokenEp0Out_of_armed hready (outCompletion_of_statusOut hstage) rfl,
    fun hstage => exec_tokenEp0Out_of_armed hready (outCompletion_of_dataIn hstage) rfl,
    fun hstage => exec_tokenEp0Out_of_armed hready (outCompletion_of_quiet hstage) rfl⟩

/-! ## The bytes of OUTBUF -/

theorem getLsbD_lowByteMask (m : Nat) : (255#56).getLsbD m = decide (m < 8) := by
  show ((BitVec.allOnes 8).setWidth 56).getLsbD m = _
  rw [BitVec.getLsbD_setWidth, BitVec.getLsbD_allOnes]
  by_cases h : m < 8
  · simp [h]
    omega
  · simp [h]

/-- Replacing one byte of OUTBUF leaves the others. -/
theorem outBufByte_outBufPut (ob : BitVec 56) (b : Byte) {i j : Nat} (hj : j < 7) :
    outBufByte (outBufPut ob i b) j = if j = i then b else outBufByte ob j := by
  unfold outBufByte outBufPut
  ext m hm
  have hin : 8 * j + m < 56 := by omega
  simp only [BitVec.getElem_extractLsb', BitVec.getLsbD_or, BitVec.getLsbD_and, BitVec.getLsbD_not,
    BitVec.getLsbD_shiftLeft, BitVec.getLsbD_setWidth, getLsbD_lowByteMask, hin, decide_true, Bool.true_and]
  rcases lt_trichotomy j i with hlt | rfl | hgt
  · have hbelow : 8 * j + m < 8 * i := by omega
    simp [hbelow, hlt.ne, BitVec.getElem_extractLsb']
  · have hwide : m < 56 := by omega
    simp [hm, hwide]
  · have hnotBelow : ¬8 * j + m < 8 * i := by omega
    have habove : 8 ≤ 8 * j + m - 8 * i := by omega
    simp [hnotBelow, habove, hgt.ne', BitVec.getElem_extractLsb', BitVec.getLsbD_of_ge]

theorem outBufByte_outBufStore (data : List Byte) : ∀ (ob : BitVec 56) (n : Nat) {j : Nat}, j < 7 →
    some (outBufByte (outBufStore ob n data) j) =
      if n ≤ j ∧ j < n + data.length then data[j - n]? else some (outBufByte ob j) := by
  induction data with
  | nil => intro ob n j _; rw [outBufStore, if_neg (by simp)]
  | cons b bs ih =>
    intro ob n j hj
    rw [outBufStore, ih _ _ hj, outBufByte_outBufPut ob b hj, List.length_cons]
    by_cases hfirst : j = n
    · subst hfirst
      rw [if_neg (by omega), if_pos rfl, if_pos (by omega)]
      simp
    · by_cases hlater : n + 1 ≤ j ∧ j < n + 1 + bs.length
      · rw [if_pos hlater, if_pos (by omega), show j - n = (j - (n + 1)) + 1 by omega]
        rfl
      · rw [if_neg hlater, if_neg hfirst, if_neg (by omega)]

/-! ## The OUT data stage -/

/-- The context once `data` has gone to OUTBUF (41_control_transfer.md R153). -/
def collected (c : Ctx) (data : List Byte) : Ctx :=
  { c with
    outBuf := outBufStore c.outBuf c.outCnt.toNat data
    outCnt := c.outCnt + BitVec.ofNat 3 data.length
    remain := c.remain - BitVec.ofNat 16 data.length }

theorem storeOutData_of_fits {c : Ctx} {data : List Byte} (hfit : c.outCnt.toNat + data.length ≤ 7) :
    storeOutData c data = .ok (collected c data) := if_pos hfit

theorem collected_remain_toNat {c : Ctx} {data : List Byte} (hlen : data.length ≤ c.remain.toNat) :
    (collected c data).remain.toNat = c.remain.toNat - data.length := by
  have hbound := c.remain.isLt
  have hlength : (BitVec.ofNat 16 data.length).toNat = data.length := toNat_ofNat_le hlen hbound
  rw [collected, BitVec.toNat_sub_of_le (by rw [BitVec.le_def, hlength]; exact hlen), hlength]

/-- The completion in DataOut once the packet's bytes are in OUTBUF (41_control_transfer.md R153). -/
theorem outDataCompletion_of_bytes {s : State} {data : List Byte}
    (hread : memRead s (.buffer .ep0Out) (min s.bd.ep0Out.cnt.toNat s.ctx.remain.toNat) = .ok data)
    (hfit : s.ctx.outCnt.toNat + data.length ≤ 7) :
    outDataCompletion s = .ok (
      if (collected s.ctx data).remain.toNat = 0 then
        armRx .ep0Out (armTx .ep0In [] (setCtx { collected s.ctx data with stage := 3 } s))
      else if s.bd.ep0Out.cnt.toNat < s.params.ep0Mps then
        protocolStall .shortData (setCtx (collected s.ctx data) s)
      else armRx .ep0Out (setCtx (collected s.ctx data) s)) := by
  rw [outDataCompletion]
  dsimp only
  rw [hread]
  show storeOutData s.ctx data >>= _ = _
  rw [storeOutData_of_fits hfit]
  show ite _ _ _ = _
  split_ifs <;> rfl

/-- The zero-length status packet armed on EP0IN, and EP0OUT armed (41_control_transfer.md R153). -/
theorem armRx_armTx_nil_of_ready {s : State} (houtOwn : s.bd.ep0Out.own = .fw)
    (houtEn : s.bd.ep0Out.en = true) (hinOwn : s.bd.ep0In.own = .fw) (hinEn : s.bd.ep0In.en = true) :
    armRx .ep0Out (armTx .ep0In [] s) = { s with
      bd := { ep0OutArmed s with ep0In := { s.bd.ep0In with own := .hw, cnt := 0 } } } := by
  rw [armTx_of_ready (e := .ep0In) (data := []) hinOwn hinEn (Nat.zero_le _)]
  exact armRx_of_ready (e := .ep0Out) houtOwn houtEn

/-- Settles O37: the bytes are collected, and what is left of REMAIN decides among the three ends. -/
theorem dataOutCompletionCollectsBytes : Obligations.DataOutCompletionCollectsBytes := by
  intro s data hready hinEn hinOwn hstage hseven hcnt hlen hbytes
  have hread : memRead s (.buffer .ep0Out) (min s.bd.ep0Out.cnt.toNat s.ctx.remain.toNat) = .ok data :=
    hlen ▸ memRead_of_holds (by omega) hbytes
  have hstored : outCompletion s = _ :=
    (outCompletion_of_dataOut hstage).trans (outDataCompletion_of_bytes hread (by omega))
  have hremain := collected_remain_toNat (c := s.ctx) (data := data) (by omega)
  refine ⟨_, _, exec_tokenEp0Out_of_ok hready hstored, fun j hj => outBufByte_outBufStore data s.ctx.outBuf _ hj,
    fun hall => ?_, fun hmore hshort => ?_, fun hmore hfull => ?_⟩
  · rw [if_pos (by omega)]
    exact armRx_armTx_nil_of_ready hready.owned hready.enabled hinOwn hinEn
  · rw [if_neg (by omega), if_pos hshort]
    exact stalled_protocolStall .shortData hready.enabled hinEn hready.owned
  · rw [if_neg (by omega), if_neg (Nat.not_lt.mpr hfull)]
    exact armRx_of_ready (e := .ep0Out) hready.owned hready.enabled

end Sys2Proof.Machine
end

section
/-! SUPPORT. What a SETUP stage leaves for each result of a request rule (41_control_transfer.md R141-R149). -/

namespace Sys2Proof.Machine
open Sys2Proof.Claims

/-! ## The state a rule reads -/

/-- The state in which the rule of packet S reads its operands: the transfer in progress aborted, S latched
(41_control_transfer.md R141). -/
def latched (S : SetupWord) (s : State) : State := setCtx (freshCtx S) (abortTransfer s)

theorem direction_beq_one (S : SetupWord) : (direction S == 1) = S.getLsbD 7 := by
  have hbit : direction S = BitVec.ofBool (S.getLsbD 7) := by
    unfold direction
    ext i hi
    obtain rfl : i = 0 := by omega
    simp
  rw [hbit]
  cases S.getLsbD 7 <;> rfl

theorem latchSetup_abortTransfer (S : SetupWord) (s : State) : latchSetup S (abortTransfer s) = latched S s := by
  rw [latchSetup, direction_beq_one]
  rfl

/-! ## The ends of a SETUP stage -/

/-- What the SETUP stage of packet S leaves, result by result (41_control_transfer.md R145-R148). -/
def ResultApplied (S : SetupWord) (s t : State) : RequestResult → Prop
  | .stall cause => Stalled cause false s t
  | .noData action => NoDataStage S action s t
  | .dataIn bytes => DataInStage S bytes s t
  | .dataOut n action => DataOutStage S n action s t

/-- The end of SETUP processing with EP0OUT the block's (41_control_transfer.md R141). -/
theorem endSetup_of_ready {u : State} (hown : u.bd.ep0Out.own = .fw) (hen : u.bd.ep0Out.en = true) :
    endSetup u = { u with bd := ep0OutArmed u, setupLock := false } := by
  have harm : armRx .ep0Out u = { u with bd := ep0OutArmed u } := armRx_of_ready (e := .ep0Out) hown hen
  rw [endSetup, harm]

section
variable {s : State} (h : SetupReady s) (c : Ctx)
include h

/-- A protocol stall, and then the end of SETUP processing (41_control_transfer.md R147). -/
theorem stalled_endSetup (cause : StallCause) :
    Stalled cause false s (endSetup (protocolStall cause (setCtx c (abortTransfer s)))) := by
  have hstall : Stalled cause s.setupLock (setCtx c (abortTransfer s))
      (protocolStall cause (setCtx c (abortTransfer s))) :=
    stalled_protocolStall (s := setCtx c (abortTransfer s)) cause h.outEnabled h.inEnabled h.outOwned
  rw [hstall, endSetup_of_hw rfl]
  simp [Stalled, afterSetup, abortTransfer, setEp0Stall, reclaim, PerEntry.set]

/-- The end of SETUP processing with context c and nothing armed on EP0IN (41_control_transfer.md R148). -/
theorem endSetup_setCtx : endSetup (setCtx c (abortTransfer s)) = { s with
    bd := afterSetup s false .fw 0
    ctx := c
    stallCause := .none
    setupLock := false } := by
  rw [endSetup_of_ready (u := setCtx c (abortTransfer s)) h.outOwned h.outEnabled]
  simp [afterSetup, ep0OutArmed, abortTransfer, setEp0Stall, reclaim, PerEntry.set, PerEntry.get, h.outEnabled,
    h.inEnabled]

/-- The end of SETUP processing with context c and a packet armed on EP0IN (41_control_transfer.md R145, R146). -/
theorem endSetup_armTx {data : List Byte} (hfit : data.length ≤ bufCap s.params .ep0In) :
    endSetup (setCtx c (armTx .ep0In data (abortTransfer s))) = { s with
      bd := afterSetup s false .hw data.length
      ctx := c
      stallCause := .none
      setupLock := false
      buf := s.buf.writeBytes (adr s.params .ep0In) data } := by
  have hkept := armTx_ep0Out data (abortTransfer s)
  rw [endSetup_of_ready (u := setCtx c (armTx .ep0In data (abortTransfer s)))
      (by rw [setCtx_bd, hkept]; exact h.outOwned) (by rw [setCtx_bd, hkept]; exact h.outEnabled),
    armTx_of_ready (e := .ep0In) (s := abortTransfer s) rfl h.inEnabled hfit]
  simp [afterSetup, ep0OutArmed, abortTransfer, setEp0Stall, reclaim, PerEntry.set, PerEntry.get, h.outEnabled,
    h.inEnabled]

end

/-! ## Each result applied -/

theorem armTx_setCtx (e : Entry) (data : List Byte) (c : Ctx) (s : State) :
    armTx e data (setCtx c s) = setCtx c (armTx e data s) := by
  rw [armTx, armTx, show txReady e (setCtx c s) = txReady e s from rfl]
  split <;> rfl

theorem setCtx_setCtx (c c' : Ctx) (s : State) : setCtx c (setCtx c' s) = setCtx c s := rfl

theorem noDataStage_endSetup {s : State} (h : SetupReady s) (S : SetupWord) (action : Action) :
    NoDataStage S action s (endSetup (applyNoData action (latched S s))) := by
  rw [NoDataStage, applyNoData, latched, setCtx_setCtx, armTx_setCtx, endSetup_armTx h _ (Nat.zero_le _)]
  rfl

theorem dataOutStage_endSetup {s : State} (h : SetupReady s) (S : SetupWord) (n : BitVec 16) (action : Action) :
    DataOutStage S n action s (endSetup (applyDataOut n action (latched S s))) :=
  endSetup_setCtx h { freshCtx S with stage := 2, remain := n, outCnt := 0, action := action }

/-- The context of a control read that answers `resp` to packet S, once its first packet is armed
(41_control_transfer.md R146, R149). -/
def firstPacketCtx (p : Params) (S : SetupWord) (resp : List Byte) : Ctx :=
  let k := min p.ep0Mps resp.length
  { freshCtx S with
    stage := 1
    resp := resp
    off := BitVec.ofNat 16 k
    remain := BitVec.ofNat 16 (resp.length - k)
    zlpPend := decide (resp ≠ [] ∧ resp.length < (wLength S).toNat ∧ resp.length % p.ep0Mps = 0) }

theorem zlpPending_zero {p : Params} {w : Nat} (hw : w ≠ 0) : zlpPending p 0 w = true := by
  simp [zlpPending, Nat.pos_of_ne_zero hw]

theorem zlpPending_of_ne_nil {p : Params} {w : Nat} {resp : List Byte} (h : resp ≠ []) :
    zlpPending p resp.length w = decide (resp ≠ [] ∧ resp.length < w ∧ resp.length % p.ep0Mps = 0) :=
  Bool.eq_iff_iff.mpr (by simp [zlpPending, h])

/-- A control read arms the first EP0_MPS bytes of its response, of an empty response the zero-length packet
(41_control_transfer.md R146, R149). -/
theorem applyDataIn_latched {S : SetupWord} {s : State} {bytes resp : List Byte} (hlength : (wLength S).toNat ≠ 0)
    (hresp : resp = bytes.take (wLength S).toNat) :
    applyDataIn bytes (latched S s) = .ok (setCtx (firstPacketCtx s.params S resp)
      (armTx .ep0In (resp.take (min s.params.ep0Mps resp.length)) (abortTransfer s))) := by
  refine applyDataIn_of_armNextIn (armed := true) hlength ?_
  have hcut : resp.length ≤ (wLength S).toNat := hresp ▸ List.length_take_le _ _
  have hremain : (BitVec.ofNat 16 resp.length).toNat = resp.length := toNat_ofNat_le hcut (wLength S).isLt
  have hctx : responseCtx s.params bytes (latched S s).ctx = { freshCtx S with
      resp := resp, off := 0, remain := BitVec.ofNat 16 resp.length
      zlpPend := zlpPending s.params resp.length (wLength S).toNat, stage := 1 } := by
    rw [hresp]
    rfl
  rw [show (latched S s).params = s.params from rfl, hctx, latched, setCtx_setCtx]
  by_cases hempty : resp = []
  · subst hempty
    rw [armNextIn_of_zlp rfl (zlpPending_zero hlength), armTx_setCtx, setCtx_setCtx]
    simp [firstPacketCtx]
  · have hne : BitVec.ofNat 16 resp.length ≠ 0 := fun h => by
      rw [h] at hremain
      exact hempty (List.eq_nil_of_length_eq_zero hremain.symm)
    rw [armNextIn_of_remain (k := min s.params.ep0Mps resp.length) hne (by rw [setCtx_ctx, hremain]; rfl)
      (by simp [hremain]), armTx_setCtx, setCtx_setCtx]
    have hk : min s.params.ep0Mps resp.length ≤ resp.length := Nat.min_le_right _ _
    have hrest := BitVec.ofNat_sub_ofNat_of_le (w := 16) resp.length (min s.params.ep0Mps resp.length)
      (lt_of_le_of_lt (hk.trans hcut) (wLength S).isLt) hk
    have hoff : (0 : BitVec 16) + BitVec.ofNat 16 (min s.params.ep0Mps resp.length) = _ := BitVec.zero_add _
    simp only [setCtx_ctx, hrest, zlpPending_of_ne_nil hempty, hoff]
    rfl

theorem dataInStage_endSetup {s : State} (h : SetupReady s) {S : SetupWord} {bytes : List Byte} {t : State}
    (ht : applyDataIn bytes (latched S s) = .ok t) : DataInStage S bytes s (endSetup t) := by
  unfold DataInStage
  dsimp only
  split_ifs with hlength
  · obtain rfl : applyNoData .noAction (latched S s) = t := Except.ok.inj ((if_pos hlength).symm.trans ht)
    exact noDataStage_endSetup h S .noAction
  · rw [applyDataIn_latched hlength rfl] at ht
    obtain rfl := Except.ok.inj ht
    have hcap : bufCap s.params .ep0In = s.params.ep0Mps := (admitted_sizes h.admitted).bufCap_eq .ep0In
    generalize bytes.take (wLength S).toNat = resp
    have hpacket : (resp.take (min s.params.ep0Mps resp.length)).length = min s.params.ep0Mps resp.length := by
      simp
    rw [endSetup_armTx h _ (by rw [hpacket, hcap]; exact Nat.min_le_left _ _), hpacket]
    exact ⟨rfl, stored_writeBytes _ _ _⟩

theorem applyResult_latched {s : State} (h : SetupReady s) (S : SetupWord) (r : RequestResult) :
    ∃ t, applyResult r (latched S s) = .ok t ∧ ResultApplied S s (endSetup t) r := by
  obtain ⟨t, ht⟩ := applyResult_total r (latched S s)
  refine ⟨t, ht, ?_⟩
  cases r with
  | stall cause =>
    obtain rfl := Except.ok.inj ht
    exact stalled_endSetup h (freshCtx S) cause
  | noData action =>
    obtain rfl := Except.ok.inj ht
    exact noDataStage_endSetup h S action
  | dataIn bytes => exact dataInStage_endSetup h ht
  | dataOut n action =>
    obtain rfl := Except.ok.inj ht
    exact dataOutStage_endSetup h S n action

theorem exists_commit_eq_next (s : State) (r : Except Fault State) : ∃ t, commit s r = .next t := by
  cases r <;> exact ⟨_, rfl⟩

/-- A request's row gives a next state, the one its rule's result leaves (41_control_transfer.md R141, R144). -/
theorem setupStage_answers {s : State} (h : SetupReady s) (S : SetupWord)
    (rule : SetupWord → State → Except Fault RequestResult) :
    ∃ t, commit s (setupStage S (rule S) s) = .next t ∧
      ∀ r, rule S (latched S s) = .ok r → ResultApplied S s t r := by
  obtain ⟨t, ht⟩ := exists_commit_eq_next s (setupStage S (rule S) s)
  refine ⟨t, ht, fun r hr => ?_⟩
  obtain ⟨u, hu, happlied⟩ := applyResult_latched h S r
  have hstage : setupStage S (rule S) s = .ok (endSetup u) := by
    rw [setupStage, latchSetup_abortTransfer, hr]
    show applyResult r (latched S s) >>= _ = _
    rw [hu]
    rfl
  rw [hstage] at ht
  exact Host.Outcome.next.inj ht ▸ happlied

end Sys2Proof.Machine
end

section
/-! SUPPORT, and O24-O30. The rules of the standard requests, an equation per case (42_standard_requests.md R171-R178),
and what each request therefore leaves. -/

namespace Sys2Proof.Machine
open Sys2Proof.Claims

/-! ## The device state and the interface -/

theorem operational_cases {d : DevState} (h : d.operational = true) :
    d = .default ∨ d = .address ∨ d = .configured := by
  cases d with
  | detached | attached | powered => cases h
  | default | address | configured => simp

/-- The device state of a SETUP packet, and the codes 3 and 5 the rules ask for (40_device_state.md R128). -/
theorem SetupReady.known {s : State} (h : SetupReady s) : ∃ d : DevState, s.devState = d.code ∧
    (s.devState = 3 ↔ d = .default) ∧ (s.devState = 5 ↔ d = .configured) ∧
    (d = .default ∨ d = .address ∨ d = .configured) := by
  have hop := h.operational
  unfold State.isOperational at hop
  split at hop
  next d hd =>
    have hcode := (devState_ofCode_iff _ _).mp hd
    refine ⟨d, hcode, ?_, ?_, operational_cases hop⟩ <;> rw [hcode] <;> cases d <;> decide
  next => cases hop

theorem knownInterface_iff {p : Params} {x : Word16} :
    knownInterface p x = true ↔ x.extractLsb' 0 8 = p.commIf ∨ x.extractLsb' 0 8 = p.dataIf := by
  simp [knownInterface, indexLow]

/-- The checks GET_STATUS, GET_INTERFACE and SET_INTERFACE share before they answer r
(42_standard_requests.md R171, R176, R177). -/
def onKnownInterface (p : Params) (d : DevState) (x : Word16) (r : RequestResult) : RequestResult :=
  if d ≠ .configured then .stall .badState else if !knownInterface p x then .stall .outOfRange else r

section
variable {p : Params} {d : DevState} {x : Word16} {r : RequestResult}

theorem onKnownInterface_of_unconfigured (hd : d ≠ .configured) : onKnownInterface p d x r = .stall .badState :=
  if_pos hd

theorem onKnownInterface_of_unknown (hd : d = .configured)
    (hx : ¬(x.extractLsb' 0 8 = p.commIf ∨ x.extractLsb' 0 8 = p.dataIf)) :
    onKnownInterface p d x r = .stall .outOfRange := by
  rw [← knownInterface_iff, Bool.not_eq_true] at hx
  rw [onKnownInterface, if_neg (not_not.mpr hd), hx]
  rfl

theorem onKnownInterface_of_known (hd : d = .configured)
    (hx : x.extractLsb' 0 8 = p.commIf ∨ x.extractLsb' 0 8 = p.dataIf) : onKnownInterface p d x r = r := by
  rw [onKnownInterface, if_neg (not_not.mpr hd), knownInterface_iff.mpr hx]
  rfl

end

section
variable {bm : Byte} {v x l : Word16} {u : State} {d : DevState}

/-! ## GET_STATUS (42_standard_requests.md R171) -/

theorem getStatusRule_of_device {recip : BitVec 5} (hr : recip = 0) :
    getStatusRule (setupWord (requestType 1 0 recip) 0x00 v x l) u = .ok (.dataIn [0x00, 0x00]) := by
  rw [getStatusRule, recipient_setupWord, hr]
  rfl

theorem getStatusRule_of_interface {recip : BitVec 5} (hd : u.devState = d.code) (hr : recip = 1) :
    getStatusRule (setupWord (requestType 1 0 recip) 0x00 v x l) u =
      .ok (onKnownInterface u.params d x (.dataIn [0x00, 0x00])) := by
  rw [getStatusRule, recipient_setupWord, hr, readDevState_code hd, wIndex_setupWord]
  rfl

theorem getStatusRule_of_endpoint {recip : BitVec 5} (hd : u.devState = d.code) (hr : recip = 2) :
    getStatusRule (setupWord (requestType 1 0 recip) 0x00 v x l) u = .ok (endpointStatus u d x) := by
  rw [getStatusRule, recipient_setupWord, hr, readDevState_code hd, wIndex_setupWord]
  rfl

theorem getStatusRule_of_other {recip : BitVec 5} (hr : 3 ≤ recip.toNat) :
    getStatusRule (setupWord (requestType 1 0 recip) 0x00 v x l) u = .ok (.stall .unsupported) := by
  rw [getStatusRule, recipient_setupWord]
  split
  case h_4 => rfl
  all_goals omega

theorem epmap_of_ep0 {a : Byte} (h : a ∈ [0x00#8, 0x80]) : ∃ e, epmap a = some e ∧ dataEntry e = false := by
  simp only [List.mem_cons, List.not_mem_nil, or_false] at h
  rcases h with rfl | rfl
  · exact ⟨.ep0Out, rfl, rfl⟩
  · exact ⟨.ep0In, rfl, rfl⟩

theorem epmap_of_data {a : Byte} (h : a ∈ [0x81#8, 0x02, 0x82]) : ∃ e, epmap a = some e ∧ dataEntry e = true := by
  simp only [List.mem_cons, List.not_mem_nil, or_false] at h
  rcases h with rfl | rfl | rfl
  · exact ⟨.ep1In, rfl, rfl⟩
  · exact ⟨.ep2Out, rfl, rfl⟩
  · exact ⟨.ep2In, rfl, rfl⟩

theorem epmap_eq_none {a : Byte} (h : a ∉ [0x00#8, 0x80, 0x81, 0x02, 0x82]) : epmap a = none := by
  simp only [BitVec.ofNat_eq_ofNat, List.mem_cons, ← BitVec.toNat_inj, BitVec.toNat_ofNat, Nat.reducePow,
    Nat.reduceMod, List.not_mem_nil, or_false, not_or] at h
  unfold epmap
  split
  case h_6 => rfl
  all_goals omega

theorem endpointStatus_of_none (h : epmap (x.extractLsb' 0 8) = none) : endpointStatus u d x = .stall .outOfRange := by
  rw [endpointStatus, indexLow, h]

theorem endpointStatus_of_unconfigured {e : Entry} (h : epmap (x.extractLsb' 0 8) = some e) (hdata : dataEntry e = true)
    (hd : d ≠ .configured) : endpointStatus u d x = .stall .badState := by
  rw [endpointStatus, indexLow, h]
  exact if_pos ⟨hdata, hd⟩

theorem endpointStatus_of_served {e : Entry} (h : epmap (x.extractLsb' 0 8) = some e)
    (hserved : dataEntry e = false ∨ d = .configured) :
    endpointStatus u d x = .dataIn [if (u.bd.get e).stall = true then 0x01 else 0x00, 0x00] := by
  have hstatus : ¬(dataEntry e = true ∧ d ≠ .configured) := by
    rintro ⟨hdata, hd⟩
    rcases hserved with h | h
    · simp [hdata] at h
    · exact hd h
  rw [endpointStatus, indexLow, h]
  refine (if_neg hstatus).trans ?_
  cases (u.bd.get e).stall <;> rfl

/-- The stall flags of EP0 were cleared when the packet was latched (41_control_transfer.md R141). -/
theorem endpointStatus_of_ep0 {S : SetupWord} {e : Entry} (h : epmap (x.extractLsb' 0 8) = some e)
    (hep0 : dataEntry e = false) : endpointStatus (latched S u) d x = .dataIn [0x00, 0x00] := by
  rw [endpointStatus_of_served h (.inl hep0)]
  cases e with
  | ep0Out | ep0In => rfl
  | ep1In | ep2Out | ep2In => cases hep0

theorem endpointStatus_of_configured {S : SetupWord} {e : Entry} (h : epmap (x.extractLsb' 0 8) = some e)
    (hdata : dataEntry e = true) (hd : d = .configured) :
    endpointStatus (latched S u) d x = .dataIn [if (u.bd.get e).stall = true then 0x01 else 0x00, 0x00] := by
  rw [endpointStatus_of_served h (.inr hd)]
  cases e with
  | ep0Out | ep0In => cases hdata
  | ep1In | ep2Out | ep2In => rfl

/-! ## SET_ADDRESS (42_standard_requests.md R172) -/

theorem setAddressRule_of_length (hl : l ≠ 0) :
    setAddressRule (setupWord bm 0x05 v x l) u = .ok (.stall .malformed) := by
  rw [setAddressRule, wLength_setupWord, if_pos hl]

theorem setAddressRule_of_large (hl : l = 0) (hv : 127 < v.toNat) :
    setAddressRule (setupWord bm 0x05 v x l) u = .ok (.stall .outOfRange) := by
  rw [setAddressRule, wLength_setupWord, wValue_setupWord, if_neg (not_not.mpr hl), if_pos hv]

theorem lowBits_eq_ofNat {w : Nat} (hw : w ≤ 16) : v.extractLsb' 0 w = BitVec.ofNat w v.toNat := by
  rw [BitVec.ofNat_toNat, BitVec.setWidth_eq_extractLsb' hw]

/-- With the first two checks passed, the device state decides. -/
theorem setAddressRule_of_address (hd : u.devState = d.code) (hl : l = 0) (hv : v.toNat ≤ 127) :
    setAddressRule (setupWord bm 0x05 v x l) u = .ok (
      if d = .default ∨ d = .address then .noData (.setAddress (BitVec.ofNat 7 v.toNat)) else .stall .badState) := by
  rw [setAddressRule, wLength_setupWord, wValue_setupWord, if_neg (not_not.mpr hl), if_neg (Nat.not_lt.mpr hv),
    readDevState_code hd, lowBits_eq_ofNat (by decide)]
  rfl

/-! ## GET_DESCRIPTOR (42_standard_requests.md R173) -/

theorem descType_toNat : (descType v).toNat = v.toNat / 256 := by
  have hv := v.isLt
  rw [descType, BitVec.extractLsb'_toNat, Nat.shiftRight_eq_div_pow]
  omega

theorem descIndex_toNat : (descIndex v).toNat = v.toNat % 256 := by
  rw [descIndex, BitVec.extractLsb'_toNat]
  rfl

theorem servedDescriptor_eq_none (h : v ∉ [0x0100#16, 0x0200, 0x0300, 0x0301, 0x0302]) :
    servedDescriptor v = none := by
  simp only [BitVec.ofNat_eq_ofNat, List.mem_cons, ← BitVec.toNat_inj, BitVec.toNat_ofNat, Nat.reducePow,
    Nat.reduceMod, List.not_mem_nil, or_false, not_or] at h
  have htype := descType_toNat (v := v)
  have hindex := descIndex_toNat (v := v)
  unfold servedDescriptor
  split
  case h_3 =>
    refine if_neg fun hlow => ?_
    rw [hindex, Config.numStrings] at hlow
    omega
  case h_4 => rfl
  all_goals
    refine if_neg fun hlow => ?_
    rw [hlow, show (0 : Byte).toNat = 0 from rfl] at hindex
    omega

theorem getDescriptorRule_of_served {sel : DescSelector} (hp : admitted u.params = true)
    (h : servedDescriptor v = some sel) :
    getDescriptorRule (setupWord bm 0x06 v x l) u = .ok (.dataIn (descBytes u.params.desc sel)) := by
  rw [getDescriptorRule, wValue_setupWord, h]
  show descRead u.params sel 0 (servedLength u.params sel) >>= _ = _
  rw [descRead_served hp]
  rfl

theorem getDescriptorRule_of_none (h : servedDescriptor v = none) :
    getDescriptorRule (setupWord bm 0x06 v x l) u = .ok (.stall .outOfRange) := by
  rw [getDescriptorRule, wValue_setupWord, h]

/-! ## SET_CONFIGURATION (42_standard_requests.md R175) -/

theorem setConfigurationRule_of_length (hl : l ≠ 0) :
    setConfigurationRule (setupWord bm 0x09 v x l) u = .ok (.stall .malformed) := by
  rw [setConfigurationRule, wLength_setupWord]
  exact if_pos hl

theorem highByte_eq_zero_iff : v.extractLsb' 8 8 = 0 ↔ v.toNat < 256 := by
  rw [← BitVec.toNat_inj]
  show (descType v).toNat = 0 ↔ _
  rw [descType_toNat]
  omega

theorem setConfigurationRule_of_highByte (hl : l = 0) (hv : 256 ≤ v.toNat) :
    setConfigurationRule (setupWord bm 0x09 v x l) u = .ok (.stall .outOfRange) := by
  rw [setConfigurationRule, wLength_setupWord, wValue_setupWord]
  exact (if_neg (not_not.mpr hl)).trans (if_pos fun h => absurd (highByte_eq_zero_iff.mp h) (Nat.not_lt.mpr hv))

/-- With the first two checks passed, the value is its low byte. -/
theorem setConfigurationRule_of_value (hd : u.devState = d.code) (hl : l = 0) (hv : v.toNat < 256) :
    setConfigurationRule (setupWord bm 0x09 v x l) u = .ok (
      if d ≠ .address ∧ d ≠ .configured then .stall .badState
      else if v ≠ 0 ∧ v ≠ u.params.cfgValue.setWidth 16 then .stall .outOfRange
      else .noData (.setConfig (BitVec.ofNat 8 v.toNat))) := by
  have hvalue (c : Byte) : BitVec.ofNat 8 v.toNat = c ↔ v = c.setWidth 16 := by
    have hc := c.isLt
    rw [← BitVec.toNat_inj, ← BitVec.toNat_inj, BitVec.toNat_ofNat, BitVec.toNat_setWidth]
    omega
  have hzero : BitVec.ofNat 8 v.toNat = 0 ↔ v = 0 := hvalue 0
  rw [setConfigurationRule, wLength_setupWord, wValue_setupWord, readDevState_code hd,
    lowBits_eq_ofNat (by decide)]
  refine (if_neg (not_not.mpr hl)).trans ((if_neg (not_not.mpr (highByte_eq_zero_iff.mpr hv))).trans ?_)
  simp only [ne_eq, hzero, hvalue]
  rfl

/-! ## GET_INTERFACE and SET_INTERFACE (42_standard_requests.md R176, R177) -/

theorem getInterfaceRule_eq (hd : u.devState = d.code) :
    getInterfaceRule (setupWord bm 0x0A v x l) u = .ok (onKnownInterface u.params d x (.dataIn [0x00])) := by
  rw [getInterfaceRule, readDevState_code hd, wIndex_setupWord]
  rfl

theorem setInterfaceRule_of_length (hl : l ≠ 0) :
    setInterfaceRule (setupWord bm 0x0B v x l) u = .ok (.stall .malformed) := by
  rw [setInterfaceRule, wLength_setupWord, if_pos hl]

theorem setInterfaceRule_of_noLength (hd : u.devState = d.code) (hl : l = 0) :
    setInterfaceRule (setupWord bm 0x0B v x l) u =
      .ok (onKnownInterface u.params d x (if v ≠ 0 then .stall .outOfRange else .noData .noAction)) := by
  rw [setInterfaceRule, wLength_setupWord, if_neg (not_not.mpr hl), readDevState_code hd, wIndex_setupWord,
    wValue_setupWord]
  rfl

end

/-! ## The statements -/

/-- Settles O24: the recipient chooses the branch, and an endpoint address the entry whose stall flag is read. -/
theorem getStatusResult : Obligations.GetStatusResult := by
  intro s recip v x l hready S low
  obtain ⟨t, ht, happlied⟩ := setupStage_answers hready S getStatusRule
  obtain ⟨d, hd, -, hconf, -⟩ := hready.known
  have hinterface {r : RequestResult} (hr : recip = 1)
      (h : onKnownInterface s.params d x (.dataIn [0x00, 0x00]) = r) : ResultApplied S s t r :=
    happlied r ((getStatusRule_of_interface (u := latched S s) hd hr).trans (congrArg Except.ok h))
  have hendpoint {r : RequestResult} (hr : recip = 2) (h : endpointStatus (latched S s) d x = r) :
      ResultApplied S s t r :=
    happlied r ((getStatusRule_of_endpoint (u := latched S s) hd hr).trans (congrArg Except.ok h))
  have hentry (e : Entry) (hdata : dataEntry e = true) (hr : recip = 2) (hstate : s.devState = 5)
      (he : epmap low = some e) : DataInStage S [if (s.bd.get e).stall = true then 0x01 else 0x00, 0x00] s t :=
    hendpoint hr (endpointStatus_of_configured he hdata (hconf.mp hstate))
  refine ⟨t, ht, fun hr => happlied _ (getStatusRule_of_device hr), fun hr hstate => ?_,
    fun hr hstate hcomm hdata => ?_, fun hr hstate hknown => ?_, fun hr hlow => ?_, fun hr hlow => ?_,
    fun hr hlow hstate => ?_,
    fun hr hstate hlow => hentry .ep1In rfl hr hstate (congrArg epmap hlow),
    fun hr hstate hlow => hentry .ep2Out rfl hr hstate (congrArg epmap hlow),
    fun hr hstate hlow => hentry .ep2In rfl hr hstate (congrArg epmap hlow),
    fun hr => happlied _ (getStatusRule_of_other hr)⟩
  · exact hinterface hr (onKnownInterface_of_unconfigured (hconf.not.mp hstate))
  · exact hinterface hr (onKnownInterface_of_unknown (hconf.mp hstate) (not_or.mpr ⟨hcomm, hdata⟩))
  · exact hinterface hr (onKnownInterface_of_known (hconf.mp hstate) hknown)
  · exact hendpoint hr (endpointStatus_of_none (epmap_eq_none hlow))
  · obtain ⟨e, he, hep0⟩ := epmap_of_ep0 hlow
    exact hendpoint hr (endpointStatus_of_ep0 he hep0)
  · obtain ⟨e, he, hdata⟩ := epmap_of_data hlow
    exact hendpoint hr (endpointStatus_of_unconfigured he hdata (hconf.not.mp hstate))

/-- Settles O25: the three checks in their order. -/
theorem setAddressResult : Obligations.SetAddressResult := by
  intro s v x l hready
  obtain ⟨t, ht, happlied⟩ := setupStage_answers hready (setupWord 0x00 0x05 v x l) setAddressRule
  obtain ⟨d, hd, -, hconf, hop⟩ := hready.known
  refine ⟨t, ht, fun hl => happlied _ (setAddressRule_of_length hl),
    fun hl hv => happlied _ (setAddressRule_of_large hl hv),
    fun hl hv hstate => happlied (.stall .badState) ((setAddressRule_of_address hd hl hv).trans ?_),
    fun hl hv hstate => happlied (.noData _) ((setAddressRule_of_address hd hl hv).trans ?_)⟩
  · rw [hconf.mp hstate]
    rfl
  · have hearly : d = .default ∨ d = .address :=
      (or_assoc.mpr hop).resolve_right (hconf.not.mp hstate)
    rw [if_pos hearly]

/-- Settles O26: each served value names its descriptor, which is read whole. -/
theorem getDescriptorResult : Obligations.GetDescriptorResult := by
  intro s v x l hready S
  obtain ⟨t, ht, happlied⟩ := setupStage_answers hready S getDescriptorRule
  have hserved (sel : DescSelector) (h : servedDescriptor v = some sel) :
      DataInStage S (descBytes s.params.desc sel) s t :=
    happlied _ (getDescriptorRule_of_served hready.admitted h)
  exact ⟨t, ht, fun hv => hserved .dev (hv ▸ rfl), fun hv => hserved .cfg (hv ▸ rfl),
    fun hv => hserved .str0 (hv ▸ rfl), fun hv => hserved .str1 (hv ▸ rfl), fun hv => hserved .str2 (hv ▸ rfl),
    fun hv => happlied _ (getDescriptorRule_of_none (servedDescriptor_eq_none hv))⟩

/-- Settles O27: the rule answers ACTIVE_CFG whatever the state and the fields. -/
theorem getConfigurationResult : Obligations.GetConfigurationResult := by
  intro s v x l hready
  obtain ⟨t, ht, happlied⟩ := setupStage_answers hready (setupWord 0x80 0x08 v x l) fun _ => getConfigurationRule
  exact ⟨t, ht, happlied (.dataIn [s.activeCfg]) rfl⟩

/-- Settles O28: the four checks in their order. -/
theorem setConfigurationResult : Obligations.SetConfigurationResult := by
  intro s v x l hready
  obtain ⟨t, ht, happlied⟩ := setupStage_answers hready (setupWord 0x00 0x09 v x l) setConfigurationRule
  obtain ⟨d, hd, hdefault, -, hop⟩ := hready.known
  have haddressed (hstate : s.devState ≠ 3) : ¬(d ≠ .address ∧ d ≠ .configured) := by
    rw [not_and_or, not_not, not_not]
    exact hop.resolve_left (hdefault.not.mp hstate)
  refine ⟨t, ht, fun hl => happlied _ (setConfigurationRule_of_length hl),
    fun hl hv => happlied _ (setConfigurationRule_of_highByte hl hv),
    fun hl hv hstate => happlied (.stall .badState) ((setConfigurationRule_of_value hd hl hv).trans ?_),
    fun hl hv hstate hzero hcfg => happlied (.stall .outOfRange) ((setConfigurationRule_of_value hd hl hv).trans ?_),
    fun hl hv hstate hserved => happlied (.noData _) ((setConfigurationRule_of_value hd hl hv).trans ?_)⟩
  · rw [hdefault.mp hstate]
    rfl
  · rw [if_neg (haddressed hstate)]
    exact congrArg _ (if_pos ⟨hzero, hcfg⟩)
  · rw [if_neg (haddressed hstate)]
    exact congrArg _ (if_neg fun hother => hserved.elim hother.1 hother.2)

/-- Settles O29: both share the checks of the device state and the interface. -/
theorem interfaceRequestResults : Obligations.InterfaceRequestResults := by
  intro s v x l hready low known
  obtain ⟨d, hd, -, hconf, -⟩ := hready.known
  constructor
  · obtain ⟨t, ht, happlied⟩ := setupStage_answers hready (setupWord 0x81 0x0A v x l) getInterfaceRule
    have hanswer {r : RequestResult} (h : onKnownInterface s.params d x (.dataIn [0x00]) = r) :
        ResultApplied (setupWord 0x81 0x0A v x l) s t r :=
      happlied r ((getInterfaceRule_eq hd).trans (congrArg _ h))
    exact ⟨t, ht, fun hstate => hanswer (onKnownInterface_of_unconfigured (hconf.not.mp hstate)),
      fun hstate hunknown => hanswer (onKnownInterface_of_unknown (hconf.mp hstate) hunknown),
      fun hstate hknown => hanswer (onKnownInterface_of_known (hconf.mp hstate) hknown)⟩
  · obtain ⟨t, ht, happlied⟩ := setupStage_answers hready (setupWord 0x01 0x0B v x l) setInterfaceRule
    have hanswer {r : RequestResult} (hl : l = 0) (h : onKnownInterface s.params d x
          (if v ≠ 0 then .stall .outOfRange else .noData .noAction) = r) :
        ResultApplied (setupWord 0x01 0x0B v x l) s t r :=
      happlied r ((setInterfaceRule_of_noLength hd hl).trans (congrArg _ h))
    refine ⟨t, ht, fun hl => happlied _ (setInterfaceRule_of_length hl),
      fun hl hstate => hanswer hl (onKnownInterface_of_unconfigured (hconf.not.mp hstate)),
      fun hl hstate hbad => hanswer (r := .stall .outOfRange) hl ?_,
      fun hl hstate hknown hv => hanswer (r := .noData .noAction) hl ?_⟩
    · by_cases hknown : known
      · rw [onKnownInterface_of_known (hconf.mp hstate) hknown, if_pos (hbad.resolve_left (not_not.mpr hknown))]
      · exact onKnownInterface_of_unknown (hconf.mp hstate) hknown
    · rw [onKnownInterface_of_known (hconf.mp hstate) hknown, if_neg (not_not.mpr hv)]

/-- Settles O30: both rules are one stall. -/
theorem unsupportedAndReservedRequestsStall : Obligations.UnsupportedAndReservedRequestsStall := by
  intro s dir recip req v x l hready
  obtain ⟨t, ht, hstd⟩ := setupStage_answers hready (setupWord (requestType dir 0 recip) req v x l)
    fun _ _ => stdUnsupportedRule
  obtain ⟨u, hu, hreserved⟩ := setupStage_answers hready (setupWord (requestType dir 3 recip) req v x l)
    fun _ _ => reservedTypeRule
  exact ⟨⟨t, ht, hstd (.stall .unsupported) rfl⟩, ⟨u, hu, hreserved (.stall .reservedType) rfl⟩⟩

end Sys2Proof.Machine
end

section
/-! SUPPORT, and O21, O31-O34. The seven bytes of a line coding, the rules of the CDC class requests, an equation per
case, and what each request therefore leaves (43_cdc_class_requests.md R190-R196, 41_control_transfer.md R159). -/

namespace Sys2Proof.Machine
open Sys2Proof.Claims

/-! ## The bytes of a line coding (30_encoding.md R104) -/

theorem toNat_append_byte {w : Nat} (a : BitVec w) (b : Byte) : (a ++ b).toNat = b.toNat + 256 * a.toNat := by
  rw [BitVec.toNat_append, ← Nat.shiftLeft_add_eq_or_of_lt b.isLt, Nat.shiftLeft_eq]
  omega

theorem extractLsb'_eq_of_toNat {w start len : Nat} {x : BitVec w} {y : BitVec len}
    (h : x.toNat / 2 ^ start % 2 ^ len = y.toNat) : x.extractLsb' start len = y := by
  apply BitVec.eq_of_toNat_eq
  rw [BitVec.extractLsb'_toNat, Nat.shiftRight_eq_div_pow, h]

/-- LC_BYTES of a RATE assembled from its bytes. -/
theorem lcBytes_of_rate {lc : LineCoding} {b0 b1 b2 b3 : Byte} (h : lc.rate = b3 ++ b2 ++ b1 ++ b0) :
    lcBytes lc = [b0, b1, b2, b3, lc.format, lc.parity, lc.dataBits] := by
  have hrate : lc.rate.toNat = b0.toNat + 256 * (b1.toNat + 256 * (b2.toNat + 256 * b3.toNat)) := by
    simp only [h, toNat_append_byte]
  rw [lcBytes, extractLsb'_eq_of_toNat (y := b0) (by omega), extractLsb'_eq_of_toNat (y := b1) (by omega),
    extractLsb'_eq_of_toNat (y := b2) (by omega), extractLsb'_eq_of_toNat (y := b3) (by omega)]

/-- The line coding in an OUTBUF assembled from its bytes (43_cdc_class_requests.md R192). -/
theorem lineCodingOf_append (b0 b1 b2 b3 b4 b5 b6 : Byte) :
    lineCodingOf (b6 ++ b5 ++ b4 ++ b3 ++ b2 ++ b1 ++ b0) =
      { rate := b3 ++ b2 ++ b1 ++ b0, format := b4, parity := b5, dataBits := b6 } := by
  rw [lineCodingOf, LineCoding.mk.injEq]
  refine ⟨?_, ?_, ?_, ?_⟩
  all_goals
    apply extractLsb'_eq_of_toNat
    simp only [toNat_append_byte]
    omega

/-- Settles O21: the action is line-coding apply, or none. -/
theorem statusStageAppliesTheLineCoding : Obligations.StatusStageAppliesTheLineCoding := by
  intro s hready hstage
  rw [exec_tokenEp0In_of_statusIn hready hstage]
  refine ⟨fun haction => ?_, fun b0 b1 b2 b3 b4 b5 b6 haction hbytes =>
    ⟨{ rate := b3 ++ b2 ++ b1 ++ b0, format := b4, parity := b5, dataBits := b6 }, ?_, ?_, rfl, rfl, rfl⟩⟩
  · rw [haction]
    rfl
  · rw [haction, applyAction, lineCodingApply, hbytes, lineCodingOf_append]
    rfl
  · simp only [toNat_append_byte]
    omega

/-! ## The application hook (41_control_transfer.md R159) -/

theorem direction_eq_one_iff (S : SetupWord) : direction S = 1 ↔ S.getLsbD 7 = true := by
  rw [← direction_beq_one, beq_iff_eq]

/-- What the hook's answer leaves, answer by answer. -/
theorem forwarded_of_resultApplied {S : SetupWord} {s t : State} (h : ResultApplied S s t (forward S s)) :
    Forwarded S s t := by
  revert h
  rw [forward, Forwarded]
  cases appHook s.params S with
  | unhandled => exact id
  | noData =>
    dsimp only
    split_ifs <;> exact id
  | dataIn bytes =>
    simp only [direction_eq_one_iff]
    split_ifs <;> exact id

/-- A request whose rule is forward(S). -/
theorem forward_answers {s : State} (hready : SetupReady s) (S : SetupWord) :
    ∃ t, commit s (setupStage S (fun u => .ok (forward S u)) s) = .next t ∧ Forwarded S s t := by
  obtain ⟨t, ht, happlied⟩ := setupStage_answers hready S (fun S u => .ok (forward S u))
  exact ⟨t, ht, forwarded_of_resultApplied (happlied _ rfl)⟩

/-! ## The requests of the communication interface (43_cdc_class_requests.md R190) -/

theorem forCommInterface_setupWord {p : Params} {bm req : Byte} {v x l : Word16} :
    forCommInterface p (setupWord bm req v x l) = true ↔ x.extractLsb' 0 8 = p.commIf := by
  rw [forCommInterface, wIndex_setupWord, indexLow, beq_iff_eq]

/-- The branch the three requests of the communication interface share: any other interface's goes to the hook. -/
def onCommInterface (S : SetupWord) (s : State) (r : RequestResult) : RequestResult :=
  if !forCommInterface s.params S then forward S s else r

/-- A request whose rule answers r for the communication interface. -/
theorem onCommInterface_answers {s : State} (hready : SetupReady s) (bm req : Byte) (v x l : Word16)
    (rule : SetupWord → State → Except Fault RequestResult) (r : RequestResult) :
    let S := setupWord bm req v x l
    rule S (latched S s) = .ok (onCommInterface S s r) →
    ∃ t, commit s (setupStage S (rule S) s) = .next t ∧
      (x.extractLsb' 0 8 ≠ s.params.commIf → Forwarded S s t) ∧
      (x.extractLsb' 0 8 = s.params.commIf → ResultApplied S s t r) := by
  intro S hrule
  obtain ⟨t, ht, happlied⟩ := setupStage_answers hready S rule
  have hresult := happlied _ hrule
  rw [onCommInterface] at hresult
  refine ⟨t, ht, fun hother => ?_, fun hcomm => ?_⟩
  · rw [Bool.eq_false_iff.mpr (forCommInterface_setupWord.not.mpr hother)] at hresult
    exact forwarded_of_resultApplied hresult
  · rw [forCommInterface_setupWord.mpr hcomm] at hresult
    exact hresult

/-- Such a request that is served only with wLength n (43_cdc_class_requests.md R191, R194). -/
theorem onCommInterface_answers_of_length {s : State} (hready : SetupReady s) (bm req : Byte) (v x l : Word16)
    (rule : SetupWord → State → Except Fault RequestResult) (n : Word16) (r : RequestResult) :
    let S := setupWord bm req v x l
    rule S (latched S s) = .ok (onCommInterface S s (if wLength S ≠ n then .stall .malformed else r)) →
    ∃ t, commit s (setupStage S (rule S) s) = .next t ∧
      (x.extractLsb' 0 8 ≠ s.params.commIf → Forwarded S s t) ∧
      (x.extractLsb' 0 8 = s.params.commIf → l ≠ n → Stalled .malformed false s t) ∧
      (x.extractLsb' 0 8 = s.params.commIf → l = n → ResultApplied S s t r) := by
  intro S hrule
  obtain ⟨t, ht, hother, hcomm⟩ := onCommInterface_answers hready bm req v x l rule _ hrule
  rw [wLength_setupWord] at hcomm
  refine ⟨t, ht, hother, fun hx hl => ?_, fun hx hl => ?_⟩
  · rw [if_pos hl] at hcomm
    exact hcomm hx
  · rw [if_neg (not_not.mpr hl)] at hcomm
    exact hcomm hx

/-! ## The statements -/

/-- Settles O31: with wLength 7 the rule answers the data stage. -/
theorem setLineCodingResult : Obligations.SetLineCodingResult := fun _ v x l hready =>
  onCommInterface_answers_of_length hready 0x21 0x20 v x l setLineCodingRule 7 (.dataOut 7 .setLineCoding) rfl

/-- Settles O32: the rule answers LC_BYTES of the stored line coding. -/
theorem getLineCodingResult : Obligations.GetLineCodingResult := by
  intro s v x l hready S
  obtain ⟨t, ht, hother, hcomm⟩ := onCommInterface_answers hready 0xA1 0x21 v x l getLineCodingRule
    (.dataIn (lcBytes s.lineCoding)) rfl
  exact ⟨t, ht, hother, fun hx b0 b1 b2 b3 hrate => lcBytes_of_rate hrate ▸ hcomm hx⟩

/-- Settles O33: with wLength 0 the rule answers a transfer without an action. -/
theorem setControlLineStateResult : Obligations.SetControlLineStateResult := fun _ v x l hready =>
  onCommInterface_answers_of_length hready 0x21 0x22 v x l setControlLineStateRule 0 (.noData .noAction) rfl

/-- Settles O34: the rule of both is forward(S). -/
theorem otherRequestsGoToTheHook : Obligations.OtherRequestsGoToTheHook := fun _ _ _ _ _ _ _ hready =>
  ⟨forward_answers hready _, forward_answers hready _⟩

end Sys2Proof.Machine
end

section
/-! SUPPORT, and O39, O40. The command port's ARM_RX and ARM_TX on the entries it may name
(44_endpoint_buffers.md R201, R202, R205). -/

namespace Sys2Proof.Machine
open Sys2Proof.Claims

/-- The result word of a COUNT that fits its 16 bits, without BUSY, is that number (30_encoding.md R96). -/
theorem resultWord_notBusy {n : Nat} (h : n < 2 ^ 16) : resultWord n false = BitVec.ofNat 32 n := by
  refine BitVec.eq_of_toNat_eq ?_
  simp only [resultWord, BitVec.toNat_append, BitVec.toNat_ofNat, BitVec.ofBool_false]
  rw [Nat.mod_eq_of_lt h, Nat.mod_eq_of_lt (show n < 2 ^ 32 by omega)]
  simp

theorem setResult_notBusy {n : Nat} (h : n < 2 ^ 16) (bytes : List Byte) (s : State) :
    setResult n false bytes s = { s with result := countResult n bytes } := by
  rw [setResult, resultWord_notBusy h]
  rfl

theorem armRx_of_disabled {e : Entry} {s : State} (hen : (s.bd.get e).en = false) : armRx e s = s :=
  if_pos (.inr hen)

/-- Settles O39: EP2OUT is the entry the port allows, and `armRx` decides by OWN and EN. -/
theorem armRxArmsAnEnabledEntryTheBlockOwns : Obligations.ArmRxArmsAnEnabledEntryTheBlockOwns := by
  have hport : ∀ s, exec (.armRx .ep2Out) s = .next { armRx .ep2Out s with result := zeroResult } := fun _ => rfl
  refine ⟨fun s hown hen => ?_, fun s hidle => ?_⟩
  · rw [hport, armRx_of_ready (e := .ep2Out) hown hen]
    rfl
  · have hsame : armRx .ep2Out s = s := hidle.elim (armRx_of_hw (e := .ep2Out)) (armRx_of_disabled (e := .ep2Out))
    rw [hport, hsame]

/-- ARM_TX on an entry the port allows (44_endpoint_buffers.md R205). -/
theorem exec_armTx_of_allowed {e : Entry} (he : e = .ep1In ∨ e = .ep2In) (data : List Byte) (s : State) :
    exec (.armTx e data) s = .next (setResult (armTxCount e data s) (armTxBusy e s) [] (armTx e data s)) := by
  rcases he with rfl | rfl
  · rfl
  · rfl

/-- ARM_TX of an entry that is not ready arms nothing and answers COUNT 0 (44_endpoint_buffers.md R202). -/
theorem exec_armTx_of_notReady {e : Entry} (he : e = .ep1In ∨ e = .ep2In) {s : State} (h : txReady e s = false)
    (data : List Byte) : exec (.armTx e data) s = .next (setResult 0 (armTxBusy e s) [] s) := by
  rw [exec_armTx_of_allowed he, armTxCount, armTx, h]
  rfl

/-- ARM_TX does not look at the bytes past the capacity (44_endpoint_buffers.md R202). -/
theorem armTx_take (e : Entry) (data : List Byte) (s : State) :
    armTx e (data.take (bufCap s.params e)) s = armTx e data s := by
  simp [armTx, armTxCount, List.take_take, Nat.min_comm data.length]

/-- ARM_TX of a ready entry: of any data, the first min(len, BUF_CAP(e)) bytes (44_endpoint_buffers.md R202). -/
theorem armTx_of_ready_cut {e : Entry} {s : State} {data : List Byte} {n : Nat} (hown : (s.bd.get e).own = .fw)
    (hen : (s.bd.get e).en = true) (hn : n = min data.length (bufCap s.params e)) :
    armTx e data s = { s with
      bd := s.bd.set e { s.bd.get e with own := .hw, cnt := BitVec.ofNat 11 n }
      buf := s.buf.writeBytes (adr s.params e) (data.take n) } := by
  have hlen : (data.take (bufCap s.params e)).length = n := by rw [List.length_take, Nat.min_comm, hn]
  have htake : data.take (bufCap s.params e) = data.take n := by rw [List.take_eq_take_min, Nat.min_comm, hn]
  have harm := armTx_of_ready hown hen (hlen.trans_le (hn.trans_le (Nat.min_le_right ..)))
  rwa [armTx_take, hlen, htake] at harm

/-- Settles O40: OWN and EN decide among the three; an armed packet is cut to the capacity. -/
theorem armTxCopiesAtMostOnePacket : Obligations.ArmTxCopiesAtMostOnePacket := by
  intro s e data hparams he
  refine ⟨fun hown => ?_, fun hown hen => ?_, fun hown hen => ?_⟩
  · rw [exec_armTx_of_notReady he (by simp [txReady, hown]), armTxBusy, hown]
    rfl
  · rw [exec_armTx_of_notReady he (by simp [txReady, hen]), armTxBusy, hown]
    rfl
  · intro n
    have hsmall : n < 2 ^ 16 := by
      have hcap := ((admitted_sizes hparams).bufCap_le e).2
      omega
    have harm := armTx_of_ready_cut (data := data) (n := n) hown hen rfl
    have hcount : armTxCount e data s = n := if_pos ((txReady_iff e s).mpr ⟨hown, hen⟩)
    have hfree : armTxBusy e s = false := by rw [armTxBusy, hown]; rfl
    refine ⟨_, exec_armTx_of_allowed he data s, ?_, ?_⟩
    · rw [hcount, hfree, setResult_notBusy hsmall, harm]
    · rw [setResult_buf, harm]
      exact stored_writeBytes _ _ _

end Sys2Proof.Machine
end

section
/-! SUPPORT, and O42-O46. The SIE's steps case by case (44_endpoint_buffers.md R208-R213): when a transaction fires and
what it leaves, the answers when none does, bus reset and transport error. -/

namespace Sys2Proof.Machine
open Sys2Proof.Claims

/-! ## Enabling conditions -/

theorem resetBusy_iff (s : State) : s.resetBusy = true ↔ s.sieIfReset = true ∨ s.pendReset = true := by
  simp [State.resetBusy]

theorem errorBusy_iff (s : State) : s.errorBusy = true ↔ s.sieIfError = true ∨ s.pendError = true := by
  simp [State.errorBusy]

theorem fifoFull_iff (s : State) : s.fifoFull = true ↔ s.params.sieFifoDepth ≤ s.sieFifo.length := by
  simp [State.fifoFull]

theorem lockHolds_iff (s : State) (e : Entry) :
    s.lockHolds e = true ↔ (e = .ep0Out ∨ e = .ep0In) ∧ s.setupLock = true := by
  cases e <;> simp [State.lockHolds]

/-- The enabling condition of an offered SETUP, item by item (44_endpoint_buffers.md R208). -/
theorem setupEnabled_iff {s : State} {bytes : List Byte} (hlen : bytes.length ≤ s.params.ep0Mps) :
    s.setupEnabled bytes = true ↔ s.sieIfReset = false ∧ s.pendReset = false ∧ s.bd.ep0Out.en = true ∧
      s.bd.ep0Out.own = .hw ∧ s.setupLock = false ∧ s.sieFifo.length < s.params.sieFifoDepth := by
  simp [State.setupEnabled, State.resetBusy, State.fifoFull, hlen, and_assoc]

theorem dataEnabled_of_ready {s : State} {e : Entry} (h : TransactionReady e s) (hstall : (s.bd.get e).stall = false)
    (hlock : s.lockHolds e = false) : s.dataEnabled e = true := by
  simp [State.dataEnabled, State.resetBusy, State.fifoFull, h.noSieReset, h.noPendingReset, h.enabled, h.armed, hstall,
    hlock, h.room]

/-! ## Transactions that fire -/

/-- A SETUP in its operand domain (30_encoding.md R101). -/
theorem exec_sieSetup_of_offered {s : State} {bytes : List Byte} (hlen : bytes.length ≤ s.params.ep0Mps) :
    exec (.sieSetup bytes) s = commit s (sieSetup bytes s) :=
  if_pos (decide_eq_true hlen)

/-- Settles O42: the SETUP is enabled, so `sieSetup` takes its first branch. -/
theorem setupTransactionLands : Obligations.SetupTransactionLands := by
  intro s bytes hready hlock hlen
  have hen := (setupEnabled_iff hlen).mpr
    ⟨hready.noSieReset, hready.noPendingReset, hready.enabled, hready.armed, hlock, hready.room⟩
  rw [exec_sieSetup_of_offered hlen, sieSetup, if_pos hen]
  exact ⟨_, rfl, rfl, stored_writeBytes _ _ _⟩

/-- An enabled SIE_OUT: the packet, its length and the record (44_endpoint_buffers.md R209). -/
theorem exec_sieOut_of_ready {s : State} {e : OutEntry} {bytes : List Byte} (hready : TransactionReady (outEntry e) s)
    (hstall : (s.bd.get (outEntry e)).stall = false) (hlock : s.lockHolds (outEntry e) = false)
    (hfit : bytes.length ≤ bufCap s.params (outEntry e)) :
    exec (.sieOut e bytes) s = .next (complete (outEntry e) (BitVec.ofNat 11 bytes.length) (outRecord e)
      (memWrite s (.buffer (outEntry e)) bytes)) := by
  have hen : s.outEnabled e bytes = true := by
    rw [State.outEnabled, dataEnabled_of_ready hready hstall hlock, decide_eq_true hfit]
    rfl
  show commit s (sieOut e bytes s) = _
  rw [sieOut, if_neg (Nat.not_lt.mpr hfit), if_pos hen]
  rfl

/-- Settles O44: the packet in the buffer is read, and CNT written back as it was. -/
theorem inTransactionSendsThePacket : Obligations.InTransactionSendsThePacket := by
  intro s e packet hready hstall hlock hlen hfit hholds
  have hfree : s.lockHolds (inEntry e) = false := by
    cases e with
    | ep0 => exact hlock rfl
    | ep1 | ep2 => rfl
  have hen : s.inEnabled e = true := dataEnabled_of_ready hready hstall hfree
  show commit s (sieIn e s) = _
  rw [sieIn, if_pos hen, ← hlen, memRead_of_holds hfit hholds]
  cases e <;> rfl

/-! ## Bus reset and transport error -/

theorem onPoweredBus_iff (d : DevState) : d.onPoweredBus = true ↔ 2 ≤ d.code.toNat := by
  cases d <;> decide

theorem exec_sieError_of_code {s : State} {d : DevState} (h : s.devState = d.code) :
    exec .sieError s = .next (if d.onPoweredBus && !s.errorBusy then { s with sieIfError := true } else s) := by
  simp only [exec, execSieError, sieError, readDevState_code h]
  rfl

theorem exec_sieReset_of_code {s : State} {d : DevState} (h : s.devState = d.code) :
    exec .sieReset s = .next (if d.onPoweredBus && !s.resetBusy then
      { s with sieIfReset := true, sieFifo := [], setupLock := false } else s) := by
  simp only [exec, execSieReset, sieReset, readDevState_code h]
  rfl

/-- The first transport error on a powered bus (44_endpoint_buffers.md R213). -/
theorem exec_sieError_first {s : State} (hpowered : 2 ≤ s.devState.toNat) (hknown : s.devState.toNat < 6)
    (hflag : s.sieIfError = false) (hpend : s.pendError = false) :
    exec .sieError s = .next { s with sieIfError := true } := by
  obtain ⟨d, hd⟩ := known_of_toNat_lt hknown
  rw [exec_sieError_of_code hd, (onPoweredBus_iff d).mpr (hd ▸ hpowered), State.errorBusy, hflag, hpend]
  rfl

/-- A transport error off the powered bus, or one not yet processed (44_endpoint_buffers.md R213,
60_exceptions.md R252). -/
theorem exec_sieError_unseen {s : State} (hknown : s.devState.toNat < 6)
    (h : s.devState.toNat < 2 ∨ s.sieIfError = true ∨ s.pendError = true) : exec .sieError s = .next s := by
  obtain ⟨d, hd⟩ := known_of_toNat_lt hknown
  rw [exec_sieError_of_code hd, if_neg]
  rw [Bool.and_eq_true, onPoweredBus_iff, ← hd, Bool.not_eq_true', ← Bool.not_eq_true, errorBusy_iff]
  rintro ⟨hpowered, hquiet⟩
  exact h.elim (Nat.not_lt.mpr hpowered) hquiet

/-- Settles O46: the flags decide between the first event and a repeat. -/
theorem busResetAndErrorSetTheirFlags : Obligations.BusResetAndErrorSetTheirFlags := by
  intro s hpowered hknown
  obtain ⟨d, hd⟩ := known_of_toNat_lt hknown
  refine ⟨fun hflag hpend => ?_, fun hbusy => ?_, exec_sieError_first hpowered hknown,
    fun hbusy => exec_sieError_unseen hknown (.inr hbusy)⟩
  · rw [exec_sieReset_of_code hd, (onPoweredBus_iff d).mpr (hd ▸ hpowered), State.resetBusy, hflag, hpend]
    rfl
  · rw [exec_sieReset_of_code hd, (resetBusy_iff s).mpr hbusy, Bool.not_true, Bool.and_false]
    rfl

/-- A packet longer than the buffer is a transport error (44_endpoint_buffers.md R209; log 7). -/
theorem exec_sieOut_of_tooLong {s : State} {e : OutEntry} {bytes : List Byte}
    (h : bufCap s.params (outEntry e) < bytes.length) : exec (.sieOut e bytes) s = exec .sieError s :=
  congrArg (commit s) (if_pos h)

/-- Settles O43: a packet that fits lands, one too long is SIE_ERROR. -/
theorem outTransactionLands : Obligations.OutTransactionLands := by
  refine ⟨fun s bytes hready hstall hlock hfit => ?_, fun s bytes hready hstall hfit => ?_,
    fun s e bytes hknown hlong => ?_⟩
  · exact ⟨_, exec_sieOut_of_ready (e := .ep0) hready hstall hlock hfit, rfl, stored_writeBytes _ _ _⟩
  · exact ⟨_, exec_sieOut_of_ready (e := .ep2) hready hstall rfl hfit, rfl, stored_writeBytes _ _ _⟩
  · rw [exec_sieOut_of_tooLong hlong]
    exact ⟨fun hpowered => exec_sieError_first hpowered hknown, exec_sieError_unseen hknown⟩

/-! ## Answers when no transaction fires -/

/-- An offered SETUP that is not enabled is ignored, in every device state (44_endpoint_buffers.md R211). -/
theorem setupAnswer_of_notEnabled {s : State} {bytes : List Byte} (hlen : bytes.length ≤ s.params.ep0Mps)
    (h : s.setupEnabled bytes = false) (d : DevState) : s.setupAnswer d = .ignore := by
  unfold State.setupAnswer
  split
  · rfl
  next hquiet =>
    split
    · rfl
    next hen =>
      split
      · rfl
      next hfree => simp_all [State.setupEnabled]

theorem exec_sieSetup_of_notEnabled {s : State} {bytes : List Byte} {d : DevState} (hd : s.devState = d.code)
    (hlen : bytes.length ≤ s.params.ep0Mps) (h : s.setupEnabled bytes = false) :
    exec (.sieSetup bytes) s = .next { s with answer := some .ignore } := by
  rw [← setupAnswer_of_notEnabled hlen h d, exec_sieSetup_of_offered hlen, sieSetup, h, readDevState_code hd]
  rfl

/-- i is an OUT or IN token on entry e, with a packet that fits its buffer. -/
inductive DataToken (p : Params) : Instr → Entry → Prop
  | out (e : OutEntry) (bytes : List Byte) (fits : bytes.length ≤ bufCap p (outEntry e)) :
      DataToken p (.sieOut e bytes) (outEntry e)
  | inn (e : InEntry) : DataToken p (.sieIn e) (inEntry e)

/-- A token whose transaction is not enabled records its answer and does nothing else
(44_endpoint_buffers.md R211). -/
theorem DataToken.exec_of_notEnabled {s : State} {i : Instr} {e : Entry} {d : DevState} (h : DataToken s.params i e)
    (hd : s.devState = d.code) (hoff : s.dataEnabled e = false) :
    exec i s = .next { s with answer := some (s.dataAnswer d e) } := by
  cases h with
  | out e bytes fits =>
    simp only [exec, execSieOut, sieOut, Nat.not_lt.mpr fits, State.outEnabled, hoff, readDevState_code hd]
    rfl
  | inn e =>
    simp only [exec, execSieIn, sieIn, State.inEnabled, hoff, readDevState_code hd]
    rfl

theorem dataAnswer_of_busy {s : State} (h : s.resetBusy = true) (d : DevState) (e : Entry) :
    s.dataAnswer d e = .ignore := by
  simp [State.dataAnswer, h]

theorem dataAnswer_of_disabled {s : State} {e : Entry} (h : (s.bd.get e).en = false) (d : DevState) :
    s.dataAnswer d e = .ignore := by
  simp [State.dataAnswer, h]

/-- Past the rows that ignore the token, the entry decides (44_endpoint_buffers.md R211). -/
theorem dataAnswer_of_enabled {s : State} {d : DevState} {e : Entry} (hbusy : s.resetBusy = false)
    (hop : d.operational = true) (hen : (s.bd.get e).en = true) :
    s.dataAnswer d e = if (s.bd.get e).stall then .stall
      else if (s.bd.get e).own == .fw || s.fifoFull || s.lockHolds e then .nak else .ack := by
  simp [State.dataAnswer, hbusy, hop, hen]

/-- Settles O45: the row of R211 that holds is also why no transaction fires. -/
theorem answersToTokens : Obligations.AnswersToTokens := by
  refine ⟨fun s bytes hknown hlen hheld => ?_, ?_⟩
  · obtain ⟨d, hd⟩ := known_of_toNat_lt hknown
    have hoff : s.setupEnabled bytes = false := by
      rw [← Bool.not_eq_true, setupEnabled_iff hlen]
      rintro ⟨hreset, hpend, hen, hown, hlock, hroom⟩
      simp [hreset, hpend, hen, hown, hlock, Nat.not_le.mpr hroom] at hheld
    exact exec_sieSetup_of_notEnabled hd hlen hoff
  · intro s i e hknown htoken busy
    obtain ⟨d, hd⟩ := known_of_toNat_lt hknown
    have htok : DataToken s.params i e := by
      rcases htoken with ⟨bytes, rfl, rfl, hfit⟩ | ⟨bytes, rfl, rfl, hfit⟩ | ⟨rfl, rfl⟩ | ⟨rfl, rfl⟩ | ⟨rfl, rfl⟩
      · exact .out .ep0 bytes hfit
      · exact .out .ep2 bytes hfit
      · exact .inn .ep0
      · exact .inn .ep1
      · exact .inn .ep2
    have hquiet : ¬busy → s.resetBusy = false := fun h => by rwa [← Bool.not_eq_true, resetBusy_iff]
    rw [isOperational_code hd]
    refine ⟨fun hbusy => ?_, fun _ hen => ?_, fun hbusy hop hen hstall => ?_, fun hbusy hop hen hstall hheld => ?_⟩
    · have hbusy : s.resetBusy = true := (resetBusy_iff s).mpr hbusy
      rw [htok.exec_of_notEnabled hd (by simp [State.dataEnabled, hbusy]), dataAnswer_of_busy hbusy]
    · rw [htok.exec_of_notEnabled hd (by simp [State.dataEnabled, hen]), dataAnswer_of_disabled hen]
    · rw [htok.exec_of_notEnabled hd (by simp [State.dataEnabled, hstall]), dataAnswer_of_enabled (hquiet hbusy) hop hen,
        if_pos hstall]
    · rw [← fifoFull_iff, ← lockHolds_iff] at hheld
      have hnak : ((s.bd.get e).own == .fw || s.fifoFull || s.lockHolds e) = true := by
        simpa [or_assoc] using hheld
      have hoff : s.dataEnabled e = false := by
        rcases hheld with h | h | h <;> simp [State.dataEnabled, h]
      rw [htok.exec_of_notEnabled hd hoff, dataAnswer_of_enabled (hquiet hbusy) hop hen, hstall, hnak]
      rfl

end Sys2Proof.Machine
end

section
/-! SUPPORT, and O47-O49. The bulk-transfer sequencer's operations case by case (45_bulk_sequencer.md R221-R223): when
each does nothing, and what it leaves when it moves a packet. -/

namespace Sys2Proof.Machine
open Sys2Proof.Claims

/-- A known device state reads as one that is Configured exactly at code 5 (10_state.md R21). -/
theorem readDevState_of_lt {s : State} (h : s.devState.toNat < 6) :
    ∃ d, readDevState s = .ok d ∧ (s.devState = 5 ↔ d = .configured) := by
  obtain ⟨d, hd⟩ := known_of_toNat_lt h
  refine ⟨d, readDevState_code hd, ?_⟩
  rw [hd]
  cases d <;> decide

/-- MemRead of bytes that stand in any area of BUF (20_memory.md R65). -/
theorem memRead_area_of_holds {s : State} {area : Area} {data : List Byte}
    (hfit : data.length ≤ areaSize s.params area) (h : Holds s.buf (areaBase s.params area) data) :
    memRead s area data.length = .ok data := by
  rw [memRead, if_neg (Nat.not_lt.mpr hfit), Memory.readBytes_of_read _ _ _ h]

/-! ## READ_AVAILABLE -/

/-- READ_AVAILABLE with nothing to read (45_bulk_sequencer.md R221). -/
theorem readAvailable_of_idle {s : State} (hknown : s.devState.toNat < 6)
    (hidle : s.devState ≠ 5 ∨ s.bd.ep2Out.own = .hw) (n : Nat) : readAvailable n s = .ok (s, []) := by
  obtain ⟨d, hd, hconf⟩ := readDevState_of_lt hknown
  rw [Ne, hconf] at hidle
  rw [readAvailable, hd]
  exact if_pos hidle

/-- READ_AVAILABLE of the packet the block owns: its first bytes, and EP2OUT armed (45_bulk_sequencer.md R221). -/
theorem readAvailable_of_packet {s : State} {n : Nat} {dest : List Byte} (hconf : s.devState = 5)
    (hown : s.bd.ep2Out.own = .fw) (hen : s.bd.ep2Out.en = true)
    (hcnt : s.bd.ep2Out.cnt.toNat ≤ bufCap s.params .ep2Out) (hlen : dest.length = min n s.bd.ep2Out.cnt.toNat)
    (hholds : Holds s.buf (adr s.params .ep2Out) dest) :
    readAvailable n s = .ok ({ s with bd := ep2OutArmed s }, dest) := by
  have hfit : dest.length ≤ bufCap s.params .ep2Out := by omega
  have harm : armRx .ep2Out s = { s with bd := ep2OutArmed s } := armRx_of_ready (e := .ep2Out) hown hen
  rw [readAvailable, readDevState_code (d := .configured) hconf, ← hlen, memRead_of_holds hfit hholds, harm, hown]
  rfl

theorem exec_readAvailable_of_ok {s t : State} {maxLen : Word16} {dest : List Byte}
    (h : readAvailable maxLen.toNat s = .ok (t, dest)) :
    exec (.readAvailable maxLen) s = .next (setResult dest.length false dest t) := by
  show execReadAvailable maxLen s = _
  rw [execReadAvailable, h]
  rfl

/-- Settles O47: the COUNT is at most max_len, so it fits the 16 bits of the result word. -/
theorem readAvailableResult : Obligations.ReadAvailableResult := by
  intro s maxLen _ hknown
  refine ⟨fun hidle => ?_, fun dest hconf hown hen hcnt hlen hholds => ?_⟩
  · rw [exec_readAvailable_of_ok (readAvailable_of_idle hknown hidle _)]
    rfl
  · have hsmall : dest.length < 2 ^ 16 := by
      have hmax := maxLen.isLt
      omega
    rw [exec_readAvailable_of_ok (readAvailable_of_packet hconf hown hen hcnt hlen hholds), setResult_notBusy hsmall]

/-! ## WRITE_BYTES -/

/-- WRITE_BYTES with no place for a packet, or of no bytes (45_bulk_sequencer.md R222). -/
theorem writeBytes_of_idle {s : State} {data : List Byte} (hknown : s.devState.toNat < 6)
    (hidle : s.devState ≠ 5 ∨ s.txPending = true ∨ data = []) : writeBytes data s = .ok (s, 0) := by
  obtain ⟨d, hd, hconf⟩ := readDevState_of_lt hknown
  rw [Ne, hconf] at hidle
  rw [writeBytes, hd]
  exact if_pos hidle

/-- WRITE_BYTES with nothing staged: at most one packet goes into TX_BUF (45_bulk_sequencer.md R222). -/
theorem writeBytes_of_free {s : State} {data : List Byte} {n : Nat} (hconf : s.devState = 5)
    (hfree : s.txPending = false) (hdata : data ≠ []) (hn : n = min data.length s.params.ep2Mps) :
    writeBytes data s = .ok ({ s with
      txPending := true
      txLen := BitVec.ofNat 7 n
      buf := s.buf.writeBytes (txBufAdr s.params) (data.take n) }, n) := by
  have hgo : ¬(DevState.configured ≠ .configured ∨ s.txPending = true ∨ data = []) := by simp [hfree, hdata]
  rw [writeBytes, readDevState_code (d := .configured) hconf, hn]
  exact if_neg hgo

theorem exec_writeBytes_of_ok {s t : State} {data : List Byte} {n : Nat} (h : writeBytes data s = .ok (t, n)) :
    exec (.writeBytes data) s = .next (setResult n false [] t) := by
  show execWriteBytes data s = _
  rw [execWriteBytes, h]
  rfl

/-- Settles O48: EP2_MPS is at most 64, so the number of staged bytes fits TX_LEN and COUNT. -/
theorem writeBytesResult : Obligations.WriteBytesResult := by
  intro s data hparams hknown
  refine ⟨fun hidle => ?_, fun hconf hfree hdata => ?_⟩
  · rw [exec_writeBytes_of_ok (writeBytes_of_idle hknown hidle)]
    rfl
  · intro n
    have hn : n ≤ 64 := by
      have hmps := (admitted_sizes hparams).ep2
      omega
    have hsmall : n < 2 ^ 16 := by omega
    have hexec := exec_writeBytes_of_ok (writeBytes_of_free hconf hfree hdata (n := n) rfl)
    rw [setResult_notBusy hsmall] at hexec
    exact ⟨_, hexec, rfl, toNat_ofNat_le hn (by decide), stored_writeBytes _ _ _⟩

/-! ## SERVICE_TX -/

/-- SERVICE_TX with nothing to send or EP2IN still armed (45_bulk_sequencer.md R223). -/
theorem serviceTx_of_idle {s : State} (hknown : s.devState.toNat < 6)
    (hidle : s.devState ≠ 5 ∨ s.txPending = false ∨ s.bd.ep2In.own = .hw) : serviceTx s = .ok s := by
  obtain ⟨d, hd, hconf⟩ := readDevState_of_lt hknown
  have hstay : ¬(d = .configured ∧ s.txPending = true ∧ s.bd.ep2In.own = .fw) := by
    rintro ⟨hd5, hpend, hown⟩
    simp [hconf.mpr hd5, hpend, hown] at hidle
  rw [serviceTx, hd]
  exact if_neg hstay

/-- SERVICE_TX of the packet in TX_BUF: copied and armed on EP2IN (45_bulk_sequencer.md R223). -/
theorem serviceTx_of_staged {s : State} {data : List Byte} (hconf : s.devState = 5) (hpend : s.txPending = true)
    (hown : s.bd.ep2In.own = .fw) (hen : s.bd.ep2In.en = true) (hfit : data.length ≤ s.params.ep2Mps)
    (hcap : data.length ≤ bufCap s.params .ep2In) (hlen : data.length = s.txLen.toNat)
    (hholds : Holds s.buf (txBufAdr s.params) data) :
    serviceTx s = .ok { s with
      bd := { s.bd with ep2In := { s.bd.ep2In with own := .hw, cnt := BitVec.ofNat 11 data.length } }
      txPending := false
      buf := s.buf.writeBytes (adr s.params .ep2In) data } := by
  have hread : memRead s .txBuf data.length = .ok data := memRead_area_of_holds hfit hholds
  rw [serviceTx, readDevState_code (d := .configured) hconf, hpend, hown, ← hlen, hread]
  show Except.ok { armTx .ep2In data s with txPending := false } = _
  rw [armTx_of_ready (e := .ep2In) hown hen hcap]
  rfl

theorem exec_serviceTx_of_ok {s t : State} (h : serviceTx s = .ok t) :
    exec .serviceTx s = .next { t with result := zeroResult } := by
  show execServiceTx s = _
  rw [execServiceTx, h]
  rfl

/-- Settles O49: a staged packet of at most EP2_MPS bytes fits the EP2IN buffer, whose capacity is EP2_MPS. -/
theorem serviceTxResult : Obligations.ServiceTxResult := by
  intro s hparams hknown
  refine ⟨fun hidle => exec_serviceTx_of_ok (serviceTx_of_idle hknown hidle),
    fun data hconf hpend hown hen hmps hlen hholds => ?_⟩
  have hfit : data.length ≤ s.params.ep2Mps := hlen.trans_le hmps
  have hcap : data.length ≤ bufCap s.params .ep2In := hfit.trans_eq ((admitted_sizes hparams).bufCap_eq .ep2In).symm
  have hexec := exec_serviceTx_of_ok (serviceTx_of_staged hconf hpend hown hen hfit hcap hlen hholds)
  exact ⟨_, hexec, rfl, stored_writeBytes _ _ _⟩

end Sys2Proof.Machine
end

section
/-! SUPPORT, and O50-O51. The application's command table row by row, and the packet APP_CMD reads
(46_application.md R231, R232, R234). -/

namespace Sys2Proof.Machine
open Sys2Proof.Claims

/-! ## The command table -/

/-- The state with LED as given and a one-byte reply staged (46_application.md R231, R232). -/
def stageReply (led : Bool) (response : Byte) (s : State) : State :=
  { s with
    led := led
    txPending := true
    txLen := 1
    buf := s.buf.writeBytes (txBufAdr s.params) [response] }

/-- On a configured device with nothing staged, a command's reply is staged whole: EP2_MPS is at least one byte
(46_application.md R232). -/
theorem respond_of_free {s : State} (hparams : admitted s.params = true) (hconf : s.devState = 5)
    (hfree : s.txPending = false) (led : Bool) (response : Byte) :
    respond led response s = .ok (stageReply led response s) := by
  have hone : 1 = min [response].length s.params.ep2Mps := by
    have hmps := (admitted_sizes hparams).ep2
    simp only [List.length_singleton]
    omega
  rw [respond, writeBytes_of_free (s := { s with led := led }) hconf hfree (List.cons_ne_nil _ _) hone]
  rfl

/-- Settles O50: the three commands stage their reply, and the row of any other byte does nothing. -/
theorem applicationCommandTable : Obligations.ApplicationCommandTable := by
  intro s hparams hconf hfree replied
  have hreply : ∀ led r, ∃ t, commit s (respond led r s) = .next t ∧ replied led r t := fun led r => by
    rw [respond_of_free hparams hconf hfree]
    exact ⟨_, rfl, rfl, stored_writeBytes _ _ _⟩
  exact ⟨hreply _ _, hreply _ _, hreply _ _, fun _ => rfl⟩

/-- A byte that is none of 'O', 'F', 'S' is no command (46_application.md R231, R234). -/
theorem appByteKind_of_other {b : Byte} (hO : b ≠ 0x4F) (hF : b ≠ 0x46) (hS : b ≠ 0x53) :
    appByteKind b = .unrecognised := by
  unfold appByteKind
  split
  case h_1 h => exact absurd (BitVec.eq_of_toNat_eq h) hO
  case h_2 h => exact absurd (BitVec.eq_of_toNat_eq h) hF
  case h_3 h => exact absurd (BitVec.eq_of_toNat_eq h) hS
  case h_4 => rfl

theorem appByte_of_other {b : Byte} (hO : b ≠ 0x4F) (hF : b ≠ 0x46) (hS : b ≠ 0x53) (s : State) :
    appByte b s = .ok s := by
  rw [appByte, appByteKind_of_other hO hF hS]
  rfl

/-! ## APP_CMD -/

/-- APP_CMD does nothing while a reply is staged and where there is no packet to read (46_application.md R232). -/
theorem appStep_of_idle {s : State} (hknown : s.devState.toNat < 6)
    (hidle : s.txPending = true ∨ s.devState ≠ 5 ∨ s.bd.ep2Out.own = .hw) : appStep s = .ok s := by
  by_cases hheld : s.txPending = true
  · exact if_pos hheld
  · rw [appStep, if_neg hheld, readAvailable_of_idle hknown (hidle.resolve_left hheld)]
    rfl

/-- APP_CMD of an empty packet consumes it (46_application.md R232). -/
theorem appStep_of_empty {s t : State} (hfree : s.txPending = false)
    (hread : readAvailable s.params.appReadMax s = .ok (t, [])) : appStep s = .ok t := by
  rw [appStep, hfree, hread]
  rfl

/-- APP_CMD of a packet acts on its first byte alone (46_application.md R232). -/
theorem appStep_of_cons {s t : State} {b : Byte} {more : List Byte} (hfree : s.txPending = false)
    (hread : readAvailable s.params.appReadMax s = .ok (t, b :: more)) : appStep s = appByte b t := by
  rw [appStep, hfree, hread]
  rfl

theorem exec_appCmd_of_ok {s t : State} (h : appStep s = .ok t) :
    exec .appCmd s = .next { t with result := zeroResult } := by
  show execAppCmd s = _
  rw [execAppCmd, h]
  rfl

/-- Settles O51: reading the packet arms EP2OUT and leaves the rest, so its first byte finds nothing staged and meets
the command table as in O50. -/
theorem applicationStep : Obligations.ApplicationStep := by
  intro s hparams hknown
  refine ⟨fun hidle => exec_appCmd_of_ok (appStep_of_idle hknown hidle), ?_⟩
  intro packet hfree hconf hown hen hcnt hlen hholds ignored replied
  have hread := readAvailable_of_packet hconf hown hen hcnt hlen hholds
  have hfirst : ∀ {b more}, packet = b :: more → appStep s = appByte b { s with bd := ep2OutArmed s } := by
    rintro b more rfl
    exact appStep_of_cons hfree hread
  have hreply : ∀ {led r}, appStep s = respond led r { s with bd := ep2OutArmed s } → replied led r := by
    intro led r h
    rw [respond_of_free (s := { s with bd := ep2OutArmed s }) hparams hconf hfree] at h
    exact ⟨_, exec_appCmd_of_ok h, rfl, stored_writeBytes _ _ _⟩
  refine ⟨?empty, fun _ hO => hreply (hfirst hO), fun _ hF => hreply (hfirst hF), fun _ hS => hreply (hfirst hS),
    ?other⟩
  case empty =>
    rintro rfl
    exact exec_appCmd_of_ok (appStep_of_empty hfree hread)
  case other =>
    intro b _ hb hO hF hS
    exact exec_appCmd_of_ok ((hfirst hb).trans (appByte_of_other hO hF hS _))

end Sys2Proof.Machine
end

section
/-! SUPPORT, and O9. The command port's checks one after the other (60_exceptions.md R248 item 4): what the decoder
answers where one fails, and that the command decodes where all hold. -/

namespace Sys2Proof

/-- OP values that spell no operation, by number (30_encoding.md R98). -/
theorem reservedOp_iff (op : BitVec 4) : reservedOp op = true ↔ op.toNat = 0 ∨ 9 ≤ op.toNat := by
  revert op; decide

/-! ## Check (v), LEN and DATA -/

/-- What operation n takes as LEN and DATA (30_encoding.md R97, check (v) of 60_exceptions.md R248 item 4). -/
def TakesData (n : Nat) (C : Word32) (data : List Byte) : Prop :=
  if n = 4 ∨ n = 6 then data.length = (commandLen C).toNat
  else if n = 5 then data = []
  else (commandLen C).toNat = 0 ∧ data = []

/-- The answer of a last check: an instruction where it holds, BAD_COMMAND where it fails. -/
def AnswersCheck (holds : Prop) (k : Except DecodeError Instr) : Prop :=
  (holds → ∃ i, k = .ok i) ∧ (¬holds → k = .error .badCommand)

theorem answersCheck_ite {c : Prop} [Decidable c] (i : Instr) :
    AnswersCheck c (if c then .ok i else .error .badCommand) :=
  ⟨fun hc => ⟨i, if_pos hc⟩, fun hc => if_neg hc⟩

theorem AnswersCheck.eq_badCommand {holds : Prop} {k : Except DecodeError Instr} {d : DecodeError}
    (hk : AnswersCheck holds k) (h : k = .error d) : d = .badCommand := by
  obtain ⟨hok, herror⟩ := hk
  by_cases hc : holds
  · obtain ⟨i, rfl⟩ := hok hc
    cases h
  · rw [herror hc] at h
    exact (Except.error.inj h).symm

theorem plainCommand_answersCheck (C : Word32) (data : List Byte) (i : Instr) :
    AnswersCheck ((commandLen C).toNat = 0 ∧ data = []) (plainCommand C data i) := by
  rw [show (commandLen C).toNat = 0 ↔ commandLen C = 0 from (BitVec.toNat_eq (y := 0)).symm]
  exact answersCheck_ite i

theorem dataCommand_answersCheck (C : Word32) (data : List Byte) (i : Instr) :
    AnswersCheck (data.length = (commandLen C).toNat) (dataCommand C data i) := answersCheck_ite i

/-! ## Checks (i) and (ii), OP and the top bits -/

theorem decodeCommand_of_reserved {C : Word32} {data : List Byte} (h : reservedOp (commandOp C) = true) :
    decodeCommand C data = .ok (.cmdReserved (commandOp C) (C.extractLsb' 4 28) data) := if_pos h

theorem decodeCommand_of_top {C : Word32} {data : List Byte} (h : ¬reservedOp (commandOp C) = true)
    (htop : commandTop C ≠ 0) : decodeCommand C data = .error .badCommand :=
  (if_neg h).trans (if_pos htop)

/-! ## Checks (iii) and (iv), the entry field -/

/-- ARM_RX and ARM_TX make check (iii), then check (v). -/
theorem decodeCommand_of_entryOp {C : Word32} {data : List Byte} (htop : commandTop C = 0)
    (hop : (commandOp C).toNat = 3 ∨ (commandOp C).toNat = 4) :
    ∃ k, decodeCommand C data = entryCommand C k ∧
      ∀ e, AnswersCheck (TakesData (commandOp C).toNat C data) (k e) := by
  have hnot : ¬reservedOp (commandOp C) = true := by rw [reservedOp_iff]; omega
  rw [decodeCommand, if_neg hnot, if_neg (not_not.mpr htop)]
  rcases hop with hop | hop <;> rw [hop]
  · exact ⟨_, rfl, fun e => plainCommand_answersCheck C data _⟩
  · exact ⟨_, rfl, fun e => dataCommand_answersCheck C data _⟩

/-- The other operations make check (iv), then check (v). -/
theorem decodeCommand_of_noEntryOp {C : Word32} {data : List Byte} (hnot : ¬reservedOp (commandOp C) = true)
    (htop : commandTop C = 0) (hrx : (commandOp C).toNat ≠ 3) (htx : (commandOp C).toNat ≠ 4) :
    ∃ k, decodeCommand C data = noEntryCommand C k ∧ AnswersCheck (TakesData (commandOp C).toNat C data) k := by
  rw [decodeCommand, if_neg hnot, if_neg (not_not.mpr htop)]
  obtain ⟨hlow, hhigh⟩ := toNat_of_not_reservedOp _ hnot
  have hops : (commandOp C).toNat = 5 ∨ (commandOp C).toNat = 6 ∨ (commandOp C).toNat = 1 ∨ (commandOp C).toNat = 2 ∨
      (commandOp C).toNat = 7 ∨ (commandOp C).toNat = 8 := by omega
  rcases hops with hop | hop | hop | hop | hop | hop <;> rw [hop]
  · exact ⟨_, rfl, answersCheck_ite (c := data = []) _⟩
  · exact ⟨_, rfl, dataCommand_answersCheck C data _⟩
  all_goals exact ⟨_, rfl, plainCommand_answersCheck C data _⟩

theorem entryOfIndex_eq_none {n : BitVec 4} : entryOfIndex n = none ↔ 5 ≤ n.toNat := by
  revert n; decide

theorem entryCommand_of_badEntry {C : Word32} (h : 5 ≤ (commandEntry C).toNat)
    (k : Entry → Except DecodeError Instr) : entryCommand C k = .error .badEntry := by
  rw [entryCommand, entryOfIndex_eq_none.mpr h]

theorem entryCommand_of_entry {C : Word32} (h : (commandEntry C).toNat < 5) (k : Entry → Except DecodeError Instr) :
    ∃ e, entryCommand C k = k e := by
  have hsome : entryOfIndex (commandEntry C) ≠ none := by rw [Ne, entryOfIndex_eq_none]; omega
  obtain ⟨e, he⟩ := Option.ne_none_iff_exists'.mp hsome
  exact ⟨e, by rw [entryCommand, he]⟩

theorem decodeCommand_of_badEntry {C : Word32} {data : List Byte} (htop : commandTop C = 0)
    (hop : (commandOp C).toNat = 3 ∨ (commandOp C).toNat = 4) (h : 5 ≤ (commandEntry C).toNat) :
    decodeCommand C data = .error .badEntry := by
  obtain ⟨k, hk, -⟩ := decodeCommand_of_entryOp (data := data) htop hop
  exact hk.trans (entryCommand_of_badEntry h k)

theorem decodeCommand_of_strayEntry {C : Word32} {data : List Byte} (hnot : ¬reservedOp (commandOp C) = true)
    (htop : commandTop C = 0) (hrx : (commandOp C).toNat ≠ 3) (htx : (commandOp C).toNat ≠ 4)
    (h : (commandEntry C).toNat ≠ 0) : decodeCommand C data = .error .badCommand := by
  obtain ⟨k, hk, -⟩ := decodeCommand_of_noEntryOp (data := data) hnot htop hrx htx
  exact hk.trans (if_neg fun hzero => h (congrArg BitVec.toNat hzero))

/-- With checks (i) to (iv) passed, check (v) decides. -/
theorem decodeCommand_answersCheck {C : Word32} {data : List Byte} (hnot : ¬reservedOp (commandOp C) = true)
    (htop : commandTop C = 0)
    (hentry : if (commandOp C).toNat = 3 ∨ (commandOp C).toNat = 4 then (commandEntry C).toNat < 5
      else (commandEntry C).toNat = 0) :
    AnswersCheck (TakesData (commandOp C).toNat C data) (decodeCommand C data) := by
  split at hentry
  case isTrue hop =>
    obtain ⟨k, hk, hcheck⟩ := decodeCommand_of_entryOp (data := data) htop hop
    obtain ⟨e, he⟩ := entryCommand_of_entry hentry k
    rw [hk, he]
    exact hcheck e
  case isFalse hop =>
    obtain ⟨hrx, htx⟩ := not_or.mp hop
    obtain ⟨k, hk, hcheck⟩ := decodeCommand_of_noEntryOp (data := data) hnot htop hrx htx
    rw [hk, noEntryCommand, if_pos (BitVec.eq_of_toNat_eq hentry)]
    exact hcheck

/-- Settles O9: the first check that fails decides, and where none fails check (v) has answered an instruction. -/
theorem commandChecksInOrder : Obligations.CommandChecksInOrder := by
  intro C data op e len reserved
  have hreserved : reserved ↔ reservedOp (commandOp C) = true := (reservedOp_iff _).symm
  have hrefuses : (if op = 4 ∨ op = 6 then data.length ≠ len else if op = 5 then data ≠ [] else len ≠ 0 ∨ data ≠ []) ↔
      ¬TakesData op C data := by
    rw [TakesData]
    split_ifs
    · rfl
    · rfl
    · exact not_and_or.symm
  rw [hreserved, hrefuses]
  exact ⟨decodeCommand_of_reserved, decodeCommand_of_top, fun _ htop hop => decodeCommand_of_badEntry htop hop,
    decodeCommand_of_strayEntry, fun hnot htop hentry => (decodeCommand_answersCheck hnot htop hentry).2,
    fun hnot htop hentry => (decodeCommand_answersCheck hnot htop hentry).1⟩

/-- The command port turns a word away with BAD_COMMAND or BAD_ENTRY alone (60_exceptions.md R251). -/
theorem decode_command_error {C : Word32} {data : List Byte} {d : DecodeError}
    (h : decode (.command C data) = .error d) : d = .badCommand ∨ d = .badEntry := by
  change decodeCommand C data = .error d at h
  by_cases hreserved : reservedOp (commandOp C) = true
  · rw [decodeCommand_of_reserved hreserved] at h
    cases h
  by_cases htop : commandTop C = 0
  case neg =>
    rw [decodeCommand_of_top hreserved htop] at h
    exact .inl (Except.error.inj h).symm
  by_cases hop : (commandOp C).toNat = 3 ∨ (commandOp C).toNat = 4
  · by_cases hentry : (commandEntry C).toNat < 5
    · exact .inl ((decodeCommand_answersCheck hreserved htop (by rwa [if_pos hop])).eq_badCommand h)
    · rw [decodeCommand_of_badEntry htop hop (Nat.not_lt.mp hentry)] at h
      exact .inr (Except.error.inj h).symm
  · obtain ⟨hrx, htx⟩ := not_or.mp hop
    by_cases hentry : (commandEntry C).toNat = 0
    · exact .inl ((decodeCommand_answersCheck hreserved htop (by rwa [if_neg hop])).eq_badCommand h)
    · rw [decodeCommand_of_strayEntry hreserved htop hrx htx hentry] at h
      exact .inl (Except.error.inj h).symm

end Sys2Proof
end

section
/-! SUPPORT, and O2, O3, O4, O5, O11. Steps that run no instruction: CAPTURE, a command the port turns away, steps that
are not enabled, and power-on reset (60_exceptions.md R244-R251, 70_reset_and_hazards.md R270). -/

namespace Sys2Proof.Machine

/-! ## A command the port turns away -/

/-- An agent step whose wire form the command port turns away leaves the mark of that name. -/
theorem runAgentStep_of_refused {a : AgentStep} {w : Wire} {d : DecodeError} {r : CommandRefusal}
    (hw : agentWire a = some w) (hd : decode w = .error d) (hr : portRefusal d = some r) (s : State) :
    runAgentStep a s = .next (refuseCommand r s) := by
  simp [runAgentStep, runWire, hw, hd, hr]

/-- Settles O3: the decoder's only errors on a command are the two the port has a name for. -/
theorem refusedCommandChangesOnlyTheMark : Obligations.RefusedCommandChangesOnlyTheMark := by
  intro s C data rest d ha hf hag hd
  have hmark {r} (hr : portRefusal d = some r) :
      step s = .next { s with agenda := rest, refused := some (s.refused.getD r), result := none } := by
    rw [step_of_agenda ha hf hag, runAgentStep_of_refused rfl hd hr, refuseCommand_eq]
  rcases decode_command_error hd with rfl | rfl
  · exact ⟨_, .inl ⟨rfl, rfl⟩, hmark rfl⟩
  · exact ⟨_, .inr ⟨rfl, rfl⟩, hmark rfl⟩

/-! ## CAPTURE -/

theorem step_of_capture {s : State} {rest : List AgentStep} (ha : admitted s.params = true) (hf : s.faulted = none)
    (hag : s.agenda = .capture :: rest) : step s = .next (capture { s with agenda := rest }) :=
  step_of_agenda ha hf hag

theorem capture_of_reset {s : State} (h : s.sieIfReset = true) :
    capture s = { s with sieIfReset := false, pendReset := true } := if_pos h

theorem capture_of_error {s : State} (hreset : s.sieIfReset = false) (herror : s.sieIfError = true) :
    capture s = { s with sieIfError := false, pendError := true } := by
  simp [capture, hreset, herror]

theorem capture_of_token {s : State} {t : TokenRecord} {ts : List TokenRecord} (hreset : s.sieIfReset = false)
    (herror : s.sieIfError = false) (hfifo : s.sieFifo = t :: ts) (hroom : s.tokq.length < s.params.tokqDepth) :
    capture s = { s with sieFifo := ts, tokq := s.tokq ++ [t] } := by
  have hfull : s.tokqFull = false := decide_eq_false (Nat.not_le.mpr hroom)
  simp [capture, hreset, herror, hfifo, hfull]

/-- CAPTURE with no branch enabled (60_exceptions.md R247; log 6). -/
theorem capture_of_notEnabled {s : State} (hreset : s.sieIfReset = false) (herror : s.sieIfError = false)
    (h : s.sieFifo = [] ∨ s.params.tokqDepth ≤ s.tokq.length) : capture s = s := by
  rcases hfifo : s.sieFifo with - | ⟨t, ts⟩
  · simp [capture, hreset, herror, hfifo]
  · have hfull : s.tokqFull = true := decide_eq_true (by simpa [hfifo] using h)
    simp [capture, hreset, herror, hfifo, hfull]

/-- Settles O2: the three branches of `capture`, on the state with CAPTURE taken from the agenda. -/
theorem captureTakesResetThenErrorThenToken : Obligations.CaptureTakesResetThenErrorThenToken := by
  intro s rest ha hf hag
  rw [step_of_capture ha hf hag]
  exact ⟨fun hreset => congrArg _ (capture_of_reset hreset),
    fun hreset herror => congrArg _ (capture_of_error hreset herror),
    fun _ _ hreset herror hfifo hroom => congrArg _ (capture_of_token hreset herror hfifo hroom)⟩

/-! ## Steps that are not enabled, and machines that take none -/

/-- A bus reset off the powered bus (44_endpoint_buffers.md R212; log 6). -/
theorem exec_sieReset_of_unpowered {s : State} (h : s.devState.toNat < 2) : exec .sieReset s = .next s := by
  obtain ⟨d, hd⟩ := known_of_toNat_lt (s := s) (by omega)
  have hoff : ¬d.onPoweredBus = true := by
    rw [onPoweredBus_iff, ← hd]
    exact Nat.not_le.mpr h
  simp [exec_sieReset_of_code hd, hoff]

/-- A SETUP packet out of the step's operand domain (30_encoding.md R101; log 8). -/
theorem exec_sieSetup_of_tooLong {s : State} {bytes : List Byte} (h : s.params.ep0Mps < bytes.length) :
    exec (.sieSetup bytes) s = .refused .notAStep := by
  have hoffered : ¬s.setupOffered bytes = true := by
    simpa [State.setupOffered] using h
  exact if_neg hoffered

/-- Settles O5: no branch of CAPTURE is enabled, the bus is unpowered, or the packet is out of its domain. -/
theorem stepsThatAreNotEnabled : Obligations.StepsThatAreNotEnabled := by
  refine ⟨fun s rest ha hf hag hreset herror hblocked => ?_, fun s hoff => ?_, fun s bytes => exec_sieSetup_of_tooLong⟩
  · rw [step_of_capture ha hf hag]
    exact congrArg _ (capture_of_notEnabled hreset herror hblocked)
  · exact ⟨exec_sieReset_of_unpowered hoff, exec_sieError_unseen (by omega) (.inl hoff)⟩

theorem step_of_faulted {s : State} {f : Fault} (h : s.faulted = some f) : step s = .fault f := by
  simp [step, machineStep, h]

theorem step_of_notAdmitted {s : State} (hf : s.faulted = none) (ha : admitted s.params = false) :
    step s = .refused .badParameters := by
  simp [step, machineStep, hf, ha]

theorem launch_of_notAdmitted {p : Params} (h : admitted p = false) : launch p = .refused .badParameters :=
  if_neg (by simp [h])

/-- Settles O4: the mark is read first, then the parameters. -/
theorem faultedOrBadParametersTakeNoStep : Obligations.FaultedOrBadParametersTakeNoStep :=
  ⟨fun _ _ => step_of_faulted, fun _ => step_of_notAdmitted, fun _ => launch_of_notAdmitted⟩

/-! ## Power-on reset -/

theorem launch_of_admitted {p : Params} (h : admitted p = true) : launch p = .next (State.powerOn p) := if_pos h

/-- Settles O11: the state launched is `State.powerOn`, which gives each register its value of R270. -/
theorem powerOnResetValues : Obligations.PowerOnResetValues := by
  intro p hp
  have hbd (e : Entry) : (State.powerOn p).bd.get e = BdStat.zero ∧ ((State.powerOn p).bd.get e).word = 0 := by
    rw [powerOn_bd_get]
    exact ⟨rfl, by decide⟩
  exact ⟨State.powerOn p, launch_of_admitted hp, rfl, rfl, rfl, rfl, hbd, rfl, rfl, rfl, rfl, rfl, rfl, rfl, rfl, rfl,
    rfl, rfl, rfl, rfl, rfl, rfl, fun _ => rfl, rfl, rfl⟩

end Sys2Proof.Machine
end
